-- ==== Sys2Proof/Word.lean ====
section
/-! DEFINITION. The word types of the block and their plainest arithmetic (00_scope.md R10, R11;
10_state.md R20; 20_memory.md R47): bytes, 32-bit words and addresses, 128-bit quadwords. -/

namespace Sys2Proof

/-- One byte of main memory. -/
abbrev Byte := BitVec 8

/-- A 32-bit word: a FIFO storage word, a register. -/
abbrev Word := BitVec 32

/-- A 32-bit byte address of main memory (20_memory.md R41). -/
abbrev Addr := BitVec 32

/-- A quadword, the block's 16-byte transfer unit (00_scope.md R15), as a 128-bit number. -/
abbrev Quad := BitVec 128

/-- `a` is a multiple of 16 (20_memory.md R46). -/
def aligned (a : Addr) : Bool := a.toNat % 16 == 0

end Sys2Proof
end

