-- ==== Sys2Proof/Config.lean ====
section
/-! DEFINITION. What an implementation fixes (00_scope.md R8): the parameters with the spec's values and
defaults, and the one free value, the receiving unit's answer to an external call. -/

namespace Sys2Proof

/-- The eight tag types (00_scope.md R14; 30_encoding.md R61). -/
inductive TagType where
  | refe | cnt | next | ref | refs | call | ret | endTag
deriving DecidableEq, Repr, Inhabited

/-- TAG_ID_MAP (30_encoding.md R61): the numeric value of each tag type. -/
structure TagIdMap where
  refe   : BitVec 3
  cnt    : BitVec 3
  next   : BitVec 3
  ref    : BitVec 3
  refs   : BitVec 3
  call   : BitVec 3
  ret    : BitVec 3
  endTag : BitVec 3
deriving DecidableEq, Repr

/-- VGW_POLICY (44_path_coordinator.md R115). -/
inductive VgwPolicy where
  | doc | yield
deriving DecidableEq, Repr

/-- A range of addresses that resolve to memory: `size` bytes from `base`. -/
structure Region where
  base : Nat
  size : Nat
deriving DecidableEq, Repr

/-- The path-3 state of the receiving unit (10_state.md R33, C6 and D47). -/
inductive PathState where
  | idle | wait | active | other
deriving DecidableEq, Repr, Inhabited

/-- The receiving unit as the block sees it (10_state.md R33): its path-3 state, its active-path indicator and
OPH flag, and the answers its two queries give now (60_exceptions.md R137). -/
structure Receiver where
  p3        : PathState
  apath     : BitVec 2
  oph       : Bool
  canAccept : Bool
  masked    : Bool
deriving DecidableEq, Repr, Inhabited

/-- What the receiving unit does on one external call: the byte count it reports (meaningful for
`transferPacketData` alone) and its own state afterwards (60_exceptions.md R136, R137). -/
structure Answer where
  consumed : Nat
  after    : Receiver
deriving DecidableEq, Repr, Inhabited

/-- A delay that a reschedule may carry: at least one cycle, "`d >= 1` always" (45_handler.md R119). -/
abbrev Delay := { d : Nat // 1 ≤ d }

/-- The parameters of 00_scope.md R8, as plain data, FIFO_EMU apart, which is an input and stands in the state. No
operation of the block writes one; a claim may fix them or hold for all of them.
`fifoCap`, `fifoWords`, `qwBytes`, `addrBits` and `qwcBits` are the ones whose value the other rules write as a number
(16, 64, 16, 32, 16): with another value there a launch is refused (log 31), as with `stackDepth`.
`mapped` lists the address ranges that resolve to memory (20_memory.md R42). `chunks` lists the counts `q` whose
CHUNK(q) is not the default `q` (42_transfer.md R99). `loopFuel = none` leaves LOOP_FUEL out. -/
structure Config where
  fifoCap       : Nat
  fifoWords     : Nat
  qwBytes       : Nat
  addrBits      : Nat
  qwcBits       : Nat
  minDelay      : Delay
  cycPerTag     : Nat
  cycPerQw      : Nat
  vifNudgeDelay : Nat
  vgwPolicy     : VgwPolicy
  vgwDelay      : Delay
  stallIds      : List TagType
  tagIds        : TagIdMap
  stackDepth    : Nat
  chunks        : List (Nat × Nat)
  mapped        : List Region
  loopFuel      : Option Nat
deriving DecidableEq, Repr

/-- The Packet FIFO's capacity in quadwords, as the rules write it (10_state.md R28; 40_packet_fifo.md R72). -/
def Config.capacity : Nat := 16

/-- The parameters that the rules write as numbers have those numbers as their values (00_scope.md R8; log 31). -/
def Config.asWritten (cfg : Config) : Bool :=
  cfg.fifoCap == Config.capacity && cfg.fifoWords == 64 && cfg.qwBytes == 16 && cfg.addrBits == 32 && cfg.qwcBits == 16

/-- MFD_GIF (30_encoding.md R65). -/
def Config.mfdGif : BitVec 2 := 3

/-- STD_GIF (30_encoding.md R65). -/
def Config.stdGif : BitVec 2 := 2

/-- The default TAG_ID_MAP of 30_encoding.md R61. -/
def Config.defaultTagIds : TagIdMap :=
  { refe := 0, cnt := 1, next := 2, ref := 3, refs := 4, call := 5, ret := 6, endTag := 7 }

/-- Every 32-bit address resolves to memory. DESIGN CHOICE, unsafe (log 2): the spec leaves `Mapped` open. -/
def Config.everything : List Region := [{ base := 0, size := 4294967296 }]

/-- The parameters at the spec's values and defaults (00_scope.md R8). -/
def Config.defaults : Config :=
  { fifoCap := 16, fifoWords := 64, qwBytes := 16, addrBits := 32, qwcBits := 16, minDelay := ⟨4, by decide⟩
    cycPerTag := 2, cycPerQw := 2, vifNudgeDelay := 1, vgwPolicy := .doc, vgwDelay := ⟨16, by decide⟩,
    stallIds := [.refs], tagIds := Config.defaultTagIds, stackDepth := 2, chunks := [],
    mapped := Config.everything, loopFuel := none }

/-- The free value (log 7): what the receiving unit answers on its `n`-th external call, where no scripted answer
stands. 93_implementation_defined.md U6 and U7 allow any value. -/
opaque Config.freeAnswer : Nat → Answer

end Sys2Proof
end

