-- ==== Sys2Proof/Syntax.lean ====
section
/-! DEFINITION. The operation set (00_scope.md R19): the eight descriptor tags and the nine interface operations,
one constructor per row of spec/opcode_table.json, with the data their operands carry. -/

namespace Sys2Proof

/-- The fields of a descriptor tag besides its type (30_encoding.md R58). `spare` is bits 25:16, `pce` bits 27:26,
`upper` bits 127:64; the block ignores them but for the copy of bits 31:16 in `ch.CHCR.TAG` (R62, R81). -/
structure TagFields where
  qwc   : BitVec 16
  spare : BitVec 10
  pce   : BitVec 2
  irq   : Bool
  addr  : Addr
  upper : BitVec 64
deriving DecidableEq, Repr

/-- The coarse engine state (10_state.md R25). -/
inductive EngState where
  | ready | empty
deriving DecidableEq, Repr

/-- The engine state `eng` (10_state.md R25). The counters are unbounded naturals. -/
structure Engine where
  done  : Bool
  state : EngState
  cyc   : Nat
  prev  : Nat
  mcyc  : Nat
deriving DecidableEq, Repr

/-- The Packet FIFO's visible status (10_state.md R28). -/
inductive FifoStatus where
  | empty | normal | full
deriving DecidableEq, Repr

/-- The Packet FIFO (10_state.md R28). `rd` and `wr` count 32-bit words modulo 64. -/
structure PacketFifo where
  data   : Vector Word 64
  stage  : Vector Word 64
  rd     : BitVec 6
  wr     : BitVec 6
  occ    : Nat
  status : FifoStatus
deriving DecidableEq, Repr

/-- The diagnostic kinds (10_state.md R35; 60_exceptions.md R132). -/
inductive DiagKind where
  | unmappedTag | unmappedData | unmappedRunTail | consumerOverrun | stallInNormalMode | callStackOverflow
  | callAddrZero
deriving DecidableEq, Repr

/-- The sticky set of diagnostic kinds: one membership bit a kind (10_state.md R35, C12). -/
structure DiagSet where
  unmappedTag       : Bool
  unmappedData      : Bool
  unmappedRunTail   : Bool
  consumerOverrun   : Bool
  stallInNormalMode : Bool
  callStackOverflow : Bool
  callAddrZero      : Bool
deriving DecidableEq, Repr

/-- What `Snapshot()` returns and `Restore(s)` takes (60_exceptions.md R141): the engine state, the Packet FIFO and
the diagnostic set. -/
structure SavedBlock where
  eng  : Engine
  fifo : PacketFifo
  diag : DiagSet
deriving DecidableEq, Repr

/-- The operation set, one constructor per row of spec/opcode_table.json. -/
inductive Instr where
  | refe (f : TagFields)
  | cnt (f : TagFields)
  | next (f : TagFields)
  | ref (f : TagFields)
  | refs (f : TagFields)
  | call (f : TagFields)
  | ret (f : TagFields)
  | endTag (f : TagFields)
  | fifoInit
  | fifoWrite (buf : List Quad) (count : BitVec 16)
  | fifoRead (fromScheduledEvent : Bool)
  | dmaStart
  | handlerEntry
  | cancel
  | writerAdvance (w : Addr)
  | snapshot
  | restore (saved : SavedBlock)
deriving DecidableEq, Repr

end Sys2Proof
end

