-- ==== Sys2Proof/Machine/Status.lean ====
section
/-! DEFINITION. The Packet FIFO's status mirror and invariants (40_packet_fifo.md R70; 10_state.md R29), which both
well-formedness and the machine use. -/

namespace Sys2Proof.Machine

/-- `StatusOf(occ)`, the visible status as a pure function of occupancy (40_packet_fifo.md R70). -/
def statusOf (occ : Nat) : FifoStatus :=
  if occ = 0 then .empty else if occ = Config.capacity then .full else .normal

/-- The invariants of the Packet FIFO (10_state.md R29): (a) occupancy within [0, 16]; (b) the write index is four
words an entry past the read index; (c) the status mirrors the occupancy; and the read index is a multiple of 4
(R28), so that by (b) the write index is one too. -/
def fifoInv (f : PacketFifo) : Bool :=
  decide (f.occ ≤ Config.capacity) && decide (f.wr = f.rd + BitVec.ofNat 6 (4 * f.occ))
    && decide (f.status = statusOf f.occ) && decide (f.rd.toNat % 4 = 0)

end Sys2Proof.Machine
end

