-- ==== Sys2Proof/WellFormed.lean ====
section
/-! DEFINITION. Which operations are well formed: a tag's address field is a multiple of 16 (70_reset_and_hazards.md
R150), a FIFO write's buffer holds at least the count offered (40_packet_fifo.md R72), a restored block is one a
snapshot of a block in order returns (60_exceptions.md R141). -/

namespace Sys2Proof

/-- A tag's fields are well formed when its address field is a multiple of 16 (20_memory.md R46). -/
def TagFields.wellFormed (f : TagFields) : Bool := aligned f.addr

/-- A saved block is well formed when its FIFO meets the invariants that every operation keeps (10_state.md R29). -/
def SavedBlock.wellFormed (b : SavedBlock) : Bool := Sys2Proof.Machine.fifoInv b.fifo

/-- Well-formed operations. `WriterAdvance` takes any cursor: 43_mfifo.md R104 says what an unaligned one does. -/
def Instr.wellFormed : Instr → Bool
  | .refe f => f.wellFormed
  | .cnt f => f.wellFormed
  | .next f => f.wellFormed
  | .ref f => f.wellFormed
  | .refs f => f.wellFormed
  | .call f => f.wellFormed
  | .ret f => f.wellFormed
  | .endTag f => f.wellFormed
  | .fifoInit => true
  | .fifoWrite buf count => decide (count.toNat ≤ buf.length)
  | .fifoRead _ => true
  | .dmaStart => true
  | .handlerEntry => true
  | .cancel => true
  | .writerAdvance _ => true
  | .snapshot => true
  | .restore b => b.wellFormed

end Sys2Proof
end

