-- ==== Sys2Proof/Decode.lean ====
section
/-! DEFINITION. Decoding and encoding of descriptor tags (30_encoding.md R58 to R63, R68; 20_memory.md R44, R45).
One tag is one quadword, little-endian. Decoding is total: it rejects, by name, fewer than sixteen bytes, and an ID
that a TAG_ID_MAP leaves to no type. Interface operations have no bit pattern. -/

namespace Sys2Proof

/-- Why bytes do not decode. -/
inductive DecodeError where
  /-- Fewer than the sixteen bytes of a tag (R68). -/
  | short
  /-- The TAG_ID_MAP gives this ID to no tag type; a well-formed map leaves none out (R62). -/
  | unassignedId (id : BitVec 3)
deriving DecidableEq, Repr

/-- The numeric value of a tag type (30_encoding.md R61). -/
def TagIdMap.idOf (m : TagIdMap) : TagType → BitVec 3
  | .refe => m.refe
  | .cnt => m.cnt
  | .next => m.next
  | .ref => m.ref
  | .refs => m.refs
  | .call => m.call
  | .ret => m.ret
  | .endTag => m.endTag

/-- The tag type a numeric value selects (30_encoding.md R61, R62). -/
def TagIdMap.typeOf (m : TagIdMap) (id : BitVec 3) : Option TagType :=
  [TagType.refe, .cnt, .next, .ref, .refs, .call, .ret, .endTag].find? (fun t => m.idOf t == id)

/-- A map is well formed when every value selects exactly one type, and reference-flat is 3 as the source says
(30_encoding.md R61). -/
def TagIdMap.wellFormed (m : TagIdMap) : Bool :=
  [m.refe, m.cnt, m.next, m.ref, m.refs, m.call, m.ret, m.endTag].Nodup && m.ref == 3

/-- The tag of a type with the given fields. -/
def Instr.ofTag : TagType → TagFields → Instr
  | .refe, f => .refe f
  | .cnt, f => .cnt f
  | .next, f => .next f
  | .ref, f => .ref f
  | .refs, f => .refs f
  | .call, f => .call f
  | .ret, f => .ret f
  | .endTag, f => .endTag f

/-- The type and fields of an operation that is a tag; none for an interface operation. -/
def Instr.tag? : Instr → Option (TagType × TagFields)
  | .refe f => some (.refe, f)
  | .cnt f => some (.cnt, f)
  | .next f => some (.next, f)
  | .ref f => some (.ref, f)
  | .refs f => some (.refs, f)
  | .call f => some (.call, f)
  | .ret f => some (.ret, f)
  | .endTag f => some (.endTag, f)
  | .fifoInit => none
  | .fifoWrite _ _ => none
  | .fifoRead _ => none
  | .dmaStart => none
  | .handlerEntry => none
  | .cancel => none
  | .writerAdvance _ => none
  | .snapshot => none
  | .restore _ => none

/-- A little-endian byte list as a number: byte `i` weighs 2^(8i) (20_memory.md R45). -/
def leNat : List Byte → Nat
  | [] => 0
  | b :: bs => b.toNat + 256 * leNat bs

/-- The quadword that sixteen bytes in address order hold (20_memory.md R45). -/
def quadOfBytes (bs : List Byte) : Quad := BitVec.ofNat 128 (leNat bs)

/-- The `n` low bytes of a number, low byte first (20_memory.md R44). -/
def leBytes : Nat → Nat → List Byte
  | 0, _ => []
  | n + 1, v => BitVec.ofNat 8 v :: leBytes n (v / 256)

/-- The sixteen bytes of a quadword in address order (20_memory.md R44). -/
def bytesOfQuad (q : Quad) : List Byte := leBytes 16 q.toNat

/-- The four bytes of a 32-bit word in address order (20_memory.md R45). -/
def bytesOfWord (w : Word) : List Byte := leBytes 4 w.toNat

/-- Word `w` of a quadword, bits `32w+31 : 32w` (20_memory.md R45). -/
def quadWord (q : Quad) (w : Nat) : Word := q.extractLsb' (32 * w) 32

/-- The fields of a tag value (30_encoding.md R58, R59). -/
def tagFieldsOf (T : Quad) : TagFields :=
  { qwc := T.extractLsb' 0 16, spare := T.extractLsb' 16 10, pce := T.extractLsb' 26 2,
    irq := T.getLsbD 31, addr := T.extractLsb' 32 32, upper := T.extractLsb' 64 64 }

/-- The ID field of a tag value (30_encoding.md R59). -/
def tagIdOf (T : Quad) : BitVec 3 := T.extractLsb' 28 3

/-- The type and fields of a tag value (30_encoding.md R59, R61). -/
def tagOfQuad (m : TagIdMap) (T : Quad) : Option (TagType × TagFields) :=
  match m.typeOf (tagIdOf T) with
  | some t => some (t, tagFieldsOf T)
  | none => none

/-- The tag a quadword holds (30_encoding.md R59, R61). -/
def decodeTag (m : TagIdMap) (T : Quad) : Except DecodeError Instr :=
  match tagOfQuad m T with
  | some (t, f) => .ok (Instr.ofTag t f)
  | none => .error (.unassignedId (tagIdOf T))

/-- Decoding of a byte stream: one tag from sixteen bytes, and the bytes after it (30_encoding.md R68). -/
def decode (m : TagIdMap) (bytes : List Byte) : Except DecodeError (Instr × List Byte) :=
  if bytes.length < 16 then .error .short
  else match decodeTag m (quadOfBytes (bytes.take 16)) with
    | .ok i => .ok (i, bytes.drop 16)
    | .error e => .error e

/-- Tag bits 31:16, which every fetch copies into `ch.CHCR.TAG` (30_encoding.md R59; 41_chain_tags.md R81). -/
def tagHi16 (m : TagIdMap) (t : TagType) (f : TagFields) : BitVec 16 :=
  BitVec.ofBool f.irq ++ m.idOf t ++ f.pce ++ f.spare

/-- The tag value of a type with the given fields (30_encoding.md R63, with the ignored bits kept). -/
def encodeTag (m : TagIdMap) (t : TagType) (f : TagFields) : Quad :=
  f.upper ++ f.addr ++ tagHi16 m t f ++ f.qwc

/-- The quadword of an operation that is a tag; an interface operation has no bit pattern. -/
def encode (m : TagIdMap) (i : Instr) : Option Quad :=
  match i.tag? with
  | some (t, f) => some (encodeTag m t f)
  | none => none

/-- What the decoder reads from an instruction whose bits are `w`, bit 0 the least significant bit of the first word
and every bit above `nbits` zero, under the default TAG_ID_MAP: the sixteen bytes a tag occupies, in address order.
A row without bits (an interface operation) has nothing to decode. -/
def decodeTableWord (nbits w : Nat) : Option Instr :=
  if nbits = 0 then none
  else match decode Config.defaultTagIds (leBytes 16 (w % 2 ^ nbits)) with
  | .ok (i, _) => some i
  | .error _ => none

end Sys2Proof
end

