-- ==== Sys2Proof/Machine/State.lean ====
section
/-! DEFINITION. The machine's state as plain data (10_state.md; 70_reset_and_hazards.md R148), its outputs, the reasons
a step can stop, and the state at session start. INVENTORY.md's '## State' lists every field with its rule. -/

namespace Sys2Proof.Machine

/-- The channel control word's fields (10_state.md R20; 30_encoding.md R64). The block never uses `dir` and `tte`. -/
structure Chcr where
  dir : Bool
  mod : BitVec 2
  asp : BitVec 2
  tte : Bool
  tie : Bool
  str : Bool
  tag : BitVec 16
deriving DecidableEq, Repr

/-- The GIF channel's registers (10_state.md R20). -/
structure Channel where
  madr : Addr
  tadr : Addr
  qwc  : BitVec 16
  asr0 : Addr
  asr1 : Addr
  chcr : Chcr
deriving DecidableEq, Repr

/-- The DMA controller's shared registers (10_state.md R31; 30_encoding.md R65). The block never reads `sts`. -/
structure Dmac where
  mfd   : BitVec 2
  sts   : BitVec 2
  std   : BitVec 2
  stadr : Addr
  rbor  : Addr
  rbsr  : Addr
deriving DecidableEq, Repr

/-- What the block reads of the VIF channel and of its scheduling (10_state.md R33). -/
structure Vif where
  vgw     : Bool
  pending : Bool
deriving DecidableEq, Repr

/-- The two scheduler channels (45_handler.md R121). -/
inductive SchedChan where
  | gif | mfifo
deriving DecidableEq, Repr

/-- A pending handler entry: the delay and the channel of the request that made it (60_exceptions.md R138). -/
structure PendingEntry where
  delay : Nat
  chan  : SchedChan
deriving DecidableEq, Repr

/-- The scheduler's slots (60_exceptions.md R138): at most one pending entry of the block, and the VIF's own slot. -/
structure Scheduler where
  entry : Option PendingEntry
  vif   : Option Nat
deriving DecidableEq, Repr

/-- The block's interrupt lines (60_exceptions.md R133). -/
inductive IntLine where
  | complete | stall | mfifoEmpty
deriving DecidableEq, Repr

/-- The `kind` of a consumer call: every feed of this block is the path-3 DMA (40_packet_fifo.md R77). -/
inductive FeedKind where
  | dma
deriving DecidableEq, Repr

/-- The block's outputs (10_state.md R36). -/
inductive Output where
  /-- An interrupt line raised (60_exceptions.md R133). -/
  | line (l : IntLine)
  /-- A request for one handler entry (45_handler.md R119). -/
  | reschedule (delay : Nat) (chan : SchedChan)
  /-- A request for a VIF entry (44_path_coordinator.md R115). -/
  | vifNudge (delay : Nat)
  /-- A call of `transferPacketData` (60_exceptions.md R136). -/
  | transfer (kind : FeedKind) (buffer : List Byte) (byteLength : Nat)
  /-- A call of `execute` (60_exceptions.md R137). -/
  | execute (flushOnly fromPathCheck : Bool)
deriving DecidableEq, Repr

/-- Why a DMA ended by a recovery (45_handler.md R119). -/
inductive AbortReason where
  | unmappedTag
deriving DecidableEq, Repr

/-- The outcome of a handler entry (45_handler.md R119). -/
inductive EntryOutcome where
  | reschedule (delay : Nat) (chan : SchedChan)
  | complete
  | idle
  | abort (reason : AbortReason)
deriving DecidableEq, Repr

/-- What a tag fetch returns (41_chain_tags.md R79). -/
inductive FetchResult where
  | ok | stalled | fail
deriving DecidableEq, Repr

/-- The value an operation returns (the model's own field, log 19): nothing, a count (R72, R74), an outcome (R119), a
fetch result (R79) or a snapshot (R141). -/
inductive Returned where
  | unit
  | count (n : Nat)
  | outcome (o : EntryOutcome)
  | fetch (r : FetchResult)
  | saved (b : SavedBlock)
deriving DecidableEq, Repr

/-- Main memory: address and byte pairs in one canonical form (see `Memory.wf` in Machine/Ops.lean). -/
abbrev Memory := List Host.Cell

/-- The registers the controller writes between entries (10_state.md R21, R31; 60_exceptions.md R139). -/
inductive Reg where
  | chcr | madr | qwc | tadr | asr0 | asr1 | ctrl | stadr | rbor | rbsr
deriving DecidableEq, Repr

/-- A move of another agent between the block's steps (00_scope.md R18; 60_exceptions.md R142). -/
inductive Event where
  /-- An agent invokes an interface operation. -/
  | call (i : Instr)
  /-- The delay of the pending entry has elapsed: the scheduler delivers it (60_exceptions.md R138). -/
  | deliver
  /-- One tag fetch at `ch.TADR` as a step of its own (41_chain_tags.md R79; log 9). -/
  | walk
  /-- The host asks the scheduler for a handler entry (44_path_coordinator.md R117). -/
  | hostEntry (delay : Nat)
  /-- The controller, or the stall source, writes a register (60_exceptions.md R139). -/
  | writeReg (r : Reg) (v : Word)
  /-- Another agent stores bytes in main memory (20_memory.md R53, R56). -/
  | writeMem (a : Addr) (bytes : List Byte)
  /-- The receiving unit changes its own state or its query answers (60_exceptions.md R137, R142). -/
  | receiver (g : Receiver)
  /-- The VIF changes VGW, or the scheduler's report of a VIF entry changes (60_exceptions.md R142). -/
  | vif (v : Vif)
  /-- The configuration changes FIFO_EMU (60_exceptions.md R140). -/
  | fifoEmu (on : Bool)
deriving DecidableEq, Repr

/-- What is known of the write cursor's lead over the drain (the model's own, log 33). -/
inductive Lead where
  /-- Nothing it is measured by has been written, and nothing has measured it: the state at session start. -/
  | fresh
  /-- A launch, or a move of the writer in a running channel, has measured it, and nothing it is measured by has been
  written since. -/
  | kept
  /-- The controller has written a register that it is measured by, and nothing has measured it since. -/
  | loose
deriving DecidableEq, Repr

/-- The whole machine. `stalled`, `lead`, `script`, `calls`, `agenda` and `ret` are the model's own fields. `stalled` says that the
channel's last tag fetch stalled, a fetch that fails (R95) being one that does not (41_chain_tags.md R92, R94; log 32):
60_exceptions.md R142 speaks of what the stall source may do "while the GIF channel is stalled". `lead` says whether the
writer's duty of R142 binds its next move, or 70_reset_and_hazards.md R149 step 3 lets it set its cursor (log 33). The others hold the
receiving unit's coming answers and the number of external calls made (log 7), the other agents' coming moves (log 10),
and the value the last operation returned (log 19). -/
structure State where
  ch       : Channel
  eng      : Engine
  stalled  : Bool
  lead     : Lead
  fifo     : PacketFifo
  dmac     : Dmac
  wcur     : Addr
  gif      : Receiver
  vif      : Vif
  fifoEmu  : Bool
  diag     : DiagSet
  out      : List Output
  sched    : Scheduler
  mem      : Memory
  cfg      : Config
  diverged : Bool
  ret      : Returned
  script   : List Answer
  calls    : Nat
  agenda   : List Event
deriving DecidableEq, Repr

/-- The block has no faults: "A model needs no fault state for the block" (60_exceptions.md R130), and the spec's
treatment `fault` is "Not used" (93_implementation_defined.md). No step answers a fault. -/
inductive Fault
deriving DecidableEq, Repr

/-- The launch premises `DmaStart` checks: premises 1 to 4 of 70_reset_and_hazards.md R150, and that the parameters which
the rules write as numbers have those values (00_scope.md R8; log 31). -/
inductive LaunchPremise where
  | alignment | stallIds | chunk | stackDepth | constants
deriving DecidableEq, Repr

/-- The moves the host does not have (60_exceptions.md R142; 93_implementation_defined.md U20). -/
inductive HostMove where
  /-- `FifoInit` while the channel runs. -/
  | fifoInitWhileRunning
  /-- `DmaStart` before the controller has set STR. -/
  | dmaStartNotRunning
  /-- The ring writer overruns the drain: its cursor would be, or at `DmaStart` is, more than `(RBSR + 16)/16 - 1`
  quadwords ahead of it. -/
  | writerOverrun
  /-- The stall source lowers STADR while the channel is stalled. -/
  | stadrLowered
  /-- A tag invoked as if it were an interface operation. -/
  | tagAsOperation
  /-- An operation whose operands are not well formed. -/
  | illFormedOperands
deriving DecidableEq, Repr

/-- Why a step has no meaning. Every constructor is safe: the model stops, and nothing is claimed of what the hardware
does then. -/
inductive Refusal where
  /-- Raised by an arm of `exec` whose instruction has no meaning yet. Safe. -/
  | notModelled (mnemonic : String)
  /-- Raised by `DmaStart` when a launch premise is broken (70_reset_and_hazards.md R150; log 31). Safe. -/
  | launchPremise (p : LaunchPremise)
  /-- Raised by a tag whose address field is not a multiple of 16 (20_memory.md R46; R150). Safe. -/
  | misalignedTag (addr : Addr)
  /-- Raised by a tag read or a data run whose first address is mapped and a later byte is not, or which runs past
  2^32 - 1; `left` is the state with UnmappedRunTail added to `diag` (20_memory.md R48). Safe. -/
  | unmappedRunTail (left : State)
  /-- Raised by a handler entry whose chain loop does not end, and by every step after it; `left` is the state with
  the sticky mark Diverged set (70_reset_and_hazards.md R151). Safe. -/
  | diverged (left : State)
  /-- Raised by a tag fetch when the TAG_ID_MAP leaves the tag's ID to no type; not with a well-formed map
  (30_encoding.md R62; log 21). Safe. -/
  | unassignedTagId (id : BitVec 3)
  /-- Raised by a FIFO write whose buffer is shorter than its count (40_packet_fifo.md R72; log 18). Safe. -/
  | shortBuffer
  /-- Raised by the step for a move the host does not have (60_exceptions.md R142; log 16). Safe. -/
  | noSuchHostMove (m : HostMove)
deriving DecidableEq, Repr

/-- No diagnostic kind. -/
def noDiag : DiagSet :=
  { unmappedTag := false, unmappedData := false, unmappedRunTail := false, consumerOverrun := false,
    stallInNormalMode := false, callStackOverflow := false, callAddrZero := false }

/-- The Packet FIFO at session start (10_state.md R38). -/
def zeroFifo : PacketFifo :=
  { data := Vector.replicate 64 0, stage := Vector.replicate 64 0, rd := 0, wr := 0, occ := 0, status := .empty }

/-- The engine at session start (10_state.md R38, R39). -/
def zeroEngine : Engine := { done := false, state := .ready, cyc := 0, prev := 0, mcyc := 0 }

/-- The machine at session start (70_reset_and_hazards.md R148). The registers and inputs R40 leaves to the launch hold
the values of logs 3, 4 and 5, the parameters their defaults (log 6). -/
def State.reset : State :=
  { ch := { madr := 0, tadr := 0, qwc := 0, asr0 := 0, asr1 := 0,
            chcr := { dir := false, mod := 0, asp := 0, tte := false, tie := false, str := false, tag := 0 } }
    eng := zeroEngine
    stalled := false
    lead := .fresh
    fifo := zeroFifo
    dmac := { mfd := 0, sts := 0, std := 0, stadr := 0, rbor := 0, rbsr := 0 }
    wcur := 0
    gif := { p3 := .idle, apath := 0, oph := false, canAccept := true, masked := false }
    vif := { vgw := false, pending := false }
    fifoEmu := false
    diag := noDiag
    out := []
    sched := { entry := none, vif := none }
    mem := []
    cfg := Config.defaults
    diverged := false
    ret := .unit
    script := []
    calls := 0
    agenda := [] }

end Sys2Proof.Machine
end

