-- ==== Sys2Proof/Machine/Ops.lean ====
section
/-! DEFINITION. The named operations over memory and state: memory in canonical form, the cycle accumulators, the
diagnostic set, the outputs (raising a line, the requests), and the calls of the receiving unit. The block has no
exceptions to take (60_exceptions.md R130); what it raises is a line, by the one operation `State.raise`. -/

namespace Sys2Proof.Machine

/-- What a byte of memory that nothing has written reads as. DESIGN CHOICE, unsafe (log 1): the spec makes memory's
contents a parameter (10_state.md R37). -/
def unlistedByte : Byte := 0

/-- Memory's canonical form: addresses below 2^32 and strictly rising, no entry equal to what an unlisted address
reads as. -/
def Memory.wf : Memory → Bool
  | [] => true
  | (a, b) :: m => decide (a < 4294967296) && b != unlistedByte && m.all (fun c => decide (a < c.1)) && Memory.wf m

/-- The byte at an address. -/
def Memory.read : Memory → Nat → Byte
  | [], _ => unlistedByte
  | (a', b) :: m, a => if a = a' then b else Memory.read m a

/-- Storing a byte, keeping the canonical form. Only other agents store (20_memory.md R43, R53). -/
def Memory.write : Memory → Nat → Byte → Memory
  | [], a, b => if b = unlistedByte then [] else [(a, b)]
  | (a', b') :: m, a, b =>
    if a < a' then (if b = unlistedByte then (a', b') :: m else (a, b) :: (a', b') :: m)
    else if a = a' then (if b = unlistedByte then m else (a, b) :: m)
    else (a', b') :: Memory.write m a b

/-- Storing bytes at consecutive 32-bit addresses, first byte first; addresses wrap at 2^32. -/
def Memory.writeBytes : Memory → Nat → List Byte → Memory
  | m, _, [] => m
  | m, a, b :: bs => Memory.writeBytes (Memory.write m (a % 4294967296) b) (a + 1) bs

/-- Membership of a kind in the diagnostic set. -/
def diagHas (d : DiagSet) : DiagKind → Bool
  | .unmappedTag => d.unmappedTag
  | .unmappedData => d.unmappedData
  | .unmappedRunTail => d.unmappedRunTail
  | .consumerOverrun => d.consumerOverrun
  | .stallInNormalMode => d.stallInNormalMode
  | .callStackOverflow => d.callStackOverflow
  | .callAddrZero => d.callAddrZero

/-- The diagnostic set with a kind added; none is ever removed (10_state.md R35). -/
def diagAdd (d : DiagSet) : DiagKind → DiagSet
  | .unmappedTag => { d with unmappedTag := true }
  | .unmappedData => { d with unmappedData := true }
  | .unmappedRunTail => { d with unmappedRunTail := true }
  | .consumerOverrun => { d with consumerOverrun := true }
  | .stallInNormalMode => { d with stallInNormalMode := true }
  | .callStackOverflow => { d with callStackOverflow := true }
  | .callAddrZero => { d with callAddrZero := true }

/-- The channel registers replaced. -/
def State.setCh (s : State) (c : Channel) : State := { s with ch := c }

/-- The engine state replaced. -/
def State.setEng (s : State) (e : Engine) : State := { s with eng := e }

/-- The Packet FIFO replaced. -/
def State.setFifo (s : State) (f : PacketFifo) : State := { s with fifo := f }

/-- The mark of a stalled channel replaced (41_chain_tags.md R92, R94). -/
def State.setStalled (s : State) (b : Bool) : State := { s with stalled := b }

/-- What is known of the write cursor's lead replaced (log 33). -/
def State.setLead (s : State) (l : Lead) : State := { s with lead := l }

/-- The receiving unit replaced. -/
def State.setGif (s : State) (g : Receiver) : State := { s with gif := g }

/-- `diag <Kind>` (00_scope.md R12; 60_exceptions.md R132). -/
def State.addDiag (s : State) (k : DiagKind) : State := { s with diag := diagAdd s.diag k }

/-- The cycle accumulator an operation charges: `eng.cyc` in the direct variant, `eng.mcyc` in the MFIFO variant
(41_chain_tags.md R79). -/
inductive Acc where
  | cyc | mcyc
deriving DecidableEq, Repr

/-- The value of an accumulator. -/
def State.acc (s : State) : Acc → Nat
  | .cyc => s.eng.cyc
  | .mcyc => s.eng.mcyc

/-- Charging cycles to an accumulator (42_transfer.md R97). -/
def State.charge (s : State) (a : Acc) (n : Nat) : State :=
  match a with
  | .cyc => s.setEng { s.eng with cyc := s.eng.cyc + n }
  | .mcyc => s.setEng { s.eng with mcyc := s.eng.mcyc + n }

/-- Appending an output to the history, in program order (10_state.md R36). -/
def State.emit (s : State) (o : Output) : State := { s with out := s.out ++ [o] }

/-- `raise <Line>` (60_exceptions.md R133): the event is recorded; the block latches, masks and clears nothing. -/
def State.raise (s : State) (l : IntLine) : State := s.emit (.line l)

/-- `request Reschedule(d, c)`: recorded, and the scheduler's one slot of the block now holds it, whatever it held
(60_exceptions.md R138; 70_reset_and_hazards.md R156). -/
def State.request (s : State) (d : Nat) (c : SchedChan) : State :=
  { s.emit (.reschedule d c) with sched.entry := some { delay := d, chan := c } }

/-- `request VifNudge(d)`: recorded, and put in the VIF's own slot (60_exceptions.md R138). The input `vif.pending` is
the scheduler's report and is not written here (10_state.md R33; log 14). -/
def State.nudge (s : State) (d : Nat) : State :=
  { s.emit (.vifNudge d) with sched.vif := some d }

/-- The scheduler takes the pending entry out of its slot as it delivers it (60_exceptions.md R138). -/
def State.takeEntry (s : State) : State := { s with sched.entry := none }

/-- The state with the value an operation returns. -/
def State.returning (s : State) (r : Returned) : State := { s with ret := r }

/-- The receiving unit's next answer: the next scripted one, else the free value (60_exceptions.md R136, R137; log 7). -/
def State.nextAnswer (s : State) : Answer :=
  match s.script with
  | a :: _ => a
  | [] => Config.freeAnswer s.calls

/-- One external call: its output is recorded and the receiving unit's state becomes what its answer says
(60_exceptions.md R136, R137). -/
def State.callReceiver (s : State) (o : Output) : State :=
  { s.emit o with gif := s.nextAnswer.after, script := s.script.tail, calls := s.calls + 1 }

/-- `call execute(flushOnly, fromPathCheck)` (60_exceptions.md R137). -/
def State.callExecute (s : State) (flushOnly fromPathCheck : Bool) : State :=
  s.callReceiver (.execute flushOnly fromPathCheck)

/-- `call transferPacketData(DMA, buffer, byteLength)`: the state after it and the bytes the consumer reports
(60_exceptions.md R136; 40_packet_fifo.md R77). -/
def State.callConsumer (s : State) (buffer : List Byte) (byteLength : Nat) : State × Nat :=
  (s.callReceiver (.transfer .dma buffer byteLength), s.nextAnswer.consumed)

end Sys2Proof.Machine
end

