-- ==== Sys2Proof/Machine/Flags.lean ====
section
/-! DEFINITION. The predicates and small computations on the block's registers: the routing and stall selectors, the
mode, the scheduler channel, the stall condition, the launch premises, and the conversion of the consumer's count. -/

namespace Sys2Proof.Machine

/-- `Routed`: the block is fed through the ring (10_state.md R31; 30_encoding.md R65). -/
def State.routed (s : State) : Bool := s.dmac.mfd == Config.mfdGif

/-- `StallOn`: the GIF channel is the stall-controlled one (30_encoding.md R65; C9). -/
def State.stallOn (s : State) : Bool := s.dmac.std == Config.stdGif

/-- Chain mode is MOD = 1; every other value is normal mode (30_encoding.md R64). -/
def State.chainMode (s : State) : Bool := s.ch.chcr.mod == 1

/-- `ChanOf(Routed)` at the moment a request is made (45_handler.md R121). -/
def State.chan (s : State) : SchedChan := if s.routed then .mfifo else .gif

/-- The accumulator of the variant that the next entry would take (41_chain_tags.md R79; 45_handler.md R122). -/
def State.variantAcc (s : State) : Acc := if s.routed then .mcyc else .cyc

/-- A tag is to be fetched: chain mode, no quadwords remaining, not done (41_chain_tags.md R79; 45_handler.md R124). -/
def State.tagDue (s : State) : Bool := s.chainMode && s.ch.qwc == 0 && !s.eng.done

/-- A quadword count as a byte length at 32 bits, `zext_32(n) << 4` (30_encoding.md R59). -/
def byteLen (n : Nat) : Word := BitVec.ofNat 32 n <<< 4

/-- The byte length `L` of the segment (41_chain_tags.md section 2). -/
def State.segLen (s : State) : Word := byteLen s.ch.qwc.toNat

/-- The stall condition (41_chain_tags.md R92): strictly past the stall address, unsigned. -/
def State.stallDue (s : State) (t : TagType) : Bool :=
  s.stallOn && s.chainMode && s.cfg.stallIds.contains t && decide (s.dmac.stadr < s.ch.madr + s.segLen)

/-- The types whose data follow the tag, which the ring clamp moves (43_mfifo.md R109). -/
def clampsMadr : TagType → Bool
  | .cnt => true
  | .next => true
  | .call => true
  | .ret => true
  | .endTag => true
  | .refe => false
  | .ref => false
  | .refs => false

/-- The types STALL_IDS may hold (41_chain_tags.md R93). -/
def stallable : TagType → Bool
  | .ref => true
  | .refs => true
  | .refe => true
  | .cnt => false
  | .next => false
  | .call => false
  | .ret => false
  | .endTag => false

/-- `CHUNK(q)` (42_transfer.md R99): the configured value where it lies in [1, q], else the default `q`. -/
def chunk (cfg : Config) (q : Nat) : Nat :=
  match cfg.chunks.lookup q with
  | some c => if 1 ≤ c ∧ c ≤ q then c else q
  | none => q

/-- The quadwords a consumer's byte count stands for, of `n` offered (40_packet_fifo.md R76). -/
def consumedQuads (bytes n : Nat) : Nat := min (bytes / 16) n

/-- `Consumed(B, N)` with its diagnostic (40_packet_fifo.md R76). -/
def State.consumed (s : State) (bytes n : Nat) : State × Nat :=
  (if 16 * n < bytes then s.addDiag .consumerOverrun else s, consumedQuads bytes n)

/-- The verdict `DmaStart` gives the segment already loaded (45_handler.md R127). -/
def State.resumesTerminal (s : State) : Bool :=
  let t := s.cfg.tagIds.typeOf (s.ch.chcr.tag.extractLsb' 12 3)
  t == some .endTag || t == some .refe || (s.ch.chcr.tag.getLsbD 15 && s.ch.chcr.tie)

/-- The `eng.done` that `DmaStart` leaves (45_handler.md R127). -/
def State.launchDone (s : State) : Bool := !s.chainMode || (s.ch.qwc != 0 && s.resumesTerminal)

/-- The engine that `DmaStart` leaves (45_handler.md R127). -/
def State.launchEngine (s : State) : Engine :=
  { done := s.launchDone, state := .ready, cyc := 0, prev := 0, mcyc := 0 }

/-- Premise 1 of a launch: seven addresses are multiples of 16 (70_reset_and_hazards.md R150). -/
def State.launchAligned (s : State) : Bool :=
  aligned s.ch.madr && aligned s.ch.tadr && aligned s.ch.asr0 && aligned s.ch.asr1 && aligned s.dmac.stadr
    && aligned s.dmac.rbor && aligned s.wcur

/-- The first broken launch premise, of premises 1 to 4 (70_reset_and_hazards.md R150) and the values the rules write as
numbers (00_scope.md R8; log 31). -/
def State.brokenPremise (s : State) : Option LaunchPremise :=
  if !s.launchAligned then some .alignment
  else if !s.cfg.stallIds.all stallable then some .stallIds
  else if !s.cfg.chunks.all (fun c => decide (1 ≤ c.2 ∧ c.2 ≤ c.1)) then some .chunk
  else if s.cfg.stackDepth != 2 then some .stackDepth
  else if !s.cfg.asWritten then some .constants
  else none

end Sys2Proof.Machine
end

