-- ==== Sys2Proof/Machine/Operands.lean ====
section
/-! DEFINITION. The two operand forms the block reads from main memory (20_memory.md R41, R47): the quadword of a tag
and the run of a data transfer, with the translation predicate `Mapped`. -/

namespace Sys2Proof.Machine

/-- `Mapped(a)` on byte address `a` (20_memory.md R42). -/
def mappedAt (cfg : Config) (a : Nat) : Bool :=
  cfg.mapped.any (fun r => decide (r.base ≤ a ∧ a < r.base + r.size))

/-- `Mapped(a)` of the machine's configuration. -/
def State.mapped (s : State) (a : Addr) : Bool := mappedAt s.cfg a.toNat

/-- Every byte of a run of `n` quadwords resolves to memory and none lies past 2^32 - 1 (20_memory.md R48). -/
def State.runMapped (s : State) (a : Addr) (n : Nat) : Bool :=
  decide (a.toNat + 16 * n ≤ 4294967296) && (List.range (16 * n)).all (fun i => mappedAt s.cfg (a.toNat + i))

/-- The bytes of a run in address order (20_memory.md R44, R48). -/
def State.runBytes (s : State) (a : Addr) (n : Nat) : List Byte :=
  (List.range (16 * n)).map (fun i => s.mem.read (a.toNat + i))

/-- `Run(a, n)`, reached with `Mapped(a)`: its bytes, or the refusal of a run with an unmapped tail, with
UnmappedRunTail added to `diag` (20_memory.md R48). -/
def State.run (s : State) (a : Addr) (n : Nat) : Except Refusal (List Byte) :=
  if s.runMapped a n then .ok (s.runBytes a n) else .error (.unmappedRunTail (s.addDiag .unmappedRunTail))

/-- The quadwords of a run's bytes (20_memory.md R45). -/
def quadsOfBytes : Nat → List Byte → List Quad
  | 0, _ => []
  | n + 1, bs => quadOfBytes (bs.take 16) :: quadsOfBytes n (bs.drop 16)

end Sys2Proof.Machine
end

