-- ==== Sys2Proof/Machine/Ring.lean ====
section
/-! DEFINITION. The MFIFO ring's window, renormalization, availability and tag clamp (43_mfifo.md R102 to R104, R109),
and the meaning of WriterAdvance (R110). -/

namespace Sys2Proof.Machine

/-- The ring's limit, `RBOR + RBSR + 16` modulo 2^32 (43_mfifo.md). -/
def State.ringLimit (s : State) : Addr := s.dmac.rbor + s.dmac.rbsr + 16

/-- `InWindow(a)` (43_mfifo.md R102). -/
def State.inWindow (s : State) (a : Addr) : Bool :=
  decide (s.dmac.rbor ≤ a) && decide (a ≤ s.dmac.rbor + s.dmac.rbsr)

/-- `Renorm(a)` (43_mfifo.md R103). -/
def State.renorm (s : State) (a : Addr) : Addr := s.dmac.rbor + (a &&& s.dmac.rbsr)

/-- The quadwords from `d` on to `w` around the ring, by the formula of `Available` (43_mfifo.md R104). -/
def State.ringQuads (s : State) (d w : Addr) : Nat :=
  if d ≤ w then ((w - d) >>> 4).toNat else (((w - s.dmac.rbor) + (s.ringLimit - d)) >>> 4).toNat

/-- The quadwords between drain address `d` and the write cursor (43_mfifo.md R104). -/
def State.availableQuads (s : State) (d : Addr) : Nat := s.ringQuads d s.wcur

/-- `Available(D)`: the count, and the coarse engine state it sets (43_mfifo.md R104; 10_state.md R27). -/
def available (d : Addr) (s : State) : State × Nat :=
  (s.setEng { s.eng with state := if s.availableQuads d = 0 then .empty else .ready }, s.availableQuads d)

/-- `MfifoClamp(ID)` (43_mfifo.md R109). -/
def mfifoClamp (t : TagType) (s : State) : State :=
  s.setCh { s.ch with madr := if clampsMadr t then s.renorm s.ch.madr else s.ch.madr, tadr := s.renorm s.ch.tadr }

/-- A well-formed ring (10_state.md R32): no low bits in the mask, a power-of-two window, and a base clear of it. It is
no premise: the formulas apply to any configuration. -/
def State.ringWellFormed (s : State) : Bool :=
  aligned s.dmac.rbsr && (List.range 33).any (fun k => s.dmac.rbsr.toNat + 16 == 2 ^ k)
    && s.dmac.rbor &&& (s.dmac.rbsr ||| 0xF) == 0

/-- The address in the ring that a routed block drains next: MADR where data of the ring remain to be moved; else, while a
tag is still to be fetched, TADR where it lies in the ring, else MADR where it does. A DMA that is done and has no
quadword left drains nothing (43_mfifo.md, its first lines, R104, R106, R108). Which address counts, and that the
`eng.done` asked is the state's own, is the model's reading (DEDUCED, log 33). -/
def State.drain (s : State) : Option Addr :=
  if !s.routed then none
  else if s.ch.qwc != 0 && s.inWindow s.ch.madr then some s.ch.madr
  else if !(s.chainMode && !s.eng.done) then none
  else if s.inWindow s.ch.tadr then some s.ch.tadr
  else if s.inWindow s.ch.madr then some s.ch.madr
  else none

/-- The quadwords the writer may keep ahead of the drain, `(RBSR + 16)/16 - 1` (43_mfifo.md R104; 60_exceptions.md R142). -/
def State.ringRoom (s : State) : Nat := (s.dmac.rbsr.toNat + 16) / 16 - 1

/-- The write cursor stands more quadwords ahead of the drain than the writer may keep, by the formula of R104, which holds
of any ring and any cursor (60_exceptions.md R142; 10_state.md R32). -/
def State.ringOverfull (s : State) : Bool :=
  match s.drain with
  | some d => decide (s.ringRoom < s.availableQuads d)
  | none => false

/-- The cursor the writer moves to is measured: the channel runs, or its lead has been kept (log 33). Before a launch the
writer sets its cursor freely (70_reset_and_hazards.md R149 step 3), and the launch measures it (R150). -/
def State.measuresCursor (s : State) : Bool := s.ch.chcr.str || s.lead == .kept

/-- The way the writer takes from its old cursor is measured: the lead has been kept, or the channel runs and nothing it is
measured by has been written since session start (log 33). -/
def State.measuresWay (s : State) : Bool := s.lead == .kept || (s.lead == .fresh && s.ch.chcr.str)

/-- Moving the cursor to `w` overruns the drain: `w` lies too far ahead of it, or the way there from a cursor that does not
leads past it (60_exceptions.md R142; 43_mfifo.md R104; 93_implementation_defined.md U20; log 33). -/
def State.writerOverruns (s : State) (w : Addr) : Bool :=
  match s.drain with
  | some d =>
    (s.measuresCursor && decide (s.ringRoom < s.ringQuads d w)) ||
      (s.measuresWay && decide (s.availableQuads d ≤ s.ringRoom) &&
        decide (s.ringRoom < s.availableQuads d + s.ringQuads s.wcur w))
  | none => false

/-- The writer moves its cursor (43_mfifo.md R110). In a running channel that measures its lead (log 33). -/
def State.setWcur (s : State) (w : Addr) : State :=
  { s with wcur := w, lead := if s.ch.chcr.str then .kept else s.lead }

/-- WriterAdvance (43_mfifo.md R110): the cursor moves, and a running channel that found the ring empty is woken. -/
def execWriterAdvance (w : Addr) (s : State) : Host.Outcome State Fault Refusal :=
  if s.routed && s.ch.chcr.str && s.eng.state == .empty then
    .next (((s.setWcur w).request s.cfg.minDelay .mfifo).returning .unit)
  else .next ((s.setWcur w).returning .unit)

end Sys2Proof.Machine
end

