-- ==== Sys2Proof/Machine/Fifo.lean ====
section
/-! DEFINITION. The Packet FIFO's operations (40_packet_fifo.md R70 to R77) and the meanings of FifoInit, FifoWrite and
FifoRead. -/

namespace Sys2Proof.Machine

/-- One word into the storage at the write index, which wraps past word 63 (40_packet_fifo.md R72). -/
def pushWord (f : PacketFifo) (w : Word) : PacketFifo :=
  { f with data := f.data.set f.wr.toNat w f.wr.isLt, wr := f.wr + 1 }

/-- One quadword into the storage, low word first (10_state.md R28; 40_packet_fifo.md R72). -/
def pushQuad (f : PacketFifo) (q : Quad) : PacketFifo :=
  pushWord (pushWord (pushWord (pushWord f (quadWord q 0)) (quadWord q 1)) (quadWord q 2)) (quadWord q 3)

/-- `FifoWrite(buf, count)` on the FIFO alone: what it becomes and how many quadwords it accepts
(40_packet_fifo.md R72). -/
def fifoWrite (f : PacketFifo) (buf : List Quad) (count : Nat) : PacketFifo × Nat :=
  let n := min count (Config.capacity - f.occ)
  let g := (buf.take n).foldl pushQuad f
  ({ g with occ := g.occ + n, status := statusOf (g.occ + n) }, n)

/-- One word from the storage at the read index into staging word `i` (40_packet_fifo.md R74). -/
def stageWord (i : Nat) (f : PacketFifo) : PacketFifo :=
  { f with stage := f.stage.setIfInBounds i (f.data.get ⟨f.rd.toNat, f.rd.isLt⟩), rd := f.rd + 1 }

/-- `n` quadwords from the storage into staging entries `j`, `j+1`, ... (40_packet_fifo.md R74). -/
def stageQuads : Nat → Nat → PacketFifo → PacketFifo
  | 0, _, f => f
  | n + 1, j, f =>
    stageQuads n (j + 1)
      (stageWord (4 * j + 3) (stageWord (4 * j + 2) (stageWord (4 * j + 1) (stageWord (4 * j) f))))

/-- The bytes of staging words `0 .. 4n-1`, low word first and little-endian in each (60_exceptions.md R136). -/
def stagedBytes (f : PacketFifo) (n : Nat) : List Byte := (f.stage.toList.take (4 * n)).flatMap bytesOfWord

/-- Recomputing the status mirror, every FIFO operation's last action (40_packet_fifo.md R70). -/
def mirrorStatus (f : PacketFifo) : PacketFifo := { f with status := statusOf f.occ }

/-- Pushback of what the consumer left: of `n` offered from read index `old` it took `k` (40_packet_fifo.md R74). -/
def pushBack (f : PacketFifo) (old : BitVec 6) (n k : Nat) : PacketFifo :=
  if k < n then { f with rd := old + BitVec.ofNat 6 (4 * k), occ := n - k } else f

/-- `FifoRead` when entries are held and the receiving unit accepts path 3: everything held is staged and offered, and
the shortfall pushed back (40_packet_fifo.md R74, R76, R77). -/
def fifoOffer (s : State) : State :=
  let n := s.fifo.occ
  let f := { stageQuads n 0 s.fifo with occ := 0 }
  let c := (s.setFifo f).callConsumer (stagedBytes f n) (16 * n)
  let k := c.1.consumed c.2 n
  k.1.setFifo (mirrorStatus (pushBack k.1.fifo s.fifo.rd n k.2))

/-- `FifoRead(fromScheduledEvent)`: the state after it and the count it returns (40_packet_fifo.md R74, R75). -/
def fifoRead (fromScheduledEvent : Bool) (s : State) : State × Nat :=
  if s.fifo.occ = 0 || !s.gif.canAccept then
    let s' := if !fromScheduledEvent && decide (0 < s.fifo.occ) then s.request s.cfg.minDelay s.chan else s
    (s'.setFifo (mirrorStatus s'.fifo), 0)
  else (fifoOffer s, (fifoOffer s).fifo.occ)

/-- FifoInit (40_packet_fifo.md R71). -/
def execFifoInit (s : State) : Host.Outcome State Fault Refusal :=
  .next (((s.setFifo zeroFifo).setEng { s.eng with state := .ready, done := false }).returning .unit)

/-- FifoWrite (40_packet_fifo.md R72). A buffer shorter than its count is no operand of it (log 18). -/
def execFifoWrite (buf : List Quad) (count : BitVec 16) (s : State) : Host.Outcome State Fault Refusal :=
  if buf.length < count.toNat then .refused .shortBuffer
  else
    let r := fifoWrite s.fifo buf count.toNat
    .next ((s.setFifo r.1).returning (.count r.2))

/-- FifoRead (40_packet_fifo.md R74). -/
def execFifoRead (fromScheduledEvent : Bool) (s : State) : Host.Outcome State Fault Refusal :=
  let r := fifoRead fromScheduledEvent s
  .next (r.1.returning (.count r.2))

end Sys2Proof.Machine
end

