-- ==== Sys2Proof/Machine/Transfer.lean ====
section
/-! DEFINITION. Segment data transfer (42_transfer.md): the sink R96, the direct segment transfer R98 and the
unmapped-source recovery R100. -/

namespace Sys2Proof.Machine

/-- The sink's Packet FIFO path (42_transfer.md R96; 40_packet_fifo.md R73): what fits is read and written; a full FIFO
reads nothing. -/
def sinkFifo (src : Addr) (n : Nat) (a : Acc) (s : State) : Except Refusal (State × Nat) :=
  let m := min n (Config.capacity - s.fifo.occ)
  if m = 0 then .ok (s, 0)
  else match s.run src m with
    | .error r => .error r
    | .ok bytes =>
      let w := fifoWrite s.fifo (quadsOfBytes m bytes) m
      .ok ((s.setFifo w.1).charge a (s.cfg.cycPerQw * w.2), w.2)

/-- The sink's direct path (42_transfer.md R96): the whole run is offered to the consumer. -/
def sinkDirect (src : Addr) (n : Nat) (a : Acc) (s : State) : Except Refusal (State × Nat) :=
  match s.run src n with
  | .error r => .error r
  | .ok bytes =>
    let c := s.callConsumer bytes (16 * n)
    let k := c.1.consumed c.2 n
    .ok (k.1.charge a (s.cfg.cycPerQw * k.2), k.2)

/-- `Sink(src, n, acc)` (42_transfer.md R96): the quadwords taken, of `n` offered from `src`. -/
def sink (src : Addr) (n : Nat) (a : Acc) (s : State) : Except Refusal (State × Nat) :=
  if n = 0 then .ok (s, 0) else if s.fifoEmu then sinkFifo src n a s else sinkDirect src n a s

/-- `SegUnmapped()` (42_transfer.md R100). -/
def segUnmapped (s : State) : State :=
  (s.setCh { s.ch with madr := s.ch.madr + s.segLen, qwc := 0 }).addDiag .unmappedData

/-- Stall control asked for in normal mode is recorded and not followed (42_transfer.md R101). -/
def noteStallMode (s : State) : State := if s.stallOn && !s.chainMode then s.addDiag .stallInNormalMode else s

/-- The direct segment transfer, its stall mode noted (42_transfer.md R98). -/
def moveSegment (a : Acc) (s : State) : Except Refusal State :=
  if !s.mapped s.ch.madr then .ok (segUnmapped s)
  else match sink s.ch.madr (chunk s.cfg s.ch.qwc.toNat) a s with
    | .error r => .error r
    | .ok (s', t) =>
      .ok (s'.setCh { s'.ch with madr := s'.ch.madr + byteLen t, qwc := s'.ch.qwc - BitVec.ofNat 16 t })

/-- `SegmentTransfer(acc)` (42_transfer.md R98, R101). -/
def segmentTransfer (a : Acc) (s : State) : Except Refusal State := moveSegment a (noteStallMode s)

end Sys2Proof.Machine
end

