-- ==== Sys2Proof/Machine/Mfifo.lean ====
section
/-! DEFINITION. The MFIFO ring transfer (43_mfifo.md R106). -/

namespace Sys2Proof.Machine

/-- What a ring transfer answers (43_mfifo.md R106). -/
inductive RingResult where
  | moved | empty
deriving DecidableEq, Repr

/-- One leg of a ring transfer: the sink takes up to `n` quadwords from `src`, and the channel advances by what it took,
renormalized into the window (43_mfifo.md R106). -/
def ringLeg (src : Addr) (n : Nat) (a : Acc) (s : State) : Except Refusal (State × Nat) :=
  match sink src n a s with
  | .error r => .error r
  | .ok (s', t) =>
    .ok (s'.setCh { s'.ch with madr := s'.renorm (s'.ch.madr + byteLen t), qwc := s'.ch.qwc - BitVec.ofNat 16 t }, t)

/-- The end of every ring transfer: both addresses renormalized (43_mfifo.md R106). -/
def ringOut (s : State) : State :=
  s.setCh { s.ch with madr := s.renorm s.ch.madr, tadr := s.renorm s.ch.tadr }

/-- The second leg, from the ring's base (43_mfifo.md R106). -/
def ringWrap (n : Nat) (a : Acc) (s : State) : Except Refusal State :=
  if !s.mapped s.dmac.rbor then .ok (segUnmapped s)
  else match ringLeg s.dmac.rbor n a s with
    | .error r => .error r
    | .ok (s', _) => .ok s'

/-- The quadwords before the ring's top (43_mfifo.md R106). -/
def State.untilEnd (s : State) : Nat := ((s.ringLimit - s.ch.madr) >>> 4).toNat

/-- The quadwords of the first leg of a transfer of `q` (43_mfifo.md R106). -/
def State.leg1 (s : State) (q : Nat) : Nat := if s.untilEnd < q then s.untilEnd else q

/-- The two legs that move `q` quadwords: up to the ring's top, then, where the first leg was fully taken and the run
crosses the top, from the base (43_mfifo.md R106). -/
def ringLegs (q : Nat) (a : Acc) (s : State) : Except Refusal State :=
  if decide (0 < s.leg1 q) && !s.mapped s.ch.madr then .ok (segUnmapped s)
  else match ringLeg s.ch.madr (s.leg1 q) a s with
    | .error r => .error r
    | .ok (s', t) =>
      if s.untilEnd < q ∧ t = s.untilEnd then ringWrap (q - s.untilEnd) a s' else .ok s'

/-- `RingTransfer(acc)` (43_mfifo.md R106). -/
def ringTransfer (a : Acc) (s : State) : Except Refusal (State × RingResult) :=
  let v := available s.ch.madr s
  let q := min v.2 s.ch.qwc.toNat
  if q = 0 then .ok (v.1, .empty)
  else match ringLegs q a v.1 with
    | .error r => .error r
    | .ok s' => .ok (ringOut s', .moved)

end Sys2Proof.Machine
end

