-- ==== Sys2Proof/Machine/Path.lean ====
section
/-! DEFINITION. The path/state coordinator (44_path_coordinator.md R113 to R118). -/

namespace Sys2Proof.Machine

/-- Which of an entry's two passes runs (44_path_coordinator.md R116). -/
inductive Pass where
  | pre | post
deriving DecidableEq, Repr

/-- What a pass answers (44_path_coordinator.md R116). -/
inductive PathResult where
  | go
  | suppress (o : EntryOutcome)
deriving DecidableEq, Repr

/-- Step (a), the completed-transfer kick (44_path_coordinator.md R113). -/
def pathKick (s : State) : State :=
  if s.gif.apath = 3 then
    if s.gif.p3 = .idle ∨ s.gif.p3 = .wait then
      (s.setGif { s.gif with apath := 0, oph := false }).callExecute false true
    else s.setGif { s.gif with apath := 0, oph := false }
  else s

/-- Step (b), the demotion of WAIT to IDLE (44_path_coordinator.md R114). -/
def pathDemote (s : State) : State := if s.gif.p3 = .wait then s.setGif { s.gif with p3 := .idle } else s

/-- The condition of step (c) (44_path_coordinator.md R115). -/
def State.vifGated (s : State) : Bool := s.gif.p3 == .idle && s.vif.vgw

/-- Step (c)'s nudge of the VIF (44_path_coordinator.md R115). -/
def pathNudge (s : State) : State :=
  if s.vifGated && !s.vif.pending then s.nudge s.cfg.vifNudgeDelay else s

/-- Step (c)'s decision in the pre-pass, under the configured policy (44_path_coordinator.md R115). -/
def State.vgwDecision (s : State) : PathResult :=
  if s.vifGated then
    match s.cfg.vgwPolicy with
    | .doc => if s.gif.masked && s.ch.qwc != 0 then .suppress .idle else .go
    | .yield =>
      if !s.gif.masked || s.ch.qwc == 0 then .suppress (.reschedule s.cfg.vgwDelay.val s.chan) else .suppress .idle
  else .go

/-- `PathCheck(pass)`: steps (a), (b), (c) in this order, each on the state the one before left; the post-pass never
suppresses (44_path_coordinator.md R116). -/
def pathCheck (p : Pass) (s : State) : State × PathResult :=
  (pathNudge (pathDemote (pathKick s)),
    match p with
    | .pre => (pathNudge (pathDemote (pathKick s))).vgwDecision
    | .post => .go)

end Sys2Proof.Machine
end

