-- ==== Sys2Proof/Machine/Tags.lean ====
section
/-! DEFINITION. The Chain-Tag Walker (41_chain_tags.md): the common tag fetch R79, one step per tag type R82 to R89,
the stall R92, the unmapped-tag recovery R95, and the meanings of the eight tags. -/

namespace Sys2Proof.Machine

/-- What a fetch loads before the type's step: QWC, CHCR.TAG, MADR, and the tag's cost (41_chain_tags.md R79, R81). -/
def loadTag (a : Acc) (t : TagType) (f : TagFields) (s : State) : State :=
  (s.setCh { s.ch with qwc := f.qwc, madr := f.addr, chcr := { s.ch.chcr with tag := tagHi16 s.cfg.tagIds t f } }).charge
    a s.cfg.cycPerTag

/-- REFE's step and verdict (41_chain_tags.md R82). -/
def stepRefe (s : State) : State × Bool := (s.setCh { s.ch with tadr := s.ch.tadr + 16 }, true)

/-- CNT's step and verdict (41_chain_tags.md R83). -/
def stepCnt (s : State) : State × Bool :=
  (s.setCh { s.ch with madr := s.ch.tadr + 16, tadr := s.ch.tadr + 16 + s.segLen }, false)

/-- NEXT's step and verdict (41_chain_tags.md R84). -/
def stepNext (s : State) : State × Bool :=
  (s.setCh { s.ch with madr := s.ch.tadr + 16, tadr := s.ch.madr }, false)

/-- REF's step and verdict (41_chain_tags.md R85). -/
def stepRef (s : State) : State × Bool := (s.setCh { s.ch with tadr := s.ch.tadr + 16 }, false)

/-- REFS's step and verdict (41_chain_tags.md R86); the stall check comes after it. -/
def stepRefs (s : State) : State × Bool := (s.setCh { s.ch with tadr := s.ch.tadr + 16 }, false)

/-- MADR at the quadword after the tag, where the data of the tag follow it (41_chain_tags.md R83, R84, R87 to R89). -/
def dataAfterTag (s : State) : State := s.setCh { s.ch with madr := s.ch.tadr + 16 }

/-- The return address a CALL pushes: the quadword after its data (41_chain_tags.md R87). -/
def State.returnAddr (s : State) : Addr := s.ch.tadr + 16 + s.segLen

/-- CALL's step and verdict (41_chain_tags.md R87): an address of 0 acts as CNT, a full stack ends the chain with TADR
left at the tag, else the return address is pushed and the chain goes to the tag's address. -/
def stepCall (s : State) : State × Bool :=
  if s.ch.madr = 0 then
    (((dataAfterTag s).setCh { (dataAfterTag s).ch with tadr := s.returnAddr }).addDiag .callAddrZero, false)
  else if s.ch.chcr.asp = 0 then
    ((dataAfterTag s).setCh
      { (dataAfterTag s).ch with asr0 := s.returnAddr, chcr := { s.ch.chcr with asp := 1 }, tadr := s.ch.madr }, false)
  else if s.ch.chcr.asp = 1 then
    ((dataAfterTag s).setCh
      { (dataAfterTag s).ch with asr1 := s.returnAddr, chcr := { s.ch.chcr with asp := 2 }, tadr := s.ch.madr }, false)
  else ((dataAfterTag s).addDiag .callStackOverflow, true)

/-- RET's step and verdict (41_chain_tags.md R88): pops into TADR; an empty stack ends the chain. -/
def stepRet (s : State) : State × Bool :=
  if s.ch.chcr.asp = 2 then
    ((dataAfterTag s).setCh
      { (dataAfterTag s).ch with tadr := s.ch.asr1, asr1 := 0, chcr := { s.ch.chcr with asp := 1 } }, false)
  else if s.ch.chcr.asp = 1 then
    ((dataAfterTag s).setCh
      { (dataAfterTag s).ch with tadr := s.ch.asr0, asr0 := 0, chcr := { s.ch.chcr with asp := 0 } }, false)
  else (dataAfterTag s, true)

/-- END's step and verdict (41_chain_tags.md R89): TADR is not advanced. -/
def stepEnd (s : State) : State × Bool := (dataAfterTag s, true)

/-- What a stall does (41_chain_tags.md R92). -/
def stall (a : Acc) (s : State) : State :=
  ((s.setCh { s.ch with tadr := if s.routed then s.renorm (s.ch.tadr - 16) else s.ch.tadr - 16, qwc := 0 }).setEng
    { s.eng with done := false, prev := s.acc a }).raise .stall

/-- The verdict and the ring clamp, after the type's step (41_chain_tags.md R79; 43_mfifo.md R109). -/
def verdictTag (t : TagType) (r : State × Bool) : State :=
  if r.1.routed then mfifoClamp t (r.1.setEng { r.1.eng with done := r.2 })
  else r.1.setEng { r.1.eng with done := r.2 }

/-- The tag-IRQ rule (41_chain_tags.md R91). -/
def tagIrq (f : TagFields) (s : State) : State :=
  if f.irq && s.ch.chcr.tie then s.setEng { s.eng with done := true } else s

/-- What a fetch does after the type's step: the verdict, the ring clamp, the stall check, the tag-IRQ rule, in this
order (41_chain_tags.md R79, R80, R90, R91). The channel is stalled after it exactly when the check stalls (R94). -/
def settleTag (a : Acc) (t : TagType) (f : TagFields) (r : State × Bool) : State × FetchResult :=
  if (verdictTag t r).stallDue t then ((stall a (verdictTag t r)).setStalled true, .stalled)
  else ((tagIrq f (verdictTag t r)).setStalled false, .ok)

/-- A tag that has been read, with its type's step (41_chain_tags.md R79). An address field that is not a multiple of
16 is refused before anything is written (20_memory.md R46; 70_reset_and_hazards.md R150). -/
def walkWith (step : State → State × Bool) (a : Acc) (t : TagType) (f : TagFields) (s : State) :
    Except Refusal (State × FetchResult) :=
  if aligned f.addr then .ok (settleTag a t f (step (loadTag a t f s))) else .error (.misalignedTag f.addr)

/-- A tag that has been read, by its type. -/
def walkTag (a : Acc) (t : TagType) (f : TagFields) (s : State) : Except Refusal (State × FetchResult) :=
  match t with
  | .refe => walkWith stepRefe a .refe f s
  | .cnt => walkWith stepCnt a .cnt f s
  | .next => walkWith stepNext a .next f s
  | .ref => walkWith stepRef a .ref f s
  | .refs => walkWith stepRefs a .refs f s
  | .call => walkWith stepCall a .call f s
  | .ret => walkWith stepRet a .ret f s
  | .endTag => walkWith stepEnd a .endTag f s

/-- `TagFail()` (41_chain_tags.md R95). That the channel does not count as stalled after a fetch that fails is the model's
choice: R95 leaves it open (log 32). -/
def tagFail (s : State) : State :=
  ((s.setCh { s.ch with madr := s.ch.madr + s.segLen, qwc := 0, chcr.str := false }).addDiag .unmappedTag).setStalled false

/-- `TagFetch(acc)` (41_chain_tags.md R79): reads the tag at TADR and runs it. -/
def tagFetch (a : Acc) (s : State) : Except Refusal (State × FetchResult) :=
  if !s.mapped s.ch.tadr then .ok (tagFail s, .fail)
  else match s.run s.ch.tadr 1 with
    | .error r => .error r
    | .ok bytes =>
      match tagOfQuad s.cfg.tagIds (quadOfBytes bytes) with
      | some (t, f) => walkTag a t f s
      | none => .error (.unassignedTagId (tagIdOf (quadOfBytes bytes)))

/-- A fetch as a step of its own: it returns its result (log 9). -/
def fetchOutcome : Except Refusal (State × FetchResult) → Host.Outcome State Fault Refusal
  | .ok (s, r) => .next (s.returning (.fetch r))
  | .error r => .refused r

/-- REFE (41_chain_tags.md R82), run as the tag at TADR. -/
def execRefe (f : TagFields) (s : State) : Host.Outcome State Fault Refusal :=
  fetchOutcome (walkWith stepRefe s.variantAcc .refe f s)

/-- CNT (41_chain_tags.md R83), run as the tag at TADR. -/
def execCnt (f : TagFields) (s : State) : Host.Outcome State Fault Refusal :=
  fetchOutcome (walkWith stepCnt s.variantAcc .cnt f s)

/-- NEXT (41_chain_tags.md R84), run as the tag at TADR. -/
def execNext (f : TagFields) (s : State) : Host.Outcome State Fault Refusal :=
  fetchOutcome (walkWith stepNext s.variantAcc .next f s)

/-- REF (41_chain_tags.md R85), run as the tag at TADR. -/
def execRef (f : TagFields) (s : State) : Host.Outcome State Fault Refusal :=
  fetchOutcome (walkWith stepRef s.variantAcc .ref f s)

/-- REFS (41_chain_tags.md R86), run as the tag at TADR. -/
def execRefs (f : TagFields) (s : State) : Host.Outcome State Fault Refusal :=
  fetchOutcome (walkWith stepRefs s.variantAcc .refs f s)

/-- CALL (41_chain_tags.md R87), run as the tag at TADR. -/
def execCall (f : TagFields) (s : State) : Host.Outcome State Fault Refusal :=
  fetchOutcome (walkWith stepCall s.variantAcc .call f s)

/-- RET (41_chain_tags.md R88), run as the tag at TADR. -/
def execRet (f : TagFields) (s : State) : Host.Outcome State Fault Refusal :=
  fetchOutcome (walkWith stepRet s.variantAcc .ret f s)

/-- END (41_chain_tags.md R89), run as the tag at TADR. -/
def execEndTag (f : TagFields) (s : State) : Host.Outcome State Fault Refusal :=
  fetchOutcome (walkWith stepEnd s.variantAcc .endTag f s)

end Sys2Proof.Machine
end

