-- ==== Sys2Proof/Machine/Handler.lean ====
section
/-! DEFINITION. The top-level handler (45_handler.md R119 to R129): the two variants, the chain loop, Finalize, and the
meanings of HandlerEntry, DmaStart and Cancel. -/

namespace Sys2Proof.Machine

/-- LOOP_FUEL (70_reset_and_hazards.md R151). Without a configured bound it is 2^98, the number of values the walk
depends on within one entry (TADR, ASR0, ASR1 of 32 bits each, ASP of 2): a loop that does not end within that many
fetches repeats one and never ends (DEDUCED, log 11). -/
def loopFuel (cfg : Config) : Nat := cfg.loopFuel.getD (2 ^ 98)

/-- `ChainLoop(acc)` on a number of fetches (45_handler.md R124). A loop that would go on beyond them is divergence,
not an outcome: the sticky mark Diverged is set and the entry is refused (70_reset_and_hazards.md R151). -/
def chainLoop (a : Acc) : Nat → State → Except Refusal (State × FetchResult)
  | 0, s => if s.tagDue then .error (.diverged { s with diverged := true }) else .ok (s, .ok)
  | n + 1, s =>
    if s.tagDue then
      match tagFetch a s with
      | .error r => .error r
      | .ok (s', .ok) => chainLoop a n s'
      | .ok (s', .stalled) => .ok (s', .stalled)
      | .ok (s', .fail) => .ok (s', .fail)
    else .ok (s, .ok)

/-- `Resched(acc, acc0)`: the work done in the entry, or the minimum delay (45_handler.md R120). -/
def State.resched (s : State) (a : Acc) (acc0 : Nat) : EntryOutcome :=
  .reschedule (if s.acc a - acc0 = 0 then s.cfg.minDelay.val else s.acc a - acc0) s.chan

/-- The post-pass, whose result is always to go on (44_path_coordinator.md R116). -/
def postPass (s : State) : State := (pathCheck .post s).1

/-- The end of a transfer attempt: the post-pass, then the reschedule (45_handler.md R123, R125). -/
def afterTransfer (a : Acc) (acc0 : Nat) (s : State) : State × EntryOutcome :=
  (postPass s, (postPass s).resched a acc0)

/-- The FIFO drain of an entry and its charge (45_handler.md R123, R125; 42_transfer.md R97). -/
def fifoDrain (a : Acc) (s : State) : State :=
  let s' := (fifoRead true s).1
  s'.charge a (s.cfg.cycPerQw * (s.fifo.occ - s'.fifo.occ))

/-- `Finalize()` (45_handler.md R126). -/
def finalize (s : State) : State :=
  ((s.setCh { s.ch with chcr.str := false }).setEng
    { s.eng with cyc := 0, prev := 0, mcyc := 0, state := .ready }).raise .complete

/-- `DirectEntry()` (45_handler.md R123). -/
def directEntry (s : State) : Except Refusal (State × EntryOutcome) :=
  if 0 < s.fifo.occ then .ok (afterTransfer .cyc s.eng.cyc (fifoDrain .cyc s))
  else if s.ch.qwc != 0 || !s.eng.done then
    match chainLoop .cyc (loopFuel s.cfg) s with
    | .error r => .error r
    | .ok (s', .fail) => .ok (s', .abort .unmappedTag)
    | .ok (s', .stalled) => .ok (s', s'.resched .cyc s.eng.cyc)
    | .ok (s', .ok) =>
      if s'.ch.qwc != 0 then
        match segmentTransfer .cyc s' with
        | .error r => .error r
        | .ok s'' => .ok (afterTransfer .cyc s.eng.cyc s'')
      else .ok (afterTransfer .cyc s.eng.cyc s')
  else .ok (finalize s, .complete)

/-- The transfer part of `MfifoEntry()`, after its tag if it fetched one (45_handler.md R125; 43_mfifo.md R105, R107). -/
def mfifoMove (acc0 : Nat) (s : State) : Except Refusal (State × EntryOutcome) :=
  if s.ch.qwc != 0 then
    if s.inWindow s.ch.madr then
      match ringTransfer .mcyc s with
      | .error r => .error r
      | .ok (s', .empty) => .ok (s'.raise .mfifoEmpty, .idle)
      | .ok (s', .moved) => .ok (afterTransfer .mcyc acc0 s')
    else match segmentTransfer .mcyc s with
      | .error r => .error r
      | .ok s' => .ok (afterTransfer .mcyc acc0 s')
  else if s.eng.done then .ok (finalize s, .complete)
  else .ok (s, s.resched .mcyc acc0)

/-- `MfifoEntry()` (45_handler.md R125; 43_mfifo.md R105, R108). -/
def mfifoEntry (s : State) : Except Refusal (State × EntryOutcome) :=
  if 0 < s.fifo.occ then .ok (afterTransfer .mcyc s.eng.mcyc (fifoDrain .mcyc s))
  else if s.tagDue then
    let v := available s.ch.tadr s
    if v.2 = 0 then .ok (v.1.raise .mfifoEmpty, .idle)
    else match tagFetch .mcyc v.1 with
      | .error r => .error r
      | .ok (s', .fail) => .ok (s', .abort .unmappedTag)
      | .ok (s', .stalled) => .ok (s', s'.resched .mcyc s.eng.mcyc)
      | .ok (s', .ok) => mfifoMove s.eng.mcyc s'
  else mfifoMove s.eng.mcyc s

/-- The end of every entry: its outcome, and the request it stands for (45_handler.md R119). -/
def endEntry (r : State × EntryOutcome) : State :=
  match r.2 with
  | .reschedule d c => (r.1.request d c).returning (.outcome (.reschedule d c))
  | .complete => r.1.returning (.outcome .complete)
  | .idle => r.1.returning (.outcome .idle)
  | .abort e => r.1.returning (.outcome (.abort e))

/-- The dispatch after the pre-pass: the MFIFO variant where the block is routed, else the direct one
(45_handler.md R122). -/
def variantEntry (s : State) : Except Refusal (State × EntryOutcome) :=
  if s.routed then mfifoEntry s else directEntry s

/-- HandlerEntry (45_handler.md R122): the cancellation check, the pre-pass, the variant. -/
def execHandlerEntry (s : State) : Host.Outcome State Fault Refusal :=
  if !s.ch.chcr.str then .next (endEntry (s, .idle))
  else match pathCheck .pre s with
    | (s', .suppress o) => .next (endEntry (s', o))
    | (s', .go) =>
      match variantEntry s' with
      | .error r => .refused r
      | .ok r => .next (endEntry r)

/-- DmaStart (45_handler.md R127), once the launch premises hold (70_reset_and_hazards.md R150). The channel is stalled no
more (log 32), and the write cursor's lead is the one this launch measures (log 33). -/
def execDmaStart (s : State) : Host.Outcome State Fault Refusal :=
  match s.brokenPremise with
  | some p => .refused (.launchPremise p)
  | none =>
    .next (((((s.setEng s.launchEngine).setStalled false).setLead .kept).request s.cfg.minDelay s.chan).returning .unit)

/-- Cancel: the controller clears STR between entries, and nothing else (45_handler.md R128). -/
def execCancel (s : State) : Host.Outcome State Fault Refusal :=
  .next ((s.setCh { s.ch with chcr.str := false }).returning .unit)

end Sys2Proof.Machine
end

