-- ==== Sys2Proof/Machine/Agents.lean ====
section
/-! DEFINITION. The moves of the other agents between the block's steps (00_scope.md R18; 60_exceptions.md R139, R142):
register writes by the controller with the packed words of 30_encoding.md R64 and R65, stores to memory, changes of
the receiving unit, the VIF and the feature flag; and the fetch of one tag as a step of its own. -/

namespace Sys2Proof.Machine

/-- The channel control word as an agent reads it (30_encoding.md R64). Bits with no field read 0 (PRESUMED, log 23). -/
def packChcr (c : Chcr) : Word :=
  c.tag ++ (0 : BitVec 7) ++ BitVec.ofBool c.str ++ BitVec.ofBool c.tie ++ BitVec.ofBool c.tte ++ c.asp ++ c.mod
    ++ (0 : BitVec 1) ++ BitVec.ofBool c.dir

/-- The channel control word as an agent writes it (30_encoding.md R64). Bits with no field are not held. -/
def unpackChcr (w : Word) : Chcr :=
  { dir := w.getLsbD 0, mod := w.extractLsb' 2 2, asp := w.extractLsb' 4 2, tte := w.getLsbD 6,
    tie := w.getLsbD 7, str := w.getLsbD 8, tag := w.extractLsb' 16 16 }

/-- The address of a register on the platform, informational only (30_encoding.md R66): no rule depends on it. -/
def regAddress : Reg → Addr
  | .chcr => 0x1000A000
  | .madr => 0x1000A010
  | .qwc => 0x1000A020
  | .tadr => 0x1000A030
  | .asr0 => 0x1000A040
  | .asr1 => 0x1000A050
  | .ctrl => 0x1000E000
  | .rbsr => 0x1000E040
  | .rbor => 0x1000E050
  | .stadr => 0x1000E060

/-- A register write by the controller or the stall source (60_exceptions.md R139; 30_encoding.md R64, R65). A write of a
register that the write cursor's lead is measured by leaves the lead unknown (log 33). -/
def writeReg (r : Reg) (v : Word) (s : State) : State :=
  match r with
  | .chcr => { s with ch.chcr := unpackChcr v }
  | .madr => { s.setLead .loose with ch.madr := v }
  | .qwc => { s.setLead .loose with ch.qwc := v.extractLsb' 0 16 }
  | .tadr => { s.setLead .loose with ch.tadr := v }
  | .asr0 => { s with ch.asr0 := v }
  | .asr1 => { s with ch.asr1 := v }
  | .ctrl => { s.setLead .loose with dmac := { s.dmac with mfd := v.extractLsb' 2 2, sts := v.extractLsb' 4 2,
                                                           std := v.extractLsb' 6 2 } }
  | .stadr => { s with dmac.stadr := v }
  | .rbor => { s.setLead .loose with dmac.rbor := v }
  | .rbsr => { s.setLead .loose with dmac.rbsr := v }

/-- At `DmaStart` the write cursor stands too far ahead of the drain of the DMA that starts (70_reset_and_hazards.md R150
premise 5). The spec does not say which `eng.done` counts there; the model asks the one the launch leaves (45_handler.md
R127), not the one the DMA before it left (DESIGN CHOICE, log 33). -/
def State.launchOverfull (s : State) : Bool := (s.setEng s.launchEngine).ringOverfull

/-- What the agents that invoke operations owe before an operation runs (60_exceptions.md R142): the breach, if any. At
`DmaStart` the writer's lead is measured as `State.launchOverfull` says (log 33). -/
def breachOf (i : Instr) (s : State) : Option HostMove :=
  if i.tag?.isSome then some .tagAsOperation
  else if !i.wellFormed then some .illFormedOperands
  else match i with
    | .fifoInit => if s.ch.chcr.str then some .fifoInitWhileRunning else none
    | .dmaStart =>
      if !s.ch.chcr.str then some .dmaStartNotRunning else if s.launchOverfull then some .writerOverrun else none
    | .writerAdvance w => if s.writerOverruns w then some .writerOverrun else none
    | .fifoWrite _ _ => none
    | .fifoRead _ => none
    | .handlerEntry => none
    | .cancel => none
    | .snapshot => none
    | .restore _ => none
    -- the tags, which the first test has answered
    | .refe _ => none
    | .cnt _ => none
    | .next _ => none
    | .ref _ => none
    | .refs _ => none
    | .call _ => none
    | .ret _ => none
    | .endTag _ => none

/-- What the controller and the stall source owe in a register write: STADR is never lowered while the channel is stalled
(60_exceptions.md R142). -/
def writeBreach (r : Reg) (v : Word) (s : State) : Option HostMove :=
  if r == .stadr && s.stalled && s.ch.chcr.str && decide (v < s.dmac.stadr) then some .stadrLowered else none

/-- What a move that invokes nothing does to the state (60_exceptions.md R139, R140, R142). The others run an operation
and change nothing here. -/
def agentMove (e : Event) (s : State) : State :=
  match e with
  | .call _ => s
  | .deliver => s
  | .walk => s
  | .hostEntry d => { s with sched.entry := some { delay := d, chan := s.chan } }
  | .writeReg r v => writeReg r v s
  | .writeMem a bytes => { s with mem := s.mem.writeBytes a.toNat bytes }
  | .receiver g => { s with gif := g }
  | .vif v => { s with vif := v }
  | .fifoEmu on => { s with fifoEmu := on }

/-- What the fetch at TADR finds. -/
inductive Fetched where
  /-- The tag there, decoded, and the state it runs in. -/
  | instr (i : Instr) (s : State)
  /-- No tag is read, and this is the state: none is due (45_handler.md R124), the ring has none available (43_mfifo.md
  R105, R108), or TADR resolves to nothing and the recovery R95 has been taken. -/
  | ended (s : State)
  /-- No meaning: the quadword has an unmapped tail, or its ID is unassigned. -/
  | refused (r : Refusal)

/-- The state a tag is fetched in: in MFIFO mode `Available(TADR)` has set the engine state (43_mfifo.md R104, R108). -/
def State.atFetch (s : State) : State := if s.routed then (available s.ch.tadr s).1 else s

/-- The ring has no quadword at TADR: in MFIFO mode no tag is read (43_mfifo.md R108). -/
def State.tagMissing (s : State) : Bool := s.routed && s.availableQuads s.ch.tadr == 0

/-- The sixteen bytes at TADR, decoded (41_chain_tags.md R79). -/
def decodeAtTadr (s : State) : Fetched :=
  if !s.mapped s.ch.tadr then .ended (State.returning (tagFail s) (.fetch .fail))
  else match s.run s.ch.tadr 1 with
    | .error r => .refused r
    | .ok bytes =>
      match decode s.cfg.tagIds bytes with
      | .ok (i, _) => .instr i s
      | .error (.unassignedId id) => .refused (.unassignedTagId id)
      -- not reached: a run of one quadword is sixteen bytes
      | .error .short => .refused (.unmappedRunTail s)

/-- The fetch of one tag as a step of its own (41_chain_tags.md R79; log 9). With no tag due the loop that fetches them
ends at once with Ok (45_handler.md R124), and nothing is read. In MFIFO mode the ring must hold the tag: else MFIFO_EMPTY
is raised and nothing is read (43_mfifo.md R105, R108). The fetch does not ask STR: the check of STR is HandlerEntry's
(45_handler.md R122), and that a step of one fetch makes none is the model's choice (DESIGN CHOICE, log 9). -/
def fetchAtTadr (s : State) : Fetched :=
  if !s.tagDue then .ended (s.returning (.fetch .ok))
  else if s.tagMissing then .ended ((s.atFetch.raise .mfifoEmpty).returning (.outcome .idle))
  else decodeAtTadr s.atFetch

/-- Placing a tag's sixteen bytes at an address, where an agent would have put them. -/
def placeTag (a : Addr) (bytes : List Byte) (s : State) : State :=
  { s with mem := s.mem.writeBytes a.toNat bytes }

/-- A state whose very next step fetches the tag at TADR (log 10): chain mode, no quadwords remaining, not done, no
divergence, TADR not past the last quadword and resolving to memory, not routed to a ring that has no tag there, and the
fetch first on the agenda. -/
def readyToWalk (s : State) : State :=
  let tadr := if s.ch.tadr.toNat + 16 ≤ 4294967296 then s.ch.tadr else 0
  let s := { s with ch := { s.ch with tadr := tadr, qwc := 0, chcr.mod := 1 }, eng.done := false,
                    diverged := false, agenda := .walk :: s.agenda }
  let s := if s.tagMissing then { s with dmac.mfd := 0 } else s
  if s.runMapped tadr 1 then s
  else { s with cfg.mapped := { base := tadr.toNat, size := 16 } :: s.cfg.mapped }

end Sys2Proof.Machine
end

