-- ==== Sys2Proof/Machine/Persist.lean ====
section
/-! DEFINITION. Persistence (60_exceptions.md R141): Snapshot and Restore. -/

namespace Sys2Proof.Machine

/-- The block's state as a snapshot holds it (60_exceptions.md R141); `ch` and `dmac` belong to the controller's own. -/
def State.savedBlock (s : State) : SavedBlock := { eng := s.eng, fifo := s.fifo, diag := s.diag }

/-- Snapshot (60_exceptions.md R141): the block's state is returned and not changed. -/
def execSnapshot (s : State) : Host.Outcome State Fault Refusal := .next (s.returning (.saved s.savedBlock))

/-- Restore (60_exceptions.md R141): the block's state is replaced. -/
def execRestore (b : SavedBlock) (s : State) : Host.Outcome State Fault Refusal :=
  .next (State.returning { s with eng := b.eng, fifo := b.fifo, diag := b.diag } .unit)

end Sys2Proof.Machine
end

