-- ==== Sys2Proof/Machine/Dispatch.lean ====
section
/-! DEFINITION. One arm per constructor of `Instr`, each one call of its meaning. -/

namespace Sys2Proof.Machine

def exec (i : Instr) (s : State) : Host.Outcome State Fault Refusal :=
  match i with
  | .refe f => Sys2Proof.Machine.execRefe f s
  | .cnt f => Sys2Proof.Machine.execCnt f s
  | .next f => Sys2Proof.Machine.execNext f s
  | .ref f => Sys2Proof.Machine.execRef f s
  | .refs f => Sys2Proof.Machine.execRefs f s
  | .call f => Sys2Proof.Machine.execCall f s
  | .ret f => Sys2Proof.Machine.execRet f s
  | .endTag f => Sys2Proof.Machine.execEndTag f s
  | .fifoInit => Sys2Proof.Machine.execFifoInit s
  | .fifoWrite buf count => Sys2Proof.Machine.execFifoWrite buf count s
  | .fifoRead ev => Sys2Proof.Machine.execFifoRead ev s
  | .dmaStart => Sys2Proof.Machine.execDmaStart s
  | .handlerEntry => Sys2Proof.Machine.execHandlerEntry s
  | .cancel => Sys2Proof.Machine.execCancel s
  | .writerAdvance w => Sys2Proof.Machine.execWriterAdvance w s
  | .snapshot => Sys2Proof.Machine.execSnapshot s
  | .restore b => Sys2Proof.Machine.execRestore b s

end Sys2Proof.Machine
end

