-- ==== Sys2Proof/Machine/Step.lean ====
section
/-! DEFINITION. One step of the whole machine (00_scope.md R17, R18): the next move on the agenda; with none left, the
scheduler delivers the pending entry; with none pending, the block is quiescent (60_exceptions.md R147). -/

namespace Sys2Proof.Machine

/-- The scheduler delivers the pending entry: it clears its slot and calls HandlerEntry (60_exceptions.md R138). -/
def deliver (s : State) : Host.Outcome State Fault Refusal := exec .handlerEntry s.takeEntry

/-- An agent invokes an operation: it runs unless the host has no such move (60_exceptions.md R142; log 16). -/
def invoke (i : Instr) (s : State) : Host.Outcome State Fault Refusal :=
  match breachOf i s with
  | some m => .refused (.noSuchHostMove m)
  | none => exec i s

/-- One tag fetch as a step of its own: the tag at TADR is fetched and decoded, and its operation runs
(41_chain_tags.md R79). It runs whatever STR is (DESIGN CHOICE, log 9). -/
def walk (s : State) : Host.Outcome State Fault Refusal :=
  match fetchAtTadr s with
  | .instr i s' => exec i s'
  | .ended s' => .next s'
  | .refused r => .refused r

/-- The scheduler's move: it delivers the pending entry, and with none pending there is nothing for it to do (60_exceptions.md
R138, R147; log 24). -/
def schedule (s : State) : Host.Outcome State Fault Refusal :=
  match s.sched.entry with
  | some _ => deliver s
  | none => .next s

/-- The effect of the next move on the agenda, on the state without it. -/
def runEvent (e : Event) (s : State) : Host.Outcome State Fault Refusal :=
  match e with
  | .call i => invoke i s
  | .deliver => schedule s
  | .walk => walk s
  | .hostEntry d => .next (agentMove (.hostEntry d) s)
  | .writeReg r v =>
    match writeBreach r v s with
    | some m => .refused (.noSuchHostMove m)
    | none => .next (agentMove (.writeReg r v) s)
  | .writeMem a bytes => .next (agentMove (.writeMem a bytes) s)
  | .receiver g => .next (agentMove (.receiver g) s)
  | .vif v => .next (agentMove (.vif v) s)
  | .fifoEmu on => .next (agentMove (.fifoEmu on) s)

/-- One step. After a divergent entry nothing runs: it never returned (70_reset_and_hazards.md R151). -/
def step (s : State) : Host.Outcome State Fault Refusal :=
  if s.diverged then .refused (.diverged s)
  else match s.agenda with
    | e :: rest => runEvent e { s with agenda := rest }
    | [] => schedule s

/-- `s` with the tag whose bits are `w` placed at TADR, as sixteen bytes in address order with every bit above `nbits`
zero, and made ready so that the very next step fetches it (log 10). -/
def State.withFetchWord (s : State) (nbits w : Nat) : State :=
  placeTag (readyToWalk s).ch.tadr (leBytes 16 (w % 2 ^ nbits)) (readyToWalk s)

end Sys2Proof.Machine
end

