-- ==== Sys2Proof/Safety.lean ====
section
/-! DEFINITION. What claims about runs are stated in: the invariant every step keeps, the clean and the quiescent
machine, and the idle coordinator. -/

namespace Sys2Proof.Machine

/-- The invariant every step keeps: memory in its canonical form, and the Packet FIFO's invariants (10_state.md R29). -/
def State.inv (s : State) : Bool := s.mem.wf && fifoInv s.fifo

/-- A run that went through no recovery (60_exceptions.md R132): `diag` is empty at the end. -/
def State.clean (s : State) : Bool := s.diag == noDiag

/-- The block is quiescent when no handler entry is pending (60_exceptions.md R147), and the run is over when no agent
will act again either (70_reset_and_hazards.md R159). -/
def State.runOver (s : State) : Bool := s.sched.entry.isNone && s.agenda.isEmpty

/-- The end state of a chain run to completion (70_reset_and_hazards.md R159). -/
def State.completed (s : State) : Bool :=
  !s.ch.chcr.str && s.ch.qwc == 0 && s.fifo.occ == 0 && s.eng.done && s.eng.cyc == 0 && s.eng.prev == 0
    && s.eng.mcyc == 0

/-- The coordinator has nothing to do with this receiving unit and this VIF: no completed transfer is shown, the path is
not waiting, the VIF is not gated (44_path_coordinator.md R113 to R115). -/
def quiet (g : Receiver) (v : Vif) : Bool := g.apath != 3 && g.p3 != .wait && !v.vgw

/-- The coordinator has nothing to do now. -/
def State.pathQuiet (s : State) : Bool := quiet s.gif s.vif

/-- A handler entry gets past the cancellation check and past a coordinator that has nothing to do, and reaches its
variant (45_handler.md R122). -/
def State.entering (s : State) : Bool := s.ch.chcr.str && s.pathQuiet

end Sys2Proof.Machine
end

