-- ==== Sys2Proof/Certificates/Slice0/Obligations.lean ====
section
/-! DEFINITION. The statements for the provers, and the closed forms they are stated in: each closed form writes out what
the spec's rule gives, without the machine's own operations. -/

namespace Sys2Proof.Claims

open Sys2Proof.Machine

/-- `Routed` (30_encoding.md R65): the MFIFO drain target is the GIF. -/
def routed (s : State) : Bool := s.dmac.mfd == 3

/-- `StallOn` (30_encoding.md R65): the stall-controlled channel is the GIF. -/
def stallOn (s : State) : Bool := s.dmac.std == 2

/-- `ChanOf(Routed)` (45_handler.md R121). -/
def channel (s : State) : SchedChan := if routed s then .mfifo else .gif

/-- `Renorm(a)` (43_mfifo.md R103). -/
def renorm (s : State) (a : Addr) : Addr := s.dmac.rbor + (a &&& s.dmac.rbsr)

/-- An address as the ring clamp leaves it: renormalized exactly when the block is routed (43_mfifo.md R109). -/
def clamped (s : State) (a : Addr) : Addr := if routed s then renorm s a else a

/-- `zext_32(q) << 4`, a count as a byte length (30_encoding.md R59). -/
def len (q : BitVec 16) : Addr := q.setWidth 32 <<< 4

/-- The engine with `n` cycles charged to the accumulator of the variant in use (41_chain_tags.md R79). -/
def charged (s : State) (n : Nat) : Engine :=
  if routed s then { s.eng with mcyc := s.eng.mcyc + n } else { s.eng with cyc := s.eng.cyc + n }

/-- The accumulator of the variant in use. -/
def accumulated (e : Engine) (s : State) : Nat := if routed s then e.mcyc else e.cyc

/-- `StatusOf(occ)` (40_packet_fifo.md R70). -/
def status (occ : Nat) : FifoStatus := if occ = 0 then .empty else if occ = 16 then .full else .normal

/-- The delay of a reschedule for `n` cycles of work (45_handler.md R120). -/
def delay (s : State) (n : Nat) : Nat := if 0 < n then n else s.cfg.minDelay.val

/-- The state an entry of outcome `Reschedule(d, ChanOf(Routed))` leaves, after whatever it did (45_handler.md R119;
60_exceptions.md R138). -/
def rescheduled (d : Nat) (s : State) : State :=
  { s with out := s.out ++ [.reschedule d (channel s)]
           sched.entry := some { delay := d, chan := channel s }
           ret := .outcome (.reschedule d (channel s)) }

/-- Byte `i` of memory from address `a`, `n` of them in address order (20_memory.md R44, R48). -/
def bytesAt (s : State) (a : Addr) (n : Nat) : List Byte := (List.range n).map (fun i => s.mem.read (a.toNat + i))

/-- `QW(a)`: the little-endian number the sixteen bytes from `a` hold (20_memory.md R45). -/
def quadAt (s : State) (a : Nat) : Quad :=
  BitVec.ofNat 128 ((List.range 16).map (fun i => (s.mem.read (a + i)).toNat * 2 ^ (8 * i))).sum

/-- All `16 n` bytes of a run resolve to memory, and the run does not pass 2^32 - 1 (20_memory.md R48). -/
def runResolves (s : State) (a : Addr) (n : Nat) : Bool :=
  decide (a.toNat + 16 * n ≤ 2 ^ 32) && (List.range (16 * n)).all (fun i => mappedAt s.cfg (a.toNat + i))

/-- The stall condition of a reference tag, whose MADR is its address field (41_chain_tags.md R92). -/
def stalls (s : State) (t : TagType) (f : TagFields) : Bool :=
  stallOn s && s.ch.chcr.mod == 1 && s.cfg.stallIds.contains t && decide (s.dmac.stadr < f.addr + len f.qwc)

/-- The state after a tag fetch that returns Ok with the given MADR, next TADR and verdict: QWC, CHCR.TAG, the charge, the
renormalized TADR, and done by the verdict or the tag-IRQ rule (41_chain_tags.md R79, R81, R90, R91). That the channel is
then stalled no more is the model's deduction (log 32). -/
def fetched (s : State) (t : TagType) (f : TagFields) (madr tadr : Addr) (last : Bool) : State :=
  { s with
    ch := { s.ch with madr := madr, tadr := clamped s tadr, qwc := f.qwc, chcr.tag := tagHi16 s.cfg.tagIds t f }
    eng := { charged s s.cfg.cycPerTag with done := last || (f.irq && s.ch.chcr.tie) }
    stalled := false
    ret := .fetch .ok }

/-- The state after a reference tag's fetch that stalls (41_chain_tags.md R92). The mark `stalled` is the model's own field
(log 32). -/
def stalledAt (s : State) (t : TagType) (f : TagFields) : State :=
  { s with
    ch := { s.ch with madr := f.addr, tadr := clamped s (clamped s (s.ch.tadr + 16) - 16), qwc := 0
                      chcr.tag := tagHi16 s.cfg.tagIds t f }
    eng := { charged s s.cfg.cycPerTag with done := false
                                            prev := accumulated (charged s s.cfg.cycPerTag) s }
    stalled := true
    out := s.out ++ [.line .stall]
    ret := .fetch .stalled }

/-- Sixty-four words given by index. Irreducible, so that a comparison of two FIFOs does not unroll it. -/
@[irreducible] def words (g : Fin 64 → Word) : Vector Word 64 := Vector.ofFn g

/-- The Packet FIFO after `FifoWrite(buf, count)` (40_packet_fifo.md R72): storage word `w` lies `(w - wr) mod 64` words
past the write index, and the words within `4 n` of it hold the buffer's, low word first. -/
def written (f : PacketFifo) (buf : List Quad) (count : Nat) : PacketFifo :=
  let n := min count (16 - f.occ)
  { f with
    data := words (fun w : Fin 64 =>
      let d := (w.val + 64 - f.wr.toNat) % 64
      if d < 4 * n then (buf.getD (d / 4) 0).extractLsb' (32 * (d % 4)) 32 else f.data[w.val])
    wr := f.wr + BitVec.ofNat 6 (4 * n)
    occ := f.occ + n
    status := status (f.occ + n) }

/-- Storage word `i` from the read index, past word 63 to word 0 (40_packet_fifo.md R74). -/
def heldWord (f : PacketFifo) (i : Nat) : Word := f.data[(f.rd.toNat + i) % 64]'(Nat.mod_lt _ (by decide))

/-- The four bytes of a word, little-endian (60_exceptions.md R136). -/
def wordBytes (w : Word) : List Byte := [w.extractLsb' 0 8, w.extractLsb' 8 8, w.extractLsb' 16 8, w.extractLsb' 24 8]

/-- The bytes of the `n` entries from the read index, in order (40_packet_fifo.md R74; 60_exceptions.md R136). -/
def heldBytes (f : PacketFifo) (n : Nat) : List Byte := (List.range (4 * n)).flatMap (fun i => wordBytes (heldWord f i))

/-- Entry `j` from the read index, as a quadword (10_state.md R28). -/
def heldQuad (f : PacketFifo) (j : Nat) : Quad :=
  heldWord f (4 * j + 3) ++ heldWord f (4 * j + 2) ++ heldWord f (4 * j + 1) ++ heldWord f (4 * j)

/-- The quadwords the FIFO holds, oldest first. -/
def held (f : PacketFifo) : List Quad := (List.range f.occ).map (heldQuad f)

/-- `FifoRead` refuses to move anything: the FIFO is empty or the receiving unit refuses path 3 (40_packet_fifo.md R74). -/
def readIdle (s : State) : Bool := s.fifo.occ == 0 || !s.gif.canAccept

/-- The quadwords `K = Consumed(B, N)` the consumer takes of `N` offered on its next answer (40_packet_fifo.md R76). -/
def taken (s : State) (n : Nat) : Nat := min (s.nextAnswer.consumed / 16) n

/-- The diagnostic set after the consumer's next answer to `n` quadwords offered (40_packet_fifo.md R76). -/
def overrun (s : State) (n : Nat) (d : DiagSet) : DiagSet :=
  if 16 * n < s.nextAnswer.consumed then { d with consumerOverrun := true } else d

/-- The state after one consumer call that offers `bytes`, `n` quadwords (60_exceptions.md R136; 40_packet_fifo.md R76). -/
def offered (s : State) (bytes : List Byte) (n : Nat) : State :=
  { s with gif := s.nextAnswer.after, script := s.script.tail, calls := s.calls + 1
           out := s.out ++ [.transfer .dma bytes (16 * n)], diag := overrun s n s.diag }

/-- The state after `FifoRead(fromScheduledEvent)` (40_packet_fifo.md R74, R75). -/
def afterRead (fromScheduledEvent : Bool) (s : State) : State :=
  if readIdle s then
    if !fromScheduledEvent && decide (0 < s.fifo.occ) then
      { s with fifo.status := status s.fifo.occ
               out := s.out ++ [.reschedule s.cfg.minDelay.val (channel s)]
               sched.entry := some { delay := s.cfg.minDelay.val, chan := channel s }
               ret := .count 0 }
    else { s with fifo.status := status s.fifo.occ, ret := .count 0 }
  else
    let n := s.fifo.occ
    let k := taken s n
    { offered s (heldBytes s.fifo n) n with
      fifo := { s.fifo with
                stage := words (fun i : Fin 64 => if i.val < 4 * n then heldWord s.fifo i.val else s.fifo.stage[i.val])
                rd := s.fifo.rd + BitVec.ofNat 6 (4 * k)
                occ := n - k
                status := status (n - k) }
      ret := .count (n - k) }

/-- A tag is to be fetched (41_chain_tags.md R79). -/
def tagWanted (s : State) : Bool := s.ch.chcr.mod == 1 && s.ch.qwc == 0 && !s.eng.done

/-- `InWindow(a)` (43_mfifo.md R102). -/
def inRing (s : State) (a : Addr) : Bool :=
  decide (s.dmac.rbor.toNat ≤ a.toNat) && decide (a.toNat ≤ (s.dmac.rbor + s.dmac.rbsr).toNat)

/-- `limit` (43_mfifo.md). -/
def limit (s : State) : Addr := s.dmac.rbor + s.dmac.rbsr + 16

/-- `Available(D)` (43_mfifo.md R104). -/
def availableAt (s : State) (d : Addr) : Nat :=
  if d.toNat ≤ s.wcur.toNat then (s.wcur - d).toNat / 16
  else ((s.wcur - s.dmac.rbor) + (limit s - d)).toNat / 16

/-- The entry's data do not come from the ring: the block is not routed, or MADR lies outside the window
(45_handler.md R122; 43_mfifo.md R107). -/
def directSource (s : State) : Bool := !(routed s && inRing s s.ch.madr)

/-- The diagnostic set after a direct segment transfer asked for stall control in normal mode (42_transfer.md R101). -/
def stallModeNoted (s : State) : DiagSet :=
  if stallOn s && s.ch.chcr.mod != 1 then { s.diag with stallInNormalMode := true } else s.diag

/-- The launch premises 1 to 4 (70_reset_and_hazards.md R150), and the values R8 fixes for the parameters that the rules
write as numbers (log 31). -/
def launchable (s : State) : Prop :=
  (s.ch.madr.toNat % 16 = 0 ∧ s.ch.tadr.toNat % 16 = 0 ∧ s.ch.asr0.toNat % 16 = 0 ∧ s.ch.asr1.toNat % 16 = 0 ∧
    s.dmac.stadr.toNat % 16 = 0 ∧ s.dmac.rbor.toNat % 16 = 0 ∧ s.wcur.toNat % 16 = 0) ∧
  (∀ t ∈ s.cfg.stallIds, t = .ref ∨ t = .refs ∨ t = .refe) ∧
  (∀ c ∈ s.cfg.chunks, 1 ≤ c.2 ∧ c.2 ≤ c.1) ∧ s.cfg.stackDepth = 2 ∧
  (s.cfg.fifoCap = 16 ∧ s.cfg.fifoWords = 64 ∧ s.cfg.qwBytes = 16 ∧ s.cfg.addrBits = 32 ∧ s.cfg.qwcBits = 16)

/-- The verdict `DmaStart` gives (45_handler.md R127). -/
def startsDone (s : State) : Bool :=
  let id := s.ch.chcr.tag.extractLsb' 12 3
  s.ch.chcr.mod != 1 || (s.ch.qwc != 0 &&
    (id == s.cfg.tagIds.endTag || id == s.cfg.tagIds.refe || (s.ch.chcr.tag.getLsbD 15 && s.ch.chcr.tie)))

/-- The state after the VIF gate's nudge (44_path_coordinator.md R115). -/
def nudged (s : State) : State :=
  if s.vif.pending then s
  else { s with out := s.out ++ [.vifNudge s.cfg.vifNudgeDelay], sched.vif := some s.cfg.vifNudgeDelay }

/-- The state after the completed-transfer kick (44_path_coordinator.md R113). -/
def kicked (s : State) : State :=
  if s.gif.apath = 3 then
    if s.gif.p3 = .idle ∨ s.gif.p3 = .wait then
      { s with gif := s.nextAnswer.after, script := s.script.tail, calls := s.calls + 1
               out := s.out ++ [.execute false true] }
    else { s with gif := { s.gif with apath := 0, oph := false } }
  else s

/-- The state after the kick and the demotion (44_path_coordinator.md R113, R114). -/
def coordinated (s : State) : State :=
  if (kicked s).gif.p3 = .wait then { kicked s with gif := { (kicked s).gif with p3 := .idle } } else kicked s

/-- The finalized state (45_handler.md R126). -/
def finalized (s : State) : State :=
  { s with ch.chcr.str := false
           eng := { s.eng with cyc := 0, prev := 0, mcyc := 0, state := .ready }
           out := s.out ++ [.line .complete]
           ret := .outcome .complete }

/-- The VIF gate of step (c): the path is idle and the VIF waits for the GIF (44_path_coordinator.md R115). -/
def gate (s : State) : Bool := s.gif.p3 == .idle && s.vif.vgw

/-- The state after a whole pass of the coordinator: the kick, the demotion, the nudge (44_path_coordinator.md R116). -/
def passed (s : State) : State := if gate (coordinated s) then nudged (coordinated s) else coordinated s

/-- The pre-pass lets the entry go on: no gate, or under the DOC policy one whose packet is finished or whose masking is
lifted (44_path_coordinator.md R115). -/
def goesOn (s : State) : Bool :=
  let c := coordinated s
  !gate c || (c.cfg.vgwPolicy == .doc && (!c.gif.masked || c.ch.qwc == 0))

/-- A handler entry from `s` gets past the cancellation check and the pre-pass, and reaches its variant in state `p`
(45_handler.md R122). -/
def Enters (s p : State) : Prop := s.ch.chcr.str = true ∧ goesOn s = true ∧ p = passed s

/-- The quadwords the sink takes of `n` offered (42_transfer.md R96). -/
def sunk (s : State) (n : Nat) : Nat := if s.fifoEmu then min n (16 - s.fifo.occ) else if n = 0 then 0 else taken s n

/-- What the sink reads of `n` quadwords at `src` resolves to memory: in a full FIFO nothing is read (42_transfer.md R96;
40_packet_fifo.md R73; 20_memory.md R48). -/
def sinkReads (s : State) (src : Addr) (n : Nat) : Bool := runResolves s src (if s.fifoEmu then sunk s n else n)

/-- The state after the sink has been offered `n` quadwords at `src` (42_transfer.md R96, R97). -/
def afterSink (s : State) (src : Addr) (n : Nat) : State :=
  if s.fifoEmu then
    if sunk s n = 0 then s
    else { s with fifo := written s.fifo ((List.range (sunk s n)).map (fun j => quadAt s (src.toNat + 16 * j))) (sunk s n)
                  eng := charged s (s.cfg.cycPerQw * sunk s n) }
  else if n = 0 then s
  else { offered s (bytesAt s src (16 * n)) n with eng := charged s (s.cfg.cycPerQw * sunk s n) }

/-- The state after the rest of a segment has been skipped, its start unmapped (42_transfer.md R100). -/
def skipped (s : State) : State :=
  { s with ch := { s.ch with madr := s.ch.madr + len s.ch.qwc, qwc := 0 }, diag := { s.diag with unmappedData := true } }

/-- What a direct segment transfer reads resolves to memory, or its start does not (42_transfer.md R98). -/
def segmentReads (s : State) : Bool := !s.mapped s.ch.madr || sinkReads s s.ch.madr (chunk s.cfg s.ch.qwc.toNat)

/-- The state after a direct segment transfer (42_transfer.md R98, R100, R101). -/
def segmentMoved (s : State) : State :=
  let m := { s with diag := stallModeNoted s }
  let n := chunk s.cfg s.ch.qwc.toNat
  if s.mapped s.ch.madr then
    { afterSink m s.ch.madr n with
      ch := { s.ch with madr := s.ch.madr + BitVec.ofNat 32 (16 * sunk s n), qwc := s.ch.qwc - BitVec.ofNat 16 (sunk s n) } }
  else skipped m

/-- The state after one leg of a ring transfer that offers `n` quadwords at `src` (43_mfifo.md R106). -/
def ringLegMoved (s : State) (src : Addr) (n : Nat) : State :=
  { afterSink s src n with
    ch := { s.ch with madr := renorm s (s.ch.madr + BitVec.ofNat 32 (16 * sunk s n))
                      qwc := s.ch.qwc - BitVec.ofNat 16 (sunk s n) } }

/-- The state after a ring transfer's end, both addresses renormalized (43_mfifo.md R106). -/
def ringEnded (s : State) : State :=
  { s with ch := { s.ch with madr := renorm s s.ch.madr, tadr := renorm s s.ch.tadr } }

/-- The quadwords a ring transfer asks for, and those before the ring's top (43_mfifo.md R106). -/
def ringAsked (s : State) : Nat := min (availableAt s s.ch.madr) s.ch.qwc.toNat
def ringTop (s : State) : Nat := (limit s - s.ch.madr).toNat / 16

/-- The state after the first leg of a ring transfer (43_mfifo.md R106). -/
def ringFirst (s : State) : State :=
  ringLegMoved { s with eng.state := .ready } s.ch.madr (min (ringTop s) (ringAsked s))

/-- The transfer crosses the ring's top and its first leg was fully taken, so the second leg follows (43_mfifo.md R106). -/
def ringWraps (s : State) : Bool :=
  decide (ringTop s < ringAsked s) && sunk s (min (ringTop s) (ringAsked s)) == ringTop s

/-- What the legs of a ring transfer read resolves to memory, or a leg's start does not (43_mfifo.md R106). -/
def ringReads (s : State) : Bool :=
  let n := min (ringTop s) (ringAsked s)
  n != 0 && !s.mapped s.ch.madr ||
    (sinkReads s s.ch.madr n &&
      (!ringWraps s || !s.mapped s.dmac.rbor || sinkReads (ringFirst s) s.dmac.rbor (ringAsked s - ringTop s)))

/-- The state after a ring transfer that finds something available (43_mfifo.md R106). -/
def ringMoved (s : State) : State :=
  if min (ringTop s) (ringAsked s) ≠ 0 ∧ s.mapped s.ch.madr = false then ringEnded (skipped { s with eng.state := .ready })
  else if ringWraps s then
    if s.mapped s.dmac.rbor then ringEnded (ringLegMoved (ringFirst s) s.dmac.rbor (ringAsked s - ringTop s))
    else ringEnded (skipped (ringFirst s))
  else ringEnded (ringFirst s)

/-- The state after an entry found the ring empty (43_mfifo.md R105). -/
def ringEmptied (s : State) : State :=
  { s with eng.state := .empty, out := s.out ++ [.line .mfifoEmpty], ret := .outcome .idle }

/-- The state after the recovery from a tag at an unmapped address (41_chain_tags.md R95). That it ends a stall is the
model's choice (log 32). -/
def tagFailed (s : State) : State :=
  { s with ch := { s.ch with madr := s.ch.madr + len s.ch.qwc, qwc := 0, chcr.str := false }
           stalled := false
           diag := { s.diag with unmappedTag := true } }

/-- The state in which the tag at TADR is fetched: in MFIFO mode the ring has been found READY (43_mfifo.md R104, R108). -/
def atTag (s : State) : State := if routed s then { s with eng.state := .ready } else s

/-- The ring has the tag at TADR, or the block is not routed (43_mfifo.md R108). -/
def tagThere (s : State) : Bool := !routed s || availableAt s s.ch.tadr != 0

/-- The instruction at TADR: the sixteen bytes there, decoded (41_chain_tags.md R79; 30_encoding.md R68). -/
def tagAt (s : State) : Option Instr :=
  if runResolves s s.ch.tadr 1 then
    match decode s.cfg.tagIds (bytesAt s s.ch.tadr 16) with
    | .ok (i, _) => some i
    | .error _ => none
  else none

/-- One tag fetch (41_chain_tags.md R79): what `exec` makes of the instruction at TADR, or the recovery R95; `ret`, the
model's own field (log 19), is left to the entry. -/
def fetchOne (s : State) : Option (State × FetchResult) :=
  if s.mapped s.ch.tadr then
    match tagAt s with
    | some i =>
      match exec i s with
      | .next u =>
        match u.ret with
        | .fetch r => some ({ u with ret := s.ret }, r)
        | _ => none
      | _ => none
    | none => none
  else some (tagFailed s, .fail)

/-- `ChainLoop` in at most `n` fetches (45_handler.md R124), with the result it returns. -/
def walked : Nat → State → Option (State × FetchResult)
  | 0, s => if tagWanted s then none else some (s, .ok)
  | n + 1, s =>
    if tagWanted s then
      match fetchOne s with
      | some (u, .ok) => walked n u
      | r => r
    else some (s, .ok)

/-- The quadwords from `d` on to `w` around the ring, by the formula of R104. -/
def aheadOf (s : State) (d w : Addr) : Nat := availableAt { s with wcur := w } d

/-- The address in the ring that a routed block drains next, by the `eng.done` the state has: MADR while ring data remain;
else, while a tag is to come, TADR in the ring, or else MADR in the ring; a DMA that is done and has nothing left drains
nothing (43_mfifo.md, its first lines, R104, R106, R108). The reading is the model's (log 33). -/
def drainsAt (s : State) (d : Addr) : Prop :=
  routed s = true ∧
  if s.ch.qwc ≠ 0 ∧ inRing s s.ch.madr = true then d = s.ch.madr
  else (s.ch.chcr.mod = 1 ∧ s.eng.done = false) ∧
    if inRing s s.ch.tadr = true then d = s.ch.tadr else inRing s s.ch.madr = true ∧ d = s.ch.madr

/-- The quadwords the writer may keep ahead of the drain (43_mfifo.md R104; 60_exceptions.md R142). -/
def room (s : State) : Nat := (s.dmac.rbsr.toNat + 16) / 16 - 1

/-- The write cursor is further ahead of the drain than the writer may keep it (60_exceptions.md R142). -/
def overfull (s : State) : Prop := ∃ d, drainsAt s d ∧ room s < availableAt s d

/-- At a launch the write cursor is further ahead of the drain than the writer may keep it (70_reset_and_hazards.md R150
premise 5). The drain is that of the DMA that starts, by the verdict R127 gives it: the model's choice (log 33). -/
def overfullAtLaunch (s : State) : Prop := overfull { s with eng.done := startsDone s }

/-- The writer's move to `w` overruns the drain (60_exceptions.md R142; 43_mfifo.md R104; 93_implementation_defined.md U20), by
the formula of R104 on any ring: `w` is too far ahead of the drain, or the way there from a cursor that is not leads past
it, the quadwords already ahead and those of the move being together too many. The first is asked of a channel that runs or
whose lead has been kept; the second of one whose lead has been kept, or that runs with nothing that the lead is measured
by written since session start. Before a launch the writer sets its cursor (70_reset_and_hazards.md R149 step 3). When each
is asked is the model's choice (log 33). -/
def overruns (s : State) (w : Addr) : Prop :=
  ∃ d, drainsAt s d ∧
    ((s.ch.chcr.str = true ∨ s.lead = .kept) ∧ room s < aheadOf s d w ∨
      (s.lead = .kept ∨ s.lead = .fresh ∧ s.ch.chcr.str = true) ∧
        availableAt s d ≤ room s ∧ room s < availableAt s d + aheadOf s s.wcur w)

/-- A request of a handler entry. -/
def isRequest : Output → Bool
  | .reschedule _ _ => true
  | .line _ => false
  | .vifNudge _ => false
  | .transfer _ _ _ => false
  | .execute _ _ => false

/-- An interrupt line. -/
def isLine : Output → Bool
  | .line _ => true
  | .reschedule _ _ => false
  | .vifNudge _ => false
  | .transfer _ _ _ => false
  | .execute _ _ => false

/-- Every address the block uses is a multiple of 16, and so is the ring mask (20_memory.md R46; 10_state.md R32). -/
def addressesAligned (s : State) : Bool :=
  aligned s.ch.madr && aligned s.ch.tadr && aligned s.ch.asr0 && aligned s.ch.asr1 && aligned s.dmac.stadr
    && aligned s.dmac.rbor && aligned s.wcur && aligned s.dmac.rbsr

end Sys2Proof.Claims

open Sys2Proof Sys2Proof.Machine Sys2Proof.Claims

/-! Reset. -/

/-- R38, R39: what session start gives the FIFO, the engine and the diagnostic set; with them no pending entry and STR
clear (the rows of R148's table that give a value). -/
def Obligations.ResetState : Prop :=
  (State.reset.fifo.rd = 0 ∧ State.reset.fifo.wr = 0 ∧
    (∀ w : Fin 64, State.reset.fifo.data[w.val] = 0 ∧ State.reset.fifo.stage[w.val] = 0) ∧
    State.reset.fifo.occ = 0 ∧ State.reset.fifo.status = .empty ∧
    State.reset.eng.state = .ready ∧ State.reset.eng.done = false) ∧
  (State.reset.eng.cyc = 0 ∧ State.reset.eng.prev = 0 ∧ State.reset.eng.mcyc = 0 ∧
    ∀ k, diagHas State.reset.diag k = false) ∧
  State.reset.sched.entry = none ∧ State.reset.ch.chcr.str = false

/-- Memory's canonical form (the model's own, log 1) and the FIFO's invariants R29 hold at reset. -/
def Obligations.ResetInvariant : Prop := State.reset.inv = true

/-! The Packet FIFO. -/

/-- R71: everything `FifoInit` writes, that it writes nothing else, and that it is idempotent. -/
def Obligations.FifoInitEffect : Prop :=
  ∀ s : State,
    exec .fifoInit s = .next
      { s with fifo := { data := Vector.replicate 64 0, stage := Vector.replicate 64 0, rd := 0, wr := 0, occ := 0
                         status := .empty }
               eng := { s.eng with state := .ready, done := false }
               ret := .unit } ∧
    ∀ t, exec .fifoInit s = .next t → exec .fifoInit t = .next t

/-- R72: what `FifoWrite` accepts, where it puts it, and that it writes nothing else; for every buffer of at least the
count, full and wrapping FIFOs included. -/
def Obligations.FifoWriteEffect : Prop :=
  ∀ (buf : List Quad) (count : BitVec 16) (s : State), count.toNat ≤ buf.length →
    exec (.fifoWrite buf count) s = .next
      { s with fifo := written s.fifo buf count.toNat, ret := .count (min count.toNat (16 - s.fifo.occ)) }

/-- The model's choice (log 18): a buffer shorter than the count is no operand of `FifoWrite`. -/
def Obligations.FifoWriteShortBuffer : Prop :=
  ∀ (buf : List Quad) (count : BitVec 16) (s : State), buf.length < count.toNat →
    exec (.fifoWrite buf count) s = .refused .shortBuffer

/-- R74: both branches of `FifoRead`, each with the whole state after it. The premise is invariant (a) of R29, which
`StepKeepsInvariant` keeps. -/
def Obligations.FifoReadEffect : Prop :=
  ∀ (b : Bool) (s : State), s.fifo.occ ≤ 16 → exec (.fifoRead b) s = .next (afterRead b s)

/-- R75: who asks for a retry when the receiving unit refuses path 3, and who never does: a read of an empty FIFO, a read
that the receiving unit accepts, and a read from a handler entry. -/
def Obligations.FifoReadRetry : Prop :=
  ∀ s : State,
    (0 < s.fifo.occ → s.gif.canAccept = false → ∃ t, exec (.fifoRead false) s = .next t ∧
      t.out = s.out ++ [.reschedule s.cfg.minDelay.val (channel s)] ∧
      t.sched.entry = some { delay := s.cfg.minDelay.val, chan := channel s }) ∧
    (s.fifo.occ = 0 → ∀ b, ∃ t, exec (.fifoRead b) s = .next t ∧ t.out = s.out ∧ t.sched = s.sched) ∧
    (s.gif.canAccept = true → ∀ b, ∃ t new, exec (.fifoRead b) s = .next t ∧ t.out = s.out ++ new ∧
      new.filter isRequest = [] ∧ t.sched = s.sched) ∧
    (∃ t new, exec (.fifoRead true) s = .next t ∧ t.out = s.out ++ new ∧ new.filter isRequest = [] ∧ t.sched = s.sched)

/-- R78 (b), (c): the FIFO is a queue of quadwords. A write appends what it accepts; a read offers everything held in
order and leaves exactly the entries from position `K` on. -/
def Obligations.FifoKeepsOrder : Prop :=
  (∀ (buf : List Quad) (count : BitVec 16) (s : State), fifoInv s.fifo = true → count.toNat ≤ buf.length →
    ∃ t, exec (.fifoWrite buf count) s = .next t ∧
      held t.fifo = held s.fifo ++ buf.take (min count.toNat (16 - s.fifo.occ))) ∧
  (∀ (b : Bool) (s : State), fifoInv s.fifo = true → readIdle s = false →
    ∃ t, exec (.fifoRead b) s = .next t ∧ held t.fifo = (held s.fifo).drop (taken s s.fifo.occ) ∧
      t.out = s.out ++ [.transfer .dma ((held s.fifo).flatMap bytesOfQuad) (16 * s.fifo.occ)])

/-- R78 (b): up to sixteen quadwords written into an empty FIFO and read by a consumer that takes all reach it in order. -/
def Obligations.FifoHandsOverInOrder : Prop :=
  ∀ (buf : List Quad) (b : Bool) (s : State), fifoInv s.fifo = true → s.fifo.occ = 0 → s.gif.canAccept = true →
    0 < buf.length → buf.length ≤ 16 → 16 * buf.length ≤ s.nextAnswer.consumed →
    ∃ t u, exec (.fifoWrite buf (BitVec.ofNat 16 buf.length)) s = .next t ∧ t.ret = .count buf.length ∧
      exec (.fifoRead b) t = .next u ∧
      u.out = s.out ++ [.transfer .dma (buf.flatMap bytesOfQuad) (16 * buf.length)] ∧
      u.fifo.occ = 0 ∧ u.fifo.status = .empty ∧ u.ret = .count 0

/-! The descriptor tags. Each is run as the tag at TADR; an address field that is not a multiple of 16 is refused
(`MisalignedTagRefused`), and a reference tag may stall (`StallCheck`). -/

/-- R82: REFE takes its data at the tag's address, advances TADR by one quadword, and is terminal. -/
def Obligations.RefeEffect : Prop :=
  ∀ (f : TagFields) (s : State), aligned f.addr = true → stalls s .refe f = false →
    exec (.refe f) s = .next (fetched s .refe f f.addr (s.ch.tadr + 16) true)

/-- R83: CNT's data follow the tag and the next tag follows the data. -/
def Obligations.CntEffect : Prop :=
  ∀ (f : TagFields) (s : State), aligned f.addr = true → TagType.cnt ∉ s.cfg.stallIds →
    exec (.cnt f) s = .next
      (fetched s .cnt f (clamped s (s.ch.tadr + 16)) (s.ch.tadr + 16 + len f.qwc) false)

/-- R84: NEXT's data follow the tag and the next tag is at the tag's address. -/
def Obligations.NextEffect : Prop :=
  ∀ (f : TagFields) (s : State), aligned f.addr = true → TagType.next ∉ s.cfg.stallIds →
    exec (.next f) s = .next (fetched s .next f (clamped s (s.ch.tadr + 16)) f.addr false)

/-- R85: REF takes its data at the tag's address and advances TADR by one quadword. -/
def Obligations.RefEffect : Prop :=
  ∀ (f : TagFields) (s : State), aligned f.addr = true → stalls s .ref f = false →
    exec (.ref f) s = .next (fetched s .ref f f.addr (s.ch.tadr + 16) false)

/-- R86: REFS is as REF, and then R92 applies: it stalls where the stall condition holds. -/
def Obligations.RefsEffect : Prop :=
  ∀ (f : TagFields) (s : State), aligned f.addr = true →
    exec (.refs f) s = .next
      (if stalls s .refs f then stalledAt s .refs f else fetched s .refs f f.addr (s.ch.tadr + 16) false)

/-- R87: CALL pushes the quadword after its data and goes to the tag's address; an address of 0 acts as CNT, a full or
invalid stack ends the chain with TADR left at the tag, and each of these two is noted. -/
def Obligations.CallEffect : Prop :=
  ∀ (f : TagFields) (s : State), aligned f.addr = true → TagType.call ∉ s.cfg.stallIds →
    exec (.call f) s = .next
      (if f.addr = 0 then
        { fetched s .call f (clamped s (s.ch.tadr + 16)) (s.ch.tadr + 16 + len f.qwc) false with
          diag := { s.diag with callAddrZero := true } }
      else if s.ch.chcr.asp = 0 then
        { fetched s .call f (clamped s (s.ch.tadr + 16)) f.addr false with
          ch.asr0 := s.ch.tadr + 16 + len f.qwc, ch.chcr.asp := 1 }
      else if s.ch.chcr.asp = 1 then
        { fetched s .call f (clamped s (s.ch.tadr + 16)) f.addr false with
          ch.asr1 := s.ch.tadr + 16 + len f.qwc, ch.chcr.asp := 2 }
      else
        { fetched s .call f (clamped s (s.ch.tadr + 16)) s.ch.tadr true with
          diag := { s.diag with callStackOverflow := true } })

/-- R88: RET pops the next tag's address; an empty or invalid stack ends the chain with TADR left at the tag. -/
def Obligations.RetEffect : Prop :=
  ∀ (f : TagFields) (s : State), aligned f.addr = true → TagType.ret ∉ s.cfg.stallIds →
    exec (.ret f) s = .next
      (if s.ch.chcr.asp = 2 then
        { fetched s .ret f (clamped s (s.ch.tadr + 16)) s.ch.asr1 false with ch.asr1 := 0, ch.chcr.asp := 1 }
      else if s.ch.chcr.asp = 1 then
        { fetched s .ret f (clamped s (s.ch.tadr + 16)) s.ch.asr0 false with ch.asr0 := 0, ch.chcr.asp := 0 }
      else fetched s .ret f (clamped s (s.ch.tadr + 16)) s.ch.tadr true)

/-- R89: END's data follow the tag, TADR is not advanced, and it is terminal. -/
def Obligations.EndEffect : Prop :=
  ∀ (f : TagFields) (s : State), aligned f.addr = true → TagType.endTag ∉ s.cfg.stallIds →
    exec (.endTag f) s = .next (fetched s .endTag f (clamped s (s.ch.tadr + 16)) s.ch.tadr true)

/-- R92 with R93's STALL_IDS: the reference tags, and no others, stall exactly where the condition holds, with the whole
state a stall leaves; a tag that does not stall returns Ok and raises no line. -/
def Obligations.StallCheck : Prop :=
  ∀ (t : TagType) (f : TagFields) (s : State), aligned f.addr = true →
    (∀ x ∈ s.cfg.stallIds, x = .ref ∨ x = .refs ∨ x = .refe) →
    ∃ u, exec (Instr.ofTag t f) s = .next u ∧
      (stalls s t f = true → u = stalledAt s t f) ∧
      (stalls s t f = false → u.ret = .fetch .ok ∧ u.out = s.out)

/-- R93, R94: a stall leaves TADR at the tag it re-reads, and a tag to be fetched; on the ring, for a tag in the window of
a well-formed ring. -/
def Obligations.StallRewindsToTag : Prop :=
  ∀ (t : TagType) (f : TagFields) (s : State), (t = .ref ∨ t = .refs ∨ t = .refe) → aligned f.addr = true →
    stalls s t f = true →
    (routed s = true → s.ringWellFormed = true ∧ inRing s s.ch.tadr = true ∧ aligned s.ch.tadr = true) →
    ∃ u, exec (Instr.ofTag t f) s = .next u ∧ u.ch.tadr = s.ch.tadr ∧ tagWanted u = true

/-- R46, R150: a tag whose address field is not a multiple of 16 is refused, for every type. -/
def Obligations.MisalignedTagRefused : Prop :=
  ∀ (t : TagType) (f : TagFields) (s : State), f.addr.toNat % 16 ≠ 0 →
    exec (Instr.ofTag t f) s = .refused (.misalignedTag f.addr)

/-- R81: every fetch that reads a tag, a stalled one included, leaves bits 31:16 of the quadword at TADR in CHCR.TAG. A tag
is read only where one is due (R79, R124), and in MFIFO mode only where the ring has it (R108). -/
def Obligations.FetchCopiesTag : Prop :=
  ∀ s u : State, tagWanted s = true → s.mapped s.ch.tadr = true → tagThere s = true → walk s = .next u →
    u.ch.chcr.tag = (quadAt s s.ch.tadr.toNat).extractLsb' 16 16

/-- R95: a tag at an address that resolves to nothing ends the DMA, as a fetch of its own and as a handler entry of either
variant, with no line, no request, no charge. That it also ends a stall is the model's choice (log 32). A LOOP_FUEL of no
fetch at all is left out (log 11). -/
def Obligations.UnmappedTagAborts : Prop :=
  ∀ s : State,
    (tagWanted s = true → s.mapped s.ch.tadr = false → tagThere s = true →
      walk s = .next { tagFailed (atTag s) with ret := .fetch .fail }) ∧
    (∀ p, Enters s p → tagWanted p = true → p.mapped p.ch.tadr = false → p.fifo.occ = 0 → p.cfg.loopFuel ≠ some 0 →
      tagThere p = true →
      exec .handlerEntry s = .next { tagFailed (atTag p) with ret := .outcome (.abort .unmappedTag) })

/-! Start, cancel, and the handler's entries. -/

/-- R127: what `DmaStart` does under the launch premises and a TAG_ID_MAP that names every type once. What it does to the
model's own fields `stalled` (log 32) and `lead` (log 33) is the model's. -/
def Obligations.DmaStartEffect : Prop :=
  ∀ s : State, launchable s → s.cfg.tagIds.wellFormed = true →
    exec .dmaStart s = .next
      { s with eng := { done := startsDone s, state := .ready, cyc := 0, prev := 0, mcyc := 0 }
               stalled := false
               lead := .kept
               out := s.out ++ [.reschedule s.cfg.minDelay.val (channel s)]
               sched.entry := some { delay := s.cfg.minDelay.val, chan := channel s }
               ret := .unit }

/-- R150: `DmaStart` runs exactly under the launch premises 1 to 4, and is refused by name otherwise. That a configuration
must also have R8's values for the parameters the rules write as numbers is the model's choice (log 31). -/
def Obligations.DmaStartChecksPremises : Prop :=
  ∀ s : State, (launchable s → ∃ t, exec .dmaStart s = .next t) ∧
    (¬ launchable s → ∃ p, exec .dmaStart s = .refused (.launchPremise p))

/-- R128: `Cancel` clears STR and writes nothing else; the entry after it returns Idle, writes nothing and outputs
nothing. -/
def Obligations.CancelThenIdle : Prop :=
  ∀ s : State,
    exec .cancel s = .next { s with ch.chcr.str := false, ret := .unit } ∧
    exec .handlerEntry { s with ch.chcr.str := false, ret := .unit } = .next
      { s with ch.chcr.str := false, ret := .outcome .idle }

/-- R126: the finalizing entry, in both variants. -/
def Obligations.FinalizeEntry : Prop :=
  ∀ s p : State, Enters s p → p.fifo.occ = 0 → p.ch.qwc = 0 → p.eng.done = true →
    exec .handlerEntry s = .next (finalized p)

/-- R96 to R98, R101, R107, R116, R120: an entry that moves a segment straight to the consumer: the bytes offered, what it
takes, the address and the count after it, the charge, the post-pass on the receiving unit the call left, and the
reschedule; direct, or out of the window in MFIFO mode. -/
def Obligations.ConsumerTransferEntry : Prop :=
  ∀ (s p : State) (n t : Nat), Enters s p → p.fifo.occ = 0 → p.ch.qwc ≠ 0 → directSource p = true →
    p.fifoEmu = false → n = chunk p.cfg p.ch.qwc.toNat → runResolves p p.ch.madr n = true → t = taken p n →
    exec .handlerEntry s = .next (rescheduled (delay p (p.cfg.cycPerQw * t))
      (passed { offered p (bytesAt p p.ch.madr (16 * n)) n with
        ch := { p.ch with madr := p.ch.madr + BitVec.ofNat 32 (16 * t), qwc := p.ch.qwc - BitVec.ofNat 16 t }
        eng := charged p (p.cfg.cycPerQw * t)
        diag := overrun p n (stallModeNoted p) }))

/-- R96 to R98: the same entry with the Packet FIFO as its sink; the FIFO is empty, or it would be drained first. -/
def Obligations.FifoTransferEntry : Prop :=
  ∀ (s p : State) (m : Nat), Enters s p → p.fifo.occ = 0 → p.ch.qwc ≠ 0 → directSource p = true →
    p.fifoEmu = true → m = min (chunk p.cfg p.ch.qwc.toNat) 16 → runResolves p p.ch.madr m = true →
    exec .handlerEntry s = .next (rescheduled (delay p (p.cfg.cycPerQw * m))
      (passed { p with
        ch := { p.ch with madr := p.ch.madr + BitVec.ofNat 32 (16 * m), qwc := p.ch.qwc - BitVec.ofNat 16 m }
        eng := charged p (p.cfg.cycPerQw * m)
        fifo := written p.fifo ((List.range m).map (fun j => quadAt p (p.ch.madr.toNat + 16 * j))) m
        diag := stallModeNoted p }))

/-- R99: the part of a segment an entry offers lies between 1 and the whole, and is the whole by default. A configured
value out of range counts as the default: the model's choice (log 22). -/
def Obligations.ChunkInRange : Prop :=
  ∀ (cfg : Config) (q : Nat), 1 ≤ q → 1 ≤ chunk cfg q ∧ chunk cfg q ≤ q ∧ (cfg.chunks = [] → chunk cfg q = q)

/-- R123, R125, R97, R116: while the FIFO holds anything an entry drains it first, in both variants, whether or not the
receiving unit accepts; it charges what was handed over, runs the post-pass, and never finalizes. -/
def Obligations.FifoDrainEntry : Prop :=
  ∀ (s p : State) (n : Nat), Enters s p → 0 < p.fifo.occ → p.fifo.occ ≤ 16 →
    n = p.cfg.cycPerQw * (p.fifo.occ - (afterRead true p).fifo.occ) →
    exec .handlerEntry s = .next
      (rescheduled (delay p n) (passed { afterRead true p with eng := charged p n }))

/-- R100: a segment whose first address resolves to nothing is skipped: nothing is offered, nothing charged, and the chain
goes on. -/
def Obligations.UnmappedDataSkipped : Prop :=
  ∀ s p : State, Enters s p → p.fifo.occ = 0 → p.ch.qwc ≠ 0 → directSource p = true → p.mapped p.ch.madr = false →
    exec .handlerEntry s = .next (rescheduled p.cfg.minDelay.val (passed (skipped { p with diag := stallModeNoted p })))

/-- R48: a run that starts mapped and has an unmapped later byte, or passes 2^32 - 1, is refused with UnmappedRunTail in
`diag`: a segment's run, and a tag's (R48 speaks of runs; that a tag's quadword is one is the model's reading, log 12). -/
def Obligations.RunTailRefused : Prop :=
  (∀ (s p : State) (n : Nat), Enters s p → p.fifo.occ = 0 → p.ch.qwc ≠ 0 → directSource p = true →
    p.mapped p.ch.madr = true →
    n = (if p.fifoEmu then min (chunk p.cfg p.ch.qwc.toNat) 16 else chunk p.cfg p.ch.qwc.toNat) →
    runResolves p p.ch.madr n = false →
    ∃ left, exec .handlerEntry s = .refused (.unmappedRunTail left) ∧ diagHas left.diag .unmappedRunTail = true) ∧
  (∀ s : State, tagWanted s = true → tagThere s = true → s.mapped s.ch.tadr = true → runResolves s s.ch.tadr 1 = false →
    walk s = .refused (.unmappedRunTail { atTag s with diag := { s.diag with unmappedRunTail := true } }))

/-- R151, with the model's bound of 2^98 fetches (log 11): a chain loop that has not ended within the bound never ends,
whatever the number of fetches it is given. -/
def Obligations.DivergenceIsExact : Prop :=
  ∀ (a : Acc) (s l : State), s.cfg.loopFuel = none → chainLoop a (loopFuel s.cfg) s = .error (.diverged l) →
    ∀ n, ∃ l', chainLoop a n s = .error (.diverged l')

/-- R129 (b): once done is true an entry fetches no tag: CHCR.TAG and the stack stay, TADR moves only by the ring's
renormalization, and done stays true. -/
def Obligations.DoneMeansNoFetch : Prop :=
  ∀ s u : State, s.eng.done = true → exec .handlerEntry s = .next u →
    u.eng.done = true ∧ u.ch.chcr.tag = s.ch.chcr.tag ∧ u.ch.chcr.asp = s.ch.chcr.asp ∧ u.ch.asr0 = s.ch.asr0 ∧
    u.ch.asr1 = s.ch.asr1 ∧ (u.ch.tadr = s.ch.tadr ∨ (routed s = true ∧ u.ch.tadr = renorm s s.ch.tadr))

/-- R119, R129 (a), R138: an entry has one outcome; a reschedule, with a delay of at least 1 on ChanOf(Routed), is its last
output, its only request and the pending entry after it, and no other outcome requests anything. -/
def Obligations.OutcomeRequests : Prop :=
  ∀ s u : State, exec .handlerEntry s = .next u →
    ∃ (o : EntryOutcome) (new : List Output), u.ret = .outcome o ∧ u.out = s.out ++ new ∧
      match o with
      | .reschedule d c => 1 ≤ d ∧ c = channel s ∧ u.sched.entry = some { delay := d, chan := c } ∧
          new.filter isRequest = [.reschedule d c] ∧ new.getLast? = some (.reschedule d c)
      | .complete => u.sched.entry = s.sched.entry ∧ new.filter isRequest = []
      | .idle => u.sched.entry = s.sched.entry ∧ new.filter isRequest = []
      | .abort _ => u.sched.entry = s.sched.entry ∧ new.filter isRequest = []

/-- R134: an entry raises at most one line, and which one its outcome says: COMPLETE with Complete alone, STALL only with a
reschedule, MFIFO_EMPTY only with Idle, none with Abort. -/
def Obligations.OneLinePerEntry : Prop :=
  ∀ s u : State, exec .handlerEntry s = .next u →
    ∃ (o : EntryOutcome) (new : List Output), u.ret = .outcome o ∧ u.out = s.out ++ new ∧
      match o with
      | .complete => new.filter isLine = [.line .complete]
      | .reschedule _ _ => new.filter isLine = [] ∨ new.filter isLine = [.line .stall]
      | .idle => new.filter isLine = [] ∨ new.filter isLine = [.line .mfifoEmpty]
      | .abort _ => new.filter isLine = []

/-- R129 (c), R159: a Complete outcome comes only with an empty FIFO, no quadwords remaining, done, STR clear, the
accumulators zero, and the COMPLETE line last. -/
def Obligations.CompleteMeansFinished : Prop :=
  ∀ s u : State, exec .handlerEntry s = .next u → u.ret = .outcome .complete →
    u.completed = true ∧ u.eng.state = .ready ∧ u.out.getLast? = some (.line .complete)

/-! The path coordinator. -/

/-- R115: the VIF gate in the pre-pass under both policies: the nudge, the suppression and its outcome, and the entry that
goes on under DOC, to its end where the packet is finished, to its transfer where masking is lifted. (Every other statement
about an entry holds of these entries too: `Enters` admits them.) -/
def Obligations.VifGate : Prop :=
  ∀ s : State, s.ch.chcr.str = true → s.gif.apath ≠ 3 → s.gif.p3 = .idle → s.vif.vgw = true →
    (s.cfg.vgwPolicy = .doc → s.gif.masked = true → s.ch.qwc ≠ 0 →
      exec .handlerEntry s = .next { nudged s with ret := .outcome .idle }) ∧
    (s.cfg.vgwPolicy = .doc → s.fifo.occ = 0 → s.ch.qwc = 0 → s.eng.done = true →
      exec .handlerEntry s = .next (finalized (nudged s))) ∧
    (s.cfg.vgwPolicy = .doc → s.gif.masked = false → s.fifo.occ = 0 → s.ch.qwc ≠ 0 → directSource s = true →
      segmentReads (nudged s) = true → ∀ m, m = segmentMoved (nudged s) →
      exec .handlerEntry s = .next (rescheduled (delay s (accumulated m.eng s - accumulated s.eng s)) (passed m))) ∧
    (s.cfg.vgwPolicy = .yield → (s.gif.masked = false ∨ s.ch.qwc = 0) →
      exec .handlerEntry s = .next (rescheduled s.cfg.vgwDelay.val (nudged s))) ∧
    (s.cfg.vgwPolicy = .yield → s.gif.masked = true → s.ch.qwc ≠ 0 →
      exec .handlerEntry s = .next { nudged s with ret := .outcome .idle })

/-- R113, R114: the pre-pass kicks the receiving unit after a completed transfer and demotes WAIT to IDLE; an entry is the
entry of the state these two steps leave. A receiving unit that shows another completed transfer right after the kick is
left out: the pre-pass kicks once (R118). -/
def Obligations.CoordinatorPass : Prop :=
  ∀ s : State, s.ch.chcr.str = true → (coordinated s).gif.apath ≠ 3 →
    exec .handlerEntry s = exec .handlerEntry (coordinated s)

/-! The ring. -/

/-- R103's corner cases: with a well-formed ring every renormalized address lies in the window, an aligned address in the
window stays, the limit becomes the base, and alignment is kept. -/
def Obligations.RenormIntoWindow : Prop :=
  ∀ (s : State) (a : Addr), s.ringWellFormed = true →
    s.renorm a = s.dmac.rbor + (a &&& s.dmac.rbsr) ∧
    inRing s (s.renorm a) = true ∧ s.renorm s.ringLimit = s.dmac.rbor ∧
    (aligned a = true → aligned (s.renorm a) = true) ∧
    (aligned a = true → inRing s a = true → s.renorm a = a)

/-- R104: with a well-formed ring and both addresses in the window, the count leaves one quadword of the ring free, is 0
exactly at the cursor, and is the distance to the cursor around the ring. -/
def Obligations.AvailableIsDistance : Prop :=
  ∀ (s : State) (d : Addr), s.ringWellFormed = true → aligned d = true → aligned s.wcur = true →
    inRing s d = true → inRing s s.wcur = true →
    s.availableQuads d < (s.dmac.rbsr.toNat + 16) / 16 ∧ (s.availableQuads d = 0 ↔ d = s.wcur) ∧
    s.renorm (d + BitVec.ofNat 32 (16 * s.availableQuads d)) = s.wcur

/-- R106: an entry that moves data of the ring, in every case: within the top or across it, a leg taken whole or in part,
to the consumer or into the Packet FIFO, a leg's start unmapped; the post-pass and the reschedule after it. And R112: where
a well-formed ring's transfer asks for more than is available and crosses the limit, and the consumer takes everything, it
moves exactly what is available, in two legs, and ends at the write cursor. -/
def Obligations.RingTransferMovesAvailable : Prop :=
  (∀ s p m : State, Enters s p → routed p = true → p.fifo.occ = 0 → p.ch.qwc ≠ 0 → inRing p p.ch.madr = true →
    availableAt p p.ch.madr ≠ 0 → ringReads p = true → m = ringMoved p →
    exec .handlerEntry s = .next (rescheduled (delay p (m.eng.mcyc - p.eng.mcyc)) (passed m))) ∧
  (∀ (s p : State) (av untilEnd : Nat) (a b : Answer) (rest : List Answer),
    Enters s p → routed p = true → p.ringWellFormed = true → p.fifo.occ = 0 → p.fifoEmu = false →
    aligned p.ch.madr = true → aligned p.wcur = true → inRing p p.ch.madr = true → inRing p p.wcur = true →
    p.wcur.toNat < p.ch.madr.toNat → p.dmac.rbor.toNat < p.wcur.toNat →
    av = availableAt p p.ch.madr → av < p.ch.qwc.toNat → untilEnd = (limit p - p.ch.madr).toNat / 16 →
    runResolves p p.ch.madr untilEnd = true → runResolves p p.dmac.rbor (av - untilEnd) = true →
    p.script = a :: b :: rest → 16 * untilEnd ≤ a.consumed → 16 * (av - untilEnd) ≤ b.consumed →
    quiet b.after p.vif = true →
    untilEnd < av ∧
    ∃ u, exec .handlerEntry s = .next u ∧ u.ch.qwc = p.ch.qwc - BitVec.ofNat 16 av ∧ u.ch.madr = p.wcur ∧
      u.ch.tadr = renorm p p.ch.tadr ∧ u.eng.mcyc = p.eng.mcyc + p.cfg.cycPerQw * av ∧ u.eng.cyc = p.eng.cyc ∧
      u.out = p.out ++ [.transfer .dma (bytesAt p p.ch.madr (16 * untilEnd)) (16 * untilEnd),
        .transfer .dma (bytesAt p p.dmac.rbor (16 * (av - untilEnd))) (16 * (av - untilEnd)),
        .reschedule (delay p (p.cfg.cycPerQw * av)) .mfifo])

/-- R105, R108: the MFIFO variant that finds nothing available, before a tag fetch or before a ring transfer, marks the
engine EMPTY, raises MFIFO_EMPTY, and ends Idle without a request; and no tag is read either where a fetch is a step of its
own (log 9). -/
def Obligations.RingEmptyIdles : Prop :=
  (∀ s p : State, Enters s p → routed p = true → p.fifo.occ = 0 →
    ((tagWanted p = true ∧ availableAt p p.ch.tadr = 0) ∨
      (p.ch.qwc ≠ 0 ∧ inRing p p.ch.madr = true ∧ availableAt p p.ch.madr = 0)) →
    exec .handlerEntry s = .next (ringEmptied p)) ∧
  (∀ s : State, tagWanted s = true → tagThere s = false → walk s = .next (ringEmptied s))

/-- R110: the writer's cursor moves, and a routed, running channel that found the ring empty is woken. That a move in a
running channel is one that measures the writer's lead is the model's choice (`lead`, log 33). -/
def Obligations.WriterAdvanceEffect : Prop :=
  ∀ (w : Addr) (s : State),
    exec (.writerAdvance w) s = .next
      (if routed s && s.ch.chcr.str && s.eng.state == .empty then
        { s with wcur := w, lead := .kept, out := s.out ++ [.reschedule s.cfg.minDelay.val .mfifo]
                 sched.entry := some { delay := s.cfg.minDelay.val, chan := .mfifo }, ret := .unit }
      else { s with wcur := w, lead := if s.ch.chcr.str then .kept else s.lead, ret := .unit })

/-! Persistence and whole-machine rules. -/

/-- R141: a snapshot holds the engine, the FIFO and the diagnostic set and changes nothing; restoring it puts exactly these
back, into any later state, and right after it leaves the state as it was. -/
def Obligations.SnapshotRestore : Prop :=
  ∀ s u : State,
    exec .snapshot s = .next { s with ret := .saved { eng := s.eng, fifo := s.fifo, diag := s.diag } } ∧
    exec (.restore { eng := s.eng, fifo := s.fifo, diag := s.diag }) u = .next
      { u with eng := s.eng, fifo := s.fifo, diag := s.diag, ret := .unit } ∧
    exec (.restore { eng := s.eng, fifo := s.fifo, diag := s.diag })
      { s with ret := .saved { eng := s.eng, fifo := s.fifo, diag := s.diag } } = .next { s with ret := .unit }

/-- R43: no operation writes main memory. -/
def Obligations.MemoryNeverWritten : Prop :=
  ∀ (i : Instr) (s u : State), exec i s = .next u → u.mem = s.mem ∧ ∀ a, u.mem.read a = s.mem.read a

/-- R20, R31, R33: what the block reads and never writes: the controller's shared registers, the parameters, VGW, the VIF's
pending report, FIFO_EMU, the control bits MOD, TIE, DIR and TTE; the write cursor moves only with its writer. -/
def Obligations.OthersStateKept : Prop :=
  ∀ (i : Instr) (s u : State), exec i s = .next u →
    u.dmac = s.dmac ∧ u.cfg = s.cfg ∧ u.vif = s.vif ∧ u.fifoEmu = s.fifoEmu ∧
    u.ch.chcr.mod = s.ch.chcr.mod ∧ u.ch.chcr.tie = s.ch.chcr.tie ∧ u.ch.chcr.dir = s.ch.chcr.dir ∧
    u.ch.chcr.tte = s.ch.chcr.tte ∧ (u.wcur = s.wcur ∨ i = .writerAdvance u.wcur)

/-- R21: STR is never set, and cleared only by Cancel, or by an entry that completes or aborts. -/
def Obligations.StrOnlyCleared : Prop :=
  ∀ (i : Instr) (s u : State), exec i s = .next u →
    (u.ch.chcr.str = true → s.ch.chcr.str = true) ∧
    (s.ch.chcr.str = true → u.ch.chcr.str = false →
      i = .cancel ∨ (i = .handlerEntry ∧ (u.ret = .outcome .complete ∨ u.ret = .outcome (.abort .unmappedTag))))

/-- R35: no operation but Restore takes a kind out of the diagnostic set. -/
def Obligations.DiagSticky : Prop :=
  ∀ (i : Instr) (s u : State) (k : DiagKind), (∀ b, i ≠ .restore b) → exec i s = .next u →
    diagHas s.diag k = true → diagHas u.diag k = true

/-- R20: the address-stack pointer stays within the stack's two slots, over every operation. -/
def Obligations.StackPointerLegal : Prop :=
  ∀ (i : Instr) (s u : State), s.ch.chcr.asp.toNat ≤ 2 → exec i s = .next u → u.ch.chcr.asp.toNat ≤ 2

/-- R46: every operation keeps every address a multiple of 16, where the writer's new cursor is one. -/
def Obligations.AlignmentKept : Prop :=
  ∀ (i : Instr) (s u : State), addressesAligned s = true → (∀ w, i = .writerAdvance w → aligned w = true) →
    exec i s = .next u → addressesAligned u = true

/-- Every step, of the block or of another agent, keeps memory's canonical form (the model's own, log 1) and the FIFO's
invariants R29. -/
def Obligations.StepKeepsInvariant : Prop :=
  ∀ s t : State, s.inv = true → step s = .next t → t.inv = true

/-! Encodings. -/

/-- R59, R63, R68: decoding the sixteen bytes of an encoded tag gives the tag, every field at every value, and leaves the
bytes after it. -/
def Obligations.DecodeEncode : Prop :=
  ∀ (m : TagIdMap) (i : Instr) (q : Quad) (rest : List Byte), m.wellFormed = true → encode m i = some q →
    decode m (bytesOfQuad q ++ rest) = .ok (i, rest)

/-- The other direction: what decodes is the encoding of what it decodes to. -/
def Obligations.EncodeDecode : Prop :=
  ∀ (m : TagIdMap) (bytes rest : List Byte) (i : Instr), decode m bytes = .ok (i, rest) →
    ∃ q, encode m i = some q ∧ bytes = bytesOfQuad q ++ rest

/-- R62, R68: every sixteen bytes decode to a tag under a well-formed map, and fewer do not. -/
def Obligations.EveryTagDecodes : Prop :=
  ∀ (m : TagIdMap) (bytes : List Byte), m.wellFormed = true →
    (16 ≤ bytes.length → ∃ t f, decode m bytes = .ok (Instr.ofTag t f, bytes.drop 16)) ∧
    (bytes.length < 16 → decode m bytes = .error .short)

/-- R63: the encoding of a tag with its unused bits clear, as a 128-bit value and as sixteen bytes in memory. -/
def Obligations.EncodingLayout : Prop :=
  ∀ (m : TagIdMap) (t : TagType) (q : BitVec 16) (i : Bool) (a : Addr) (lo : Word),
    lo = ((BitVec.ofBool i).setWidth 32 <<< 31) ||| ((m.idOf t).setWidth 32 <<< 28) ||| q.setWidth 32 →
    ∃ T, encode m (Instr.ofTag t { qwc := q, spare := 0, pce := 0, irq := i, addr := a, upper := 0 }) = some T ∧
      T = (0 : BitVec 64) ++ a ++ lo ∧
      bytesOfQuad T = wordBytes lo ++ wordBytes a ++ wordBytes 0 ++ wordBytes 0

/-- Words written out from the spec's table of encodings (95_test_vectors.md section 2) decode to the tags they stand
for. -/
def Obligations.TableWordsDecode : Prop :=
  decodeTableWord 64 0x0000000010000002 = some (.cnt { qwc := 2, spare := 0, pce := 0, irq := false, addr := 0, upper := 0 }) ∧
  decodeTableWord 64 0x0000200030000001 = some (.ref { qwc := 1, spare := 0, pce := 0, irq := false, addr := 0x2000, upper := 0 }) ∧
  decodeTableWord 64 0x0000300050000001 = some (.call { qwc := 1, spare := 0, pce := 0, irq := false, addr := 0x3000, upper := 0 }) ∧
  decodeTableWord 64 0x0000000070000001 = some (.endTag { qwc := 1, spare := 0, pce := 0, irq := false, addr := 0, upper := 0 }) ∧
  decodeTableWord 64 0x0000000090000001 = some (.cnt { qwc := 1, spare := 0, pce := 0, irq := true, addr := 0, upper := 0 })

/-- R64: writing a control word gives CHCR the fields at their bits, and packing them gives them back. -/
def Obligations.ControlWordFields : Prop :=
  (∀ (w : Word) (s : State), s.diverged = false →
    step { s with agenda := .writeReg .chcr w :: s.agenda } = .next
      { s with ch.chcr := { dir := w.getLsbD 0, mod := w.extractLsb' 2 2, asp := w.extractLsb' 4 2, tte := w.getLsbD 6
                            tie := w.getLsbD 7, str := w.getLsbD 8, tag := w.extractLsb' 16 16 } }) ∧
  (∀ c : Chcr, unpackChcr (packChcr c) = c)

/-! The step. -/

/-- A step runs the decoded instruction: the tag whose bytes stand at TADR when its fetch is next, which in MFIFO mode the
ring must have (R108); the operation an agent invokes; and the handler entry that is pending when the scheduler delivers it or
no agent moves (00_scope.md R18; 41_chain_tags.md R79; 60_exceptions.md R138). With no tag due the fetch is the loop that ends
at once (45_handler.md R124; log 9), and with nothing pending the scheduler has nothing to do (60_exceptions.md R147; log 24).
That the scheduler's slot is cleared before the entry runs is the model's deduction from R138 (log 30). `agenda` and `ret` are
the model's own fields (logs 9, 10, 19). What the step refuses is log 16: two of the duties of R142, with U20, are stated
here, the ring writer that overruns the drain, or has at `DmaStart` (R150, premise 5), in the model's reading (log 33), and
the stall source that lowers STADR while the channel is stalled (log 32). -/
def Obligations.StepRunsDecoded : Prop :=
  (∀ (s : State) (i : Instr) (rest : List Byte), s.diverged = false → tagWanted s = true → tagThere s = true →
    s.mapped s.ch.tadr = true → runResolves s s.ch.tadr 1 = true →
    decode s.cfg.tagIds (bytesAt s s.ch.tadr 16) = .ok (i, rest) →
    step { s with agenda := .walk :: s.agenda } = exec i (atTag s)) ∧
  (∀ s : State, s.diverged = false → tagWanted s = false →
    step { s with agenda := .walk :: s.agenda } = .next { s with ret := .fetch .ok }) ∧
  (∀ (s : State) (i : Instr), s.diverged = false → i.tag? = none → i.wellFormed = true →
    (i = .fifoInit → s.ch.chcr.str = false) →
    (i = .dmaStart → s.ch.chcr.str = true ∧ s.cfg.tagIds.wellFormed = true ∧ ¬ overfullAtLaunch s) →
    (∀ w, i = .writerAdvance w → ¬ overruns s w) →
    step { s with agenda := .call i :: s.agenda } = exec i s) ∧
  (∀ (s : State) (e : PendingEntry), s.diverged = false → s.sched.entry = some e →
    (s.agenda = [] → step s = exec .handlerEntry { s with sched.entry := none }) ∧
    step { s with agenda := .deliver :: s.agenda } = exec .handlerEntry { s with sched.entry := none }) ∧
  (∀ s : State, s.diverged = false → s.sched.entry = none →
    (s.agenda = [] → step s = .next s) ∧ step { s with agenda := .deliver :: s.agenda } = .next s) ∧
  (∀ (s : State) (w : Addr), s.diverged = false → overruns s w →
    step { s with agenda := .call (.writerAdvance w) :: s.agenda } = .refused (.noSuchHostMove .writerOverrun)) ∧
  (∀ s : State, s.diverged = false → s.cfg.tagIds.wellFormed = true → s.ch.chcr.str = true → overfullAtLaunch s →
    step { s with agenda := .call .dmaStart :: s.agenda } = .refused (.noSuchHostMove .writerOverrun)) ∧
  (∀ (s : State) (v : Word), s.diverged = false →
    step { s with agenda := .writeReg .stadr v :: s.agenda } =
      if s.stalled = true ∧ s.ch.chcr.str = true ∧ v.toNat < s.dmac.stadr.toNat then
        .refused (.noSuchHostMove .stadrLowered)
      else .next { s with dmac.stadr := v })

/-- R123, R124, R125, R108: what a handler entry does when a tag is due. It runs the tags at TADR as `exec` runs them: in the
direct variant one after another until one has data, is terminal, stalls or cannot be read (`walked`; none at all where no
tag is due), in the MFIFO variant one; then it moves the segment that is set up, by the closed forms of the transfers, runs
the post-pass, and reschedules for the work done since the entry's start; a stall raises STALL and reschedules, an unmapped
tag ends the DMA. An MFIFO entry with nothing to fetch, to move or to finish reschedules. The chain loop within is the one a
step would run. -/
def Obligations.HandlerRunsTags : Prop :=
  (∀ (s p t : State) (n : Nat) (r : FetchResult), Enters s p → routed p = false → p.fifo.occ = 0 →
    (p.ch.qwc ≠ 0 ∨ p.eng.done = false) → (∀ k, p.cfg.loopFuel = some k → n ≤ k) → n ≤ 2 ^ 98 → walked n p = some (t, r) →
    (r = .stalled → t.out = p.out ++ [.line .stall] ∧
      exec .handlerEntry s = .next (rescheduled (delay p (t.eng.cyc - p.eng.cyc)) t)) ∧
    (r = .fail → exec .handlerEntry s = .next { t with ret := .outcome (.abort .unmappedTag) }) ∧
    (r = .ok → t.ch.qwc = 0 →
      exec .handlerEntry s = .next (rescheduled (delay p (t.eng.cyc - p.eng.cyc)) (passed t))) ∧
    (r = .ok → t.ch.qwc ≠ 0 → segmentReads t = true → ∀ m, m = segmentMoved t →
      exec .handlerEntry s = .next (rescheduled (delay p (m.eng.cyc - p.eng.cyc)) (passed m)))) ∧
  (∀ (s p t : State) (r : FetchResult), Enters s p → routed p = true → p.fifo.occ = 0 → tagWanted p = true →
    tagThere p = true → fetchOne (atTag p) = some (t, r) →
    (r = .stalled → t.out = p.out ++ [.line .stall] ∧
      exec .handlerEntry s = .next (rescheduled (delay p (t.eng.mcyc - p.eng.mcyc)) t)) ∧
    (r = .fail → exec .handlerEntry s = .next { t with ret := .outcome (.abort .unmappedTag) }) ∧
    (r = .ok → t.ch.qwc = 0 → t.eng.done = false →
      exec .handlerEntry s = .next (rescheduled (delay p (t.eng.mcyc - p.eng.mcyc)) t)) ∧
    (r = .ok → t.ch.qwc = 0 → t.eng.done = true → exec .handlerEntry s = .next (finalized t)) ∧
    (r = .ok → t.ch.qwc ≠ 0 → inRing t t.ch.madr = false → segmentReads t = true → ∀ m, m = segmentMoved t →
      exec .handlerEntry s = .next (rescheduled (delay p (m.eng.mcyc - p.eng.mcyc)) (passed m))) ∧
    (r = .ok → t.ch.qwc ≠ 0 → inRing t t.ch.madr = true → availableAt t t.ch.madr = 0 →
      exec .handlerEntry s = .next (ringEmptied t)) ∧
    (r = .ok → t.ch.qwc ≠ 0 → inRing t t.ch.madr = true → availableAt t t.ch.madr ≠ 0 → ringReads t = true →
      ∀ m, m = ringMoved t →
      exec .handlerEntry s = .next (rescheduled (delay p (m.eng.mcyc - p.eng.mcyc)) (passed m)))) ∧
  (∀ s p : State, Enters s p → routed p = true → p.fifo.occ = 0 → p.ch.chcr.mod ≠ 1 → p.ch.qwc = 0 → p.eng.done = false →
    exec .handlerEntry s = .next (rescheduled p.cfg.minDelay.val p)) ∧
  (∀ (s u : State) (n : Nat), routed s = false → tagWanted s = true → walk s = .next u → u.ret = .fetch .ok →
    chainLoop .cyc (n + 1) s = chainLoop .cyc n { u with ret := s.ret })
end

