-- ==== Sys2Proof/Laws/Encoding.lean ====
section
/-! SUPPORT. The small laws of the byte, field and type-number conversions that decoding and encoding are made of. -/

namespace Sys2Proof

/-- A little-endian number is below the weight past its last byte. -/
theorem leNat_lt : ∀ bs : List Byte, leNat bs < 256 ^ bs.length
  | [] => by simp [leNat]
  | b :: bs => by
    have := leNat_lt bs
    have hb := b.isLt
    simp only [leNat, List.length_cons, Nat.pow_succ]; omega

/-- `n` low bytes of a number read back give it modulo their weight. -/
theorem leNat_leBytes : ∀ n v : Nat, leNat (leBytes n v) = v % 256 ^ n
  | 0, v => by simp [leBytes, leNat, Nat.mod_one]
  | n + 1, v => by
    simp only [leBytes, leNat, leNat_leBytes n, BitVec.toNat_ofNat]
    rw [show 256 ^ (n + 1) = 256 * 256 ^ n by ring, Nat.mod_mul]

@[simp] theorem leBytes_length : ∀ n v : Nat, (leBytes n v).length = n
  | 0, _ => rfl
  | n + 1, v => by simp [leBytes, leBytes_length n]

/-- The bytes of the number some bytes hold are those bytes. -/
theorem leBytes_leNat : ∀ bs : List Byte, leBytes bs.length (leNat bs) = bs
  | [] => rfl
  | b :: bs => by
    simp only [List.length_cons, leBytes, leNat]
    rw [show (b.toNat + 256 * leNat bs) / 256 = leNat bs by have := b.isLt; omega, leBytes_leNat bs]
    congr 1
    apply BitVec.eq_of_toNat_eq
    have := b.isLt
    simp; omega

theorem leNat_append : ∀ a b : List Byte, leNat (a ++ b) = leNat a + 256 ^ a.length * leNat b
  | [], b => by simp [leNat]
  | x :: a, b => by simp only [List.cons_append, leNat, leNat_append a b, List.length_cons, Nat.pow_succ]; ring

/-- A quadword's bytes hold the quadword. -/
theorem quadOfBytes_bytesOfQuad (q : Quad) : quadOfBytes (bytesOfQuad q) = q := by
  simp only [quadOfBytes, bytesOfQuad, leNat_leBytes]
  apply BitVec.eq_of_toNat_eq
  have := q.isLt
  simp only [BitVec.toNat_ofNat]; omega

/-- Sixteen bytes are the bytes of the quadword they hold. -/
theorem bytesOfQuad_quadOfBytes (bs : List Byte) (h : bs.length = 16) : bytesOfQuad (quadOfBytes bs) = bs := by
  have hl := leNat_lt bs
  rw [h] at hl
  simp only [bytesOfQuad, quadOfBytes, BitVec.toNat_ofNat]
  rw [Nat.mod_eq_of_lt (by norm_num at hl ⊢; exact hl), ← h, leBytes_leNat]

/-- The fields read from an encoded tag are the fields it was made of. -/
theorem tagFieldsOf_encodeTag (m : TagIdMap) (t : TagType) (f : TagFields) : tagFieldsOf (encodeTag m t f) = f := by
  obtain ⟨q, sp, p, i, a, u⟩ := f
  simp only [tagFieldsOf, encodeTag, tagHi16, TagFields.mk.injEq]
  refine ⟨?_, ?_, ?_, ?_, ?_, ?_⟩
  all_goals first
    | (apply BitVec.eq_of_getLsbD_eq; intro j hj
       simp only [BitVec.getLsbD_extractLsb', BitVec.getLsbD_append]; interval_cases j <;> simp)
    | (simp only [BitVec.getLsbD_append]; simp)

/-- The ID read from an encoded tag is its type's. -/
theorem tagIdOf_encodeTag (m : TagIdMap) (t : TagType) (f : TagFields) : tagIdOf (encodeTag m t f) = m.idOf t := by
  apply BitVec.eq_of_getLsbD_eq; intro j hj
  simp only [tagIdOf, encodeTag, tagHi16, BitVec.getLsbD_extractLsb', BitVec.getLsbD_append]; interval_cases j <;> simp

/-- A well-formed map gives back the type whose number it is. -/
theorem TagIdMap.typeOf_idOf (m : TagIdMap) (h : m.wellFormed = true) (t : TagType) : m.typeOf (m.idOf t) = some t := by
  obtain ⟨a, b, c, d, e, f, g, i⟩ := m
  simp only [TagIdMap.wellFormed, Bool.and_eq_true, decide_eq_true_eq, List.nodup_cons, List.mem_cons, not_or] at h
  obtain ⟨⟨h1, h2, h3, h4, h5, h6, h7, -⟩, -⟩ := h
  have hb : ∀ x y : BitVec 3, ¬ x = y → (x == y) = false := by simp
  cases t <;> simp only [TagIdMap.typeOf, TagIdMap.idOf, List.find?_cons] <;> simp [hb, h1, h2, h3, h4, h5, h6, h7]

/-- A type that a number selects has that number. -/
theorem TagIdMap.idOf_of_typeOf (m : TagIdMap) (id : BitVec 3) (t : TagType) (h : m.typeOf id = some t) : m.idOf t = id := by
  simpa using List.find?_some h

@[simp] theorem Instr.tag?_ofTag (t : TagType) (f : TagFields) : (Instr.ofTag t f).tag? = some (t, f) := by cases t <;> rfl

theorem Instr.eq_ofTag (i : Instr) (t : TagType) (f : TagFields) (h : i.tag? = some (t, f)) : i = Instr.ofTag t f := by
  cases i <;> simp [Instr.tag?] at h <;> obtain ⟨rfl, rfl⟩ := h <;> rfl

end Sys2Proof
end

