-- ==== Sys2Proof/Laws/State.lean ====
section
/-! SUPPORT. One lemma per field per state update: which fields an update leaves alone, and what it writes in the others.
A later proof cites these (they are simp lemmas) and unfolds no record update. -/

namespace Sys2Proof.Machine

@[simp] theorem State.setCh_ch (s : State) (x : Channel) : (s.setCh x).ch = x := rfl
@[simp] theorem State.setCh_eng (s : State) (x : Channel) : (s.setCh x).eng = s.eng := rfl
@[simp] theorem State.setCh_fifo (s : State) (x : Channel) : (s.setCh x).fifo = s.fifo := rfl
@[simp] theorem State.setCh_stalled (s : State) (x : Channel) : (s.setCh x).stalled = s.stalled := rfl
@[simp] theorem State.setCh_lead (s : State) (x : Channel) : (s.setCh x).lead = s.lead := rfl
@[simp] theorem State.setCh_dmac (s : State) (x : Channel) : (s.setCh x).dmac = s.dmac := rfl
@[simp] theorem State.setCh_wcur (s : State) (x : Channel) : (s.setCh x).wcur = s.wcur := rfl
@[simp] theorem State.setCh_gif (s : State) (x : Channel) : (s.setCh x).gif = s.gif := rfl
@[simp] theorem State.setCh_vif (s : State) (x : Channel) : (s.setCh x).vif = s.vif := rfl
@[simp] theorem State.setCh_fifoEmu (s : State) (x : Channel) : (s.setCh x).fifoEmu = s.fifoEmu := rfl
@[simp] theorem State.setCh_diag (s : State) (x : Channel) : (s.setCh x).diag = s.diag := rfl
@[simp] theorem State.setCh_out (s : State) (x : Channel) : (s.setCh x).out = s.out := rfl
@[simp] theorem State.setCh_sched (s : State) (x : Channel) : (s.setCh x).sched = s.sched := rfl
@[simp] theorem State.setCh_mem (s : State) (x : Channel) : (s.setCh x).mem = s.mem := rfl
@[simp] theorem State.setCh_cfg (s : State) (x : Channel) : (s.setCh x).cfg = s.cfg := rfl
@[simp] theorem State.setCh_diverged (s : State) (x : Channel) : (s.setCh x).diverged = s.diverged := rfl
@[simp] theorem State.setCh_ret (s : State) (x : Channel) : (s.setCh x).ret = s.ret := rfl
@[simp] theorem State.setCh_script (s : State) (x : Channel) : (s.setCh x).script = s.script := rfl
@[simp] theorem State.setCh_calls (s : State) (x : Channel) : (s.setCh x).calls = s.calls := rfl
@[simp] theorem State.setCh_agenda (s : State) (x : Channel) : (s.setCh x).agenda = s.agenda := rfl

@[simp] theorem State.setEng_ch (s : State) (x : Engine) : (s.setEng x).ch = s.ch := rfl
@[simp] theorem State.setEng_eng (s : State) (x : Engine) : (s.setEng x).eng = x := rfl
@[simp] theorem State.setEng_fifo (s : State) (x : Engine) : (s.setEng x).fifo = s.fifo := rfl
@[simp] theorem State.setEng_stalled (s : State) (x : Engine) : (s.setEng x).stalled = s.stalled := rfl
@[simp] theorem State.setEng_lead (s : State) (x : Engine) : (s.setEng x).lead = s.lead := rfl
@[simp] theorem State.setEng_dmac (s : State) (x : Engine) : (s.setEng x).dmac = s.dmac := rfl
@[simp] theorem State.setEng_wcur (s : State) (x : Engine) : (s.setEng x).wcur = s.wcur := rfl
@[simp] theorem State.setEng_gif (s : State) (x : Engine) : (s.setEng x).gif = s.gif := rfl
@[simp] theorem State.setEng_vif (s : State) (x : Engine) : (s.setEng x).vif = s.vif := rfl
@[simp] theorem State.setEng_fifoEmu (s : State) (x : Engine) : (s.setEng x).fifoEmu = s.fifoEmu := rfl
@[simp] theorem State.setEng_diag (s : State) (x : Engine) : (s.setEng x).diag = s.diag := rfl
@[simp] theorem State.setEng_out (s : State) (x : Engine) : (s.setEng x).out = s.out := rfl
@[simp] theorem State.setEng_sched (s : State) (x : Engine) : (s.setEng x).sched = s.sched := rfl
@[simp] theorem State.setEng_mem (s : State) (x : Engine) : (s.setEng x).mem = s.mem := rfl
@[simp] theorem State.setEng_cfg (s : State) (x : Engine) : (s.setEng x).cfg = s.cfg := rfl
@[simp] theorem State.setEng_diverged (s : State) (x : Engine) : (s.setEng x).diverged = s.diverged := rfl
@[simp] theorem State.setEng_ret (s : State) (x : Engine) : (s.setEng x).ret = s.ret := rfl
@[simp] theorem State.setEng_script (s : State) (x : Engine) : (s.setEng x).script = s.script := rfl
@[simp] theorem State.setEng_calls (s : State) (x : Engine) : (s.setEng x).calls = s.calls := rfl
@[simp] theorem State.setEng_agenda (s : State) (x : Engine) : (s.setEng x).agenda = s.agenda := rfl

@[simp] theorem State.setFifo_ch (s : State) (x : PacketFifo) : (s.setFifo x).ch = s.ch := rfl
@[simp] theorem State.setFifo_eng (s : State) (x : PacketFifo) : (s.setFifo x).eng = s.eng := rfl
@[simp] theorem State.setFifo_fifo (s : State) (x : PacketFifo) : (s.setFifo x).fifo = x := rfl
@[simp] theorem State.setFifo_stalled (s : State) (x : PacketFifo) : (s.setFifo x).stalled = s.stalled := rfl
@[simp] theorem State.setFifo_lead (s : State) (x : PacketFifo) : (s.setFifo x).lead = s.lead := rfl
@[simp] theorem State.setFifo_dmac (s : State) (x : PacketFifo) : (s.setFifo x).dmac = s.dmac := rfl
@[simp] theorem State.setFifo_wcur (s : State) (x : PacketFifo) : (s.setFifo x).wcur = s.wcur := rfl
@[simp] theorem State.setFifo_gif (s : State) (x : PacketFifo) : (s.setFifo x).gif = s.gif := rfl
@[simp] theorem State.setFifo_vif (s : State) (x : PacketFifo) : (s.setFifo x).vif = s.vif := rfl
@[simp] theorem State.setFifo_fifoEmu (s : State) (x : PacketFifo) : (s.setFifo x).fifoEmu = s.fifoEmu := rfl
@[simp] theorem State.setFifo_diag (s : State) (x : PacketFifo) : (s.setFifo x).diag = s.diag := rfl
@[simp] theorem State.setFifo_out (s : State) (x : PacketFifo) : (s.setFifo x).out = s.out := rfl
@[simp] theorem State.setFifo_sched (s : State) (x : PacketFifo) : (s.setFifo x).sched = s.sched := rfl
@[simp] theorem State.setFifo_mem (s : State) (x : PacketFifo) : (s.setFifo x).mem = s.mem := rfl
@[simp] theorem State.setFifo_cfg (s : State) (x : PacketFifo) : (s.setFifo x).cfg = s.cfg := rfl
@[simp] theorem State.setFifo_diverged (s : State) (x : PacketFifo) : (s.setFifo x).diverged = s.diverged := rfl
@[simp] theorem State.setFifo_ret (s : State) (x : PacketFifo) : (s.setFifo x).ret = s.ret := rfl
@[simp] theorem State.setFifo_script (s : State) (x : PacketFifo) : (s.setFifo x).script = s.script := rfl
@[simp] theorem State.setFifo_calls (s : State) (x : PacketFifo) : (s.setFifo x).calls = s.calls := rfl
@[simp] theorem State.setFifo_agenda (s : State) (x : PacketFifo) : (s.setFifo x).agenda = s.agenda := rfl

@[simp] theorem State.setGif_ch (s : State) (x : Receiver) : (s.setGif x).ch = s.ch := rfl
@[simp] theorem State.setGif_eng (s : State) (x : Receiver) : (s.setGif x).eng = s.eng := rfl
@[simp] theorem State.setGif_fifo (s : State) (x : Receiver) : (s.setGif x).fifo = s.fifo := rfl
@[simp] theorem State.setGif_stalled (s : State) (x : Receiver) : (s.setGif x).stalled = s.stalled := rfl
@[simp] theorem State.setGif_lead (s : State) (x : Receiver) : (s.setGif x).lead = s.lead := rfl
@[simp] theorem State.setGif_dmac (s : State) (x : Receiver) : (s.setGif x).dmac = s.dmac := rfl
@[simp] theorem State.setGif_wcur (s : State) (x : Receiver) : (s.setGif x).wcur = s.wcur := rfl
@[simp] theorem State.setGif_gif (s : State) (x : Receiver) : (s.setGif x).gif = x := rfl
@[simp] theorem State.setGif_vif (s : State) (x : Receiver) : (s.setGif x).vif = s.vif := rfl
@[simp] theorem State.setGif_fifoEmu (s : State) (x : Receiver) : (s.setGif x).fifoEmu = s.fifoEmu := rfl
@[simp] theorem State.setGif_diag (s : State) (x : Receiver) : (s.setGif x).diag = s.diag := rfl
@[simp] theorem State.setGif_out (s : State) (x : Receiver) : (s.setGif x).out = s.out := rfl
@[simp] theorem State.setGif_sched (s : State) (x : Receiver) : (s.setGif x).sched = s.sched := rfl
@[simp] theorem State.setGif_mem (s : State) (x : Receiver) : (s.setGif x).mem = s.mem := rfl
@[simp] theorem State.setGif_cfg (s : State) (x : Receiver) : (s.setGif x).cfg = s.cfg := rfl
@[simp] theorem State.setGif_diverged (s : State) (x : Receiver) : (s.setGif x).diverged = s.diverged := rfl
@[simp] theorem State.setGif_ret (s : State) (x : Receiver) : (s.setGif x).ret = s.ret := rfl
@[simp] theorem State.setGif_script (s : State) (x : Receiver) : (s.setGif x).script = s.script := rfl
@[simp] theorem State.setGif_calls (s : State) (x : Receiver) : (s.setGif x).calls = s.calls := rfl
@[simp] theorem State.setGif_agenda (s : State) (x : Receiver) : (s.setGif x).agenda = s.agenda := rfl

@[simp] theorem State.addDiag_ch (s : State) (k : DiagKind) : (s.addDiag k).ch = s.ch := rfl
@[simp] theorem State.addDiag_eng (s : State) (k : DiagKind) : (s.addDiag k).eng = s.eng := rfl
@[simp] theorem State.addDiag_fifo (s : State) (k : DiagKind) : (s.addDiag k).fifo = s.fifo := rfl
@[simp] theorem State.addDiag_stalled (s : State) (k : DiagKind) : (s.addDiag k).stalled = s.stalled := rfl
@[simp] theorem State.addDiag_lead (s : State) (k : DiagKind) : (s.addDiag k).lead = s.lead := rfl
@[simp] theorem State.addDiag_dmac (s : State) (k : DiagKind) : (s.addDiag k).dmac = s.dmac := rfl
@[simp] theorem State.addDiag_wcur (s : State) (k : DiagKind) : (s.addDiag k).wcur = s.wcur := rfl
@[simp] theorem State.addDiag_gif (s : State) (k : DiagKind) : (s.addDiag k).gif = s.gif := rfl
@[simp] theorem State.addDiag_vif (s : State) (k : DiagKind) : (s.addDiag k).vif = s.vif := rfl
@[simp] theorem State.addDiag_fifoEmu (s : State) (k : DiagKind) : (s.addDiag k).fifoEmu = s.fifoEmu := rfl
@[simp] theorem State.addDiag_diag (s : State) (k : DiagKind) : (s.addDiag k).diag = diagAdd s.diag k := rfl
@[simp] theorem State.addDiag_out (s : State) (k : DiagKind) : (s.addDiag k).out = s.out := rfl
@[simp] theorem State.addDiag_sched (s : State) (k : DiagKind) : (s.addDiag k).sched = s.sched := rfl
@[simp] theorem State.addDiag_mem (s : State) (k : DiagKind) : (s.addDiag k).mem = s.mem := rfl
@[simp] theorem State.addDiag_cfg (s : State) (k : DiagKind) : (s.addDiag k).cfg = s.cfg := rfl
@[simp] theorem State.addDiag_diverged (s : State) (k : DiagKind) : (s.addDiag k).diverged = s.diverged := rfl
@[simp] theorem State.addDiag_ret (s : State) (k : DiagKind) : (s.addDiag k).ret = s.ret := rfl
@[simp] theorem State.addDiag_script (s : State) (k : DiagKind) : (s.addDiag k).script = s.script := rfl
@[simp] theorem State.addDiag_calls (s : State) (k : DiagKind) : (s.addDiag k).calls = s.calls := rfl
@[simp] theorem State.addDiag_agenda (s : State) (k : DiagKind) : (s.addDiag k).agenda = s.agenda := rfl

@[simp] theorem State.emit_ch (s : State) (o : Output) : (s.emit o).ch = s.ch := rfl
@[simp] theorem State.emit_eng (s : State) (o : Output) : (s.emit o).eng = s.eng := rfl
@[simp] theorem State.emit_fifo (s : State) (o : Output) : (s.emit o).fifo = s.fifo := rfl
@[simp] theorem State.emit_stalled (s : State) (o : Output) : (s.emit o).stalled = s.stalled := rfl
@[simp] theorem State.emit_lead (s : State) (o : Output) : (s.emit o).lead = s.lead := rfl
@[simp] theorem State.emit_dmac (s : State) (o : Output) : (s.emit o).dmac = s.dmac := rfl
@[simp] theorem State.emit_wcur (s : State) (o : Output) : (s.emit o).wcur = s.wcur := rfl
@[simp] theorem State.emit_gif (s : State) (o : Output) : (s.emit o).gif = s.gif := rfl
@[simp] theorem State.emit_vif (s : State) (o : Output) : (s.emit o).vif = s.vif := rfl
@[simp] theorem State.emit_fifoEmu (s : State) (o : Output) : (s.emit o).fifoEmu = s.fifoEmu := rfl
@[simp] theorem State.emit_diag (s : State) (o : Output) : (s.emit o).diag = s.diag := rfl
@[simp] theorem State.emit_out (s : State) (o : Output) : (s.emit o).out = s.out ++ [o] := rfl
@[simp] theorem State.emit_sched (s : State) (o : Output) : (s.emit o).sched = s.sched := rfl
@[simp] theorem State.emit_mem (s : State) (o : Output) : (s.emit o).mem = s.mem := rfl
@[simp] theorem State.emit_cfg (s : State) (o : Output) : (s.emit o).cfg = s.cfg := rfl
@[simp] theorem State.emit_diverged (s : State) (o : Output) : (s.emit o).diverged = s.diverged := rfl
@[simp] theorem State.emit_ret (s : State) (o : Output) : (s.emit o).ret = s.ret := rfl
@[simp] theorem State.emit_script (s : State) (o : Output) : (s.emit o).script = s.script := rfl
@[simp] theorem State.emit_calls (s : State) (o : Output) : (s.emit o).calls = s.calls := rfl
@[simp] theorem State.emit_agenda (s : State) (o : Output) : (s.emit o).agenda = s.agenda := rfl

@[simp] theorem State.raise_ch (s : State) (l : IntLine) : (s.raise l).ch = s.ch := rfl
@[simp] theorem State.raise_eng (s : State) (l : IntLine) : (s.raise l).eng = s.eng := rfl
@[simp] theorem State.raise_fifo (s : State) (l : IntLine) : (s.raise l).fifo = s.fifo := rfl
@[simp] theorem State.raise_stalled (s : State) (l : IntLine) : (s.raise l).stalled = s.stalled := rfl
@[simp] theorem State.raise_lead (s : State) (l : IntLine) : (s.raise l).lead = s.lead := rfl
@[simp] theorem State.raise_dmac (s : State) (l : IntLine) : (s.raise l).dmac = s.dmac := rfl
@[simp] theorem State.raise_wcur (s : State) (l : IntLine) : (s.raise l).wcur = s.wcur := rfl
@[simp] theorem State.raise_gif (s : State) (l : IntLine) : (s.raise l).gif = s.gif := rfl
@[simp] theorem State.raise_vif (s : State) (l : IntLine) : (s.raise l).vif = s.vif := rfl
@[simp] theorem State.raise_fifoEmu (s : State) (l : IntLine) : (s.raise l).fifoEmu = s.fifoEmu := rfl
@[simp] theorem State.raise_diag (s : State) (l : IntLine) : (s.raise l).diag = s.diag := rfl
@[simp] theorem State.raise_out (s : State) (l : IntLine) : (s.raise l).out = s.out ++ [.line l] := rfl
@[simp] theorem State.raise_sched (s : State) (l : IntLine) : (s.raise l).sched = s.sched := rfl
@[simp] theorem State.raise_mem (s : State) (l : IntLine) : (s.raise l).mem = s.mem := rfl
@[simp] theorem State.raise_cfg (s : State) (l : IntLine) : (s.raise l).cfg = s.cfg := rfl
@[simp] theorem State.raise_diverged (s : State) (l : IntLine) : (s.raise l).diverged = s.diverged := rfl
@[simp] theorem State.raise_ret (s : State) (l : IntLine) : (s.raise l).ret = s.ret := rfl
@[simp] theorem State.raise_script (s : State) (l : IntLine) : (s.raise l).script = s.script := rfl
@[simp] theorem State.raise_calls (s : State) (l : IntLine) : (s.raise l).calls = s.calls := rfl
@[simp] theorem State.raise_agenda (s : State) (l : IntLine) : (s.raise l).agenda = s.agenda := rfl

@[simp] theorem State.request_ch (s : State) (d : Nat) (c : SchedChan) : (s.request d c).ch = s.ch := rfl
@[simp] theorem State.request_eng (s : State) (d : Nat) (c : SchedChan) : (s.request d c).eng = s.eng := rfl
@[simp] theorem State.request_fifo (s : State) (d : Nat) (c : SchedChan) : (s.request d c).fifo = s.fifo := rfl
@[simp] theorem State.request_stalled (s : State) (d : Nat) (c : SchedChan) : (s.request d c).stalled = s.stalled := rfl
@[simp] theorem State.request_lead (s : State) (d : Nat) (c : SchedChan) : (s.request d c).lead = s.lead := rfl
@[simp] theorem State.request_dmac (s : State) (d : Nat) (c : SchedChan) : (s.request d c).dmac = s.dmac := rfl
@[simp] theorem State.request_wcur (s : State) (d : Nat) (c : SchedChan) : (s.request d c).wcur = s.wcur := rfl
@[simp] theorem State.request_gif (s : State) (d : Nat) (c : SchedChan) : (s.request d c).gif = s.gif := rfl
@[simp] theorem State.request_vif (s : State) (d : Nat) (c : SchedChan) : (s.request d c).vif = s.vif := rfl
@[simp] theorem State.request_fifoEmu (s : State) (d : Nat) (c : SchedChan) : (s.request d c).fifoEmu = s.fifoEmu := rfl
@[simp] theorem State.request_diag (s : State) (d : Nat) (c : SchedChan) : (s.request d c).diag = s.diag := rfl
@[simp] theorem State.request_out (s : State) (d : Nat) (c : SchedChan) : (s.request d c).out = s.out ++ [.reschedule d c] := rfl
@[simp] theorem State.request_sched (s : State) (d : Nat) (c : SchedChan) : (s.request d c).sched = { s.sched with entry := some { delay := d, chan := c } } := rfl
@[simp] theorem State.request_mem (s : State) (d : Nat) (c : SchedChan) : (s.request d c).mem = s.mem := rfl
@[simp] theorem State.request_cfg (s : State) (d : Nat) (c : SchedChan) : (s.request d c).cfg = s.cfg := rfl
@[simp] theorem State.request_diverged (s : State) (d : Nat) (c : SchedChan) : (s.request d c).diverged = s.diverged := rfl
@[simp] theorem State.request_ret (s : State) (d : Nat) (c : SchedChan) : (s.request d c).ret = s.ret := rfl
@[simp] theorem State.request_script (s : State) (d : Nat) (c : SchedChan) : (s.request d c).script = s.script := rfl
@[simp] theorem State.request_calls (s : State) (d : Nat) (c : SchedChan) : (s.request d c).calls = s.calls := rfl
@[simp] theorem State.request_agenda (s : State) (d : Nat) (c : SchedChan) : (s.request d c).agenda = s.agenda := rfl

@[simp] theorem State.nudge_ch (s : State) (d : Nat) : (s.nudge d).ch = s.ch := rfl
@[simp] theorem State.nudge_eng (s : State) (d : Nat) : (s.nudge d).eng = s.eng := rfl
@[simp] theorem State.nudge_fifo (s : State) (d : Nat) : (s.nudge d).fifo = s.fifo := rfl
@[simp] theorem State.nudge_stalled (s : State) (d : Nat) : (s.nudge d).stalled = s.stalled := rfl
@[simp] theorem State.nudge_lead (s : State) (d : Nat) : (s.nudge d).lead = s.lead := rfl
@[simp] theorem State.nudge_dmac (s : State) (d : Nat) : (s.nudge d).dmac = s.dmac := rfl
@[simp] theorem State.nudge_wcur (s : State) (d : Nat) : (s.nudge d).wcur = s.wcur := rfl
@[simp] theorem State.nudge_gif (s : State) (d : Nat) : (s.nudge d).gif = s.gif := rfl
@[simp] theorem State.nudge_vif (s : State) (d : Nat) : (s.nudge d).vif = s.vif := rfl
@[simp] theorem State.nudge_fifoEmu (s : State) (d : Nat) : (s.nudge d).fifoEmu = s.fifoEmu := rfl
@[simp] theorem State.nudge_diag (s : State) (d : Nat) : (s.nudge d).diag = s.diag := rfl
@[simp] theorem State.nudge_out (s : State) (d : Nat) : (s.nudge d).out = s.out ++ [.vifNudge d] := rfl
@[simp] theorem State.nudge_sched (s : State) (d : Nat) : (s.nudge d).sched = { s.sched with vif := some d } := rfl
@[simp] theorem State.nudge_mem (s : State) (d : Nat) : (s.nudge d).mem = s.mem := rfl
@[simp] theorem State.nudge_cfg (s : State) (d : Nat) : (s.nudge d).cfg = s.cfg := rfl
@[simp] theorem State.nudge_diverged (s : State) (d : Nat) : (s.nudge d).diverged = s.diverged := rfl
@[simp] theorem State.nudge_ret (s : State) (d : Nat) : (s.nudge d).ret = s.ret := rfl
@[simp] theorem State.nudge_script (s : State) (d : Nat) : (s.nudge d).script = s.script := rfl
@[simp] theorem State.nudge_calls (s : State) (d : Nat) : (s.nudge d).calls = s.calls := rfl
@[simp] theorem State.nudge_agenda (s : State) (d : Nat) : (s.nudge d).agenda = s.agenda := rfl

@[simp] theorem State.takeEntry_ch (s : State) : s.takeEntry.ch = s.ch := rfl
@[simp] theorem State.takeEntry_eng (s : State) : s.takeEntry.eng = s.eng := rfl
@[simp] theorem State.takeEntry_fifo (s : State) : s.takeEntry.fifo = s.fifo := rfl
@[simp] theorem State.takeEntry_stalled (s : State) : s.takeEntry.stalled = s.stalled := rfl
@[simp] theorem State.takeEntry_lead (s : State) : s.takeEntry.lead = s.lead := rfl
@[simp] theorem State.takeEntry_dmac (s : State) : s.takeEntry.dmac = s.dmac := rfl
@[simp] theorem State.takeEntry_wcur (s : State) : s.takeEntry.wcur = s.wcur := rfl
@[simp] theorem State.takeEntry_gif (s : State) : s.takeEntry.gif = s.gif := rfl
@[simp] theorem State.takeEntry_vif (s : State) : s.takeEntry.vif = s.vif := rfl
@[simp] theorem State.takeEntry_fifoEmu (s : State) : s.takeEntry.fifoEmu = s.fifoEmu := rfl
@[simp] theorem State.takeEntry_diag (s : State) : s.takeEntry.diag = s.diag := rfl
@[simp] theorem State.takeEntry_out (s : State) : s.takeEntry.out = s.out := rfl
@[simp] theorem State.takeEntry_sched (s : State) : s.takeEntry.sched = { s.sched with entry := none } := rfl
@[simp] theorem State.takeEntry_mem (s : State) : s.takeEntry.mem = s.mem := rfl
@[simp] theorem State.takeEntry_cfg (s : State) : s.takeEntry.cfg = s.cfg := rfl
@[simp] theorem State.takeEntry_diverged (s : State) : s.takeEntry.diverged = s.diverged := rfl
@[simp] theorem State.takeEntry_ret (s : State) : s.takeEntry.ret = s.ret := rfl
@[simp] theorem State.takeEntry_script (s : State) : s.takeEntry.script = s.script := rfl
@[simp] theorem State.takeEntry_calls (s : State) : s.takeEntry.calls = s.calls := rfl
@[simp] theorem State.takeEntry_agenda (s : State) : s.takeEntry.agenda = s.agenda := rfl

@[simp] theorem State.returning_ch (s : State) (r : Returned) : (s.returning r).ch = s.ch := rfl
@[simp] theorem State.returning_eng (s : State) (r : Returned) : (s.returning r).eng = s.eng := rfl
@[simp] theorem State.returning_fifo (s : State) (r : Returned) : (s.returning r).fifo = s.fifo := rfl
@[simp] theorem State.returning_stalled (s : State) (r : Returned) : (s.returning r).stalled = s.stalled := rfl
@[simp] theorem State.returning_lead (s : State) (r : Returned) : (s.returning r).lead = s.lead := rfl
@[simp] theorem State.returning_dmac (s : State) (r : Returned) : (s.returning r).dmac = s.dmac := rfl
@[simp] theorem State.returning_wcur (s : State) (r : Returned) : (s.returning r).wcur = s.wcur := rfl
@[simp] theorem State.returning_gif (s : State) (r : Returned) : (s.returning r).gif = s.gif := rfl
@[simp] theorem State.returning_vif (s : State) (r : Returned) : (s.returning r).vif = s.vif := rfl
@[simp] theorem State.returning_fifoEmu (s : State) (r : Returned) : (s.returning r).fifoEmu = s.fifoEmu := rfl
@[simp] theorem State.returning_diag (s : State) (r : Returned) : (s.returning r).diag = s.diag := rfl
@[simp] theorem State.returning_out (s : State) (r : Returned) : (s.returning r).out = s.out := rfl
@[simp] theorem State.returning_sched (s : State) (r : Returned) : (s.returning r).sched = s.sched := rfl
@[simp] theorem State.returning_mem (s : State) (r : Returned) : (s.returning r).mem = s.mem := rfl
@[simp] theorem State.returning_cfg (s : State) (r : Returned) : (s.returning r).cfg = s.cfg := rfl
@[simp] theorem State.returning_diverged (s : State) (r : Returned) : (s.returning r).diverged = s.diverged := rfl
@[simp] theorem State.returning_ret (s : State) (r : Returned) : (s.returning r).ret = r := rfl
@[simp] theorem State.returning_script (s : State) (r : Returned) : (s.returning r).script = s.script := rfl
@[simp] theorem State.returning_calls (s : State) (r : Returned) : (s.returning r).calls = s.calls := rfl
@[simp] theorem State.returning_agenda (s : State) (r : Returned) : (s.returning r).agenda = s.agenda := rfl

@[simp] theorem State.callReceiver_ch (s : State) (o : Output) : (s.callReceiver o).ch = s.ch := rfl
@[simp] theorem State.callReceiver_eng (s : State) (o : Output) : (s.callReceiver o).eng = s.eng := rfl
@[simp] theorem State.callReceiver_fifo (s : State) (o : Output) : (s.callReceiver o).fifo = s.fifo := rfl
@[simp] theorem State.callReceiver_stalled (s : State) (o : Output) : (s.callReceiver o).stalled = s.stalled := rfl
@[simp] theorem State.callReceiver_lead (s : State) (o : Output) : (s.callReceiver o).lead = s.lead := rfl
@[simp] theorem State.callReceiver_dmac (s : State) (o : Output) : (s.callReceiver o).dmac = s.dmac := rfl
@[simp] theorem State.callReceiver_wcur (s : State) (o : Output) : (s.callReceiver o).wcur = s.wcur := rfl
@[simp] theorem State.callReceiver_gif (s : State) (o : Output) : (s.callReceiver o).gif = s.nextAnswer.after := rfl
@[simp] theorem State.callReceiver_vif (s : State) (o : Output) : (s.callReceiver o).vif = s.vif := rfl
@[simp] theorem State.callReceiver_fifoEmu (s : State) (o : Output) : (s.callReceiver o).fifoEmu = s.fifoEmu := rfl
@[simp] theorem State.callReceiver_diag (s : State) (o : Output) : (s.callReceiver o).diag = s.diag := rfl
@[simp] theorem State.callReceiver_out (s : State) (o : Output) : (s.callReceiver o).out = s.out ++ [o] := rfl
@[simp] theorem State.callReceiver_sched (s : State) (o : Output) : (s.callReceiver o).sched = s.sched := rfl
@[simp] theorem State.callReceiver_mem (s : State) (o : Output) : (s.callReceiver o).mem = s.mem := rfl
@[simp] theorem State.callReceiver_cfg (s : State) (o : Output) : (s.callReceiver o).cfg = s.cfg := rfl
@[simp] theorem State.callReceiver_diverged (s : State) (o : Output) : (s.callReceiver o).diverged = s.diverged := rfl
@[simp] theorem State.callReceiver_ret (s : State) (o : Output) : (s.callReceiver o).ret = s.ret := rfl
@[simp] theorem State.callReceiver_script (s : State) (o : Output) : (s.callReceiver o).script = s.script.tail := rfl
@[simp] theorem State.callReceiver_calls (s : State) (o : Output) : (s.callReceiver o).calls = s.calls + 1 := rfl
@[simp] theorem State.callReceiver_agenda (s : State) (o : Output) : (s.callReceiver o).agenda = s.agenda := rfl

@[simp] theorem State.callExecute_ch (s : State) (b c : Bool) : (s.callExecute b c).ch = s.ch := rfl
@[simp] theorem State.callExecute_eng (s : State) (b c : Bool) : (s.callExecute b c).eng = s.eng := rfl
@[simp] theorem State.callExecute_fifo (s : State) (b c : Bool) : (s.callExecute b c).fifo = s.fifo := rfl
@[simp] theorem State.callExecute_stalled (s : State) (b c : Bool) : (s.callExecute b c).stalled = s.stalled := rfl
@[simp] theorem State.callExecute_lead (s : State) (b c : Bool) : (s.callExecute b c).lead = s.lead := rfl
@[simp] theorem State.callExecute_dmac (s : State) (b c : Bool) : (s.callExecute b c).dmac = s.dmac := rfl
@[simp] theorem State.callExecute_wcur (s : State) (b c : Bool) : (s.callExecute b c).wcur = s.wcur := rfl
@[simp] theorem State.callExecute_gif (s : State) (b c : Bool) : (s.callExecute b c).gif = s.nextAnswer.after := rfl
@[simp] theorem State.callExecute_vif (s : State) (b c : Bool) : (s.callExecute b c).vif = s.vif := rfl
@[simp] theorem State.callExecute_fifoEmu (s : State) (b c : Bool) : (s.callExecute b c).fifoEmu = s.fifoEmu := rfl
@[simp] theorem State.callExecute_diag (s : State) (b c : Bool) : (s.callExecute b c).diag = s.diag := rfl
@[simp] theorem State.callExecute_out (s : State) (b c : Bool) : (s.callExecute b c).out = s.out ++ [.execute b c] := rfl
@[simp] theorem State.callExecute_sched (s : State) (b c : Bool) : (s.callExecute b c).sched = s.sched := rfl
@[simp] theorem State.callExecute_mem (s : State) (b c : Bool) : (s.callExecute b c).mem = s.mem := rfl
@[simp] theorem State.callExecute_cfg (s : State) (b c : Bool) : (s.callExecute b c).cfg = s.cfg := rfl
@[simp] theorem State.callExecute_diverged (s : State) (b c : Bool) : (s.callExecute b c).diverged = s.diverged := rfl
@[simp] theorem State.callExecute_ret (s : State) (b c : Bool) : (s.callExecute b c).ret = s.ret := rfl
@[simp] theorem State.callExecute_script (s : State) (b c : Bool) : (s.callExecute b c).script = s.script.tail := rfl
@[simp] theorem State.callExecute_calls (s : State) (b c : Bool) : (s.callExecute b c).calls = s.calls + 1 := rfl
@[simp] theorem State.callExecute_agenda (s : State) (b c : Bool) : (s.callExecute b c).agenda = s.agenda := rfl

@[simp] theorem State.charge_ch (s : State) (a : Acc) (n : Nat) : (s.charge a n).ch = s.ch := by cases a <;> rfl
@[simp] theorem State.charge_fifo (s : State) (a : Acc) (n : Nat) : (s.charge a n).fifo = s.fifo := by cases a <;> rfl
@[simp] theorem State.charge_stalled (s : State) (a : Acc) (n : Nat) : (s.charge a n).stalled = s.stalled := by cases a <;> rfl
@[simp] theorem State.charge_lead (s : State) (a : Acc) (n : Nat) : (s.charge a n).lead = s.lead := by cases a <;> rfl
@[simp] theorem State.charge_dmac (s : State) (a : Acc) (n : Nat) : (s.charge a n).dmac = s.dmac := by cases a <;> rfl
@[simp] theorem State.charge_wcur (s : State) (a : Acc) (n : Nat) : (s.charge a n).wcur = s.wcur := by cases a <;> rfl
@[simp] theorem State.charge_gif (s : State) (a : Acc) (n : Nat) : (s.charge a n).gif = s.gif := by cases a <;> rfl
@[simp] theorem State.charge_vif (s : State) (a : Acc) (n : Nat) : (s.charge a n).vif = s.vif := by cases a <;> rfl
@[simp] theorem State.charge_fifoEmu (s : State) (a : Acc) (n : Nat) : (s.charge a n).fifoEmu = s.fifoEmu := by cases a <;> rfl
@[simp] theorem State.charge_diag (s : State) (a : Acc) (n : Nat) : (s.charge a n).diag = s.diag := by cases a <;> rfl
@[simp] theorem State.charge_out (s : State) (a : Acc) (n : Nat) : (s.charge a n).out = s.out := by cases a <;> rfl
@[simp] theorem State.charge_sched (s : State) (a : Acc) (n : Nat) : (s.charge a n).sched = s.sched := by cases a <;> rfl
@[simp] theorem State.charge_mem (s : State) (a : Acc) (n : Nat) : (s.charge a n).mem = s.mem := by cases a <;> rfl
@[simp] theorem State.charge_cfg (s : State) (a : Acc) (n : Nat) : (s.charge a n).cfg = s.cfg := by cases a <;> rfl
@[simp] theorem State.charge_diverged (s : State) (a : Acc) (n : Nat) : (s.charge a n).diverged = s.diverged := by cases a <;> rfl
@[simp] theorem State.charge_ret (s : State) (a : Acc) (n : Nat) : (s.charge a n).ret = s.ret := by cases a <;> rfl
@[simp] theorem State.charge_script (s : State) (a : Acc) (n : Nat) : (s.charge a n).script = s.script := by cases a <;> rfl
@[simp] theorem State.charge_calls (s : State) (a : Acc) (n : Nat) : (s.charge a n).calls = s.calls := by cases a <;> rfl
@[simp] theorem State.charge_agenda (s : State) (a : Acc) (n : Nat) : (s.charge a n).agenda = s.agenda := by cases a <;> rfl
@[simp] theorem State.charge_eng (s : State) (a : Acc) (n : Nat) :
    (s.charge a n).eng = match a with
      | .cyc => { s.eng with cyc := s.eng.cyc + n }
      | .mcyc => { s.eng with mcyc := s.eng.mcyc + n } := by cases a <;> rfl
@[simp] theorem State.charge_acc (s : State) (a : Acc) (n : Nat) : (s.charge a n).acc a = s.acc a + n := by
  cases a <;> rfl

@[simp] theorem State.setWcur_wcur (s : State) (w : Addr) : (s.setWcur w).wcur = w := rfl
@[simp] theorem State.setWcur_ch (s : State) (w : Addr) : (s.setWcur w).ch = s.ch := rfl
@[simp] theorem State.setWcur_eng (s : State) (w : Addr) : (s.setWcur w).eng = s.eng := rfl
@[simp] theorem State.setWcur_fifo (s : State) (w : Addr) : (s.setWcur w).fifo = s.fifo := rfl
@[simp] theorem State.setWcur_stalled (s : State) (w : Addr) : (s.setWcur w).stalled = s.stalled := rfl
@[simp] theorem State.setWcur_lead (s : State) (w : Addr) :
    (s.setWcur w).lead = if s.ch.chcr.str then .kept else s.lead := rfl
@[simp] theorem State.setWcur_dmac (s : State) (w : Addr) : (s.setWcur w).dmac = s.dmac := rfl
@[simp] theorem State.setWcur_gif (s : State) (w : Addr) : (s.setWcur w).gif = s.gif := rfl
@[simp] theorem State.setWcur_vif (s : State) (w : Addr) : (s.setWcur w).vif = s.vif := rfl
@[simp] theorem State.setWcur_fifoEmu (s : State) (w : Addr) : (s.setWcur w).fifoEmu = s.fifoEmu := rfl
@[simp] theorem State.setWcur_diag (s : State) (w : Addr) : (s.setWcur w).diag = s.diag := rfl
@[simp] theorem State.setWcur_out (s : State) (w : Addr) : (s.setWcur w).out = s.out := rfl
@[simp] theorem State.setWcur_sched (s : State) (w : Addr) : (s.setWcur w).sched = s.sched := rfl
@[simp] theorem State.setWcur_mem (s : State) (w : Addr) : (s.setWcur w).mem = s.mem := rfl
@[simp] theorem State.setWcur_cfg (s : State) (w : Addr) : (s.setWcur w).cfg = s.cfg := rfl
@[simp] theorem State.setWcur_diverged (s : State) (w : Addr) : (s.setWcur w).diverged = s.diverged := rfl
@[simp] theorem State.setWcur_ret (s : State) (w : Addr) : (s.setWcur w).ret = s.ret := rfl
@[simp] theorem State.setWcur_script (s : State) (w : Addr) : (s.setWcur w).script = s.script := rfl
@[simp] theorem State.setWcur_calls (s : State) (w : Addr) : (s.setWcur w).calls = s.calls := rfl
@[simp] theorem State.setWcur_agenda (s : State) (w : Addr) : (s.setWcur w).agenda = s.agenda := rfl

@[simp] theorem State.setStalled_stalled (s : State) (b : Bool) : (s.setStalled b).stalled = b := rfl
@[simp] theorem State.setStalled_lead (s : State) (b : Bool) : (s.setStalled b).lead = s.lead := rfl
@[simp] theorem State.setStalled_ch (s : State) (b : Bool) : (s.setStalled b).ch = s.ch := rfl
@[simp] theorem State.setStalled_eng (s : State) (b : Bool) : (s.setStalled b).eng = s.eng := rfl
@[simp] theorem State.setStalled_fifo (s : State) (b : Bool) : (s.setStalled b).fifo = s.fifo := rfl
@[simp] theorem State.setStalled_dmac (s : State) (b : Bool) : (s.setStalled b).dmac = s.dmac := rfl
@[simp] theorem State.setStalled_wcur (s : State) (b : Bool) : (s.setStalled b).wcur = s.wcur := rfl
@[simp] theorem State.setStalled_gif (s : State) (b : Bool) : (s.setStalled b).gif = s.gif := rfl
@[simp] theorem State.setStalled_vif (s : State) (b : Bool) : (s.setStalled b).vif = s.vif := rfl
@[simp] theorem State.setStalled_fifoEmu (s : State) (b : Bool) : (s.setStalled b).fifoEmu = s.fifoEmu := rfl
@[simp] theorem State.setStalled_diag (s : State) (b : Bool) : (s.setStalled b).diag = s.diag := rfl
@[simp] theorem State.setStalled_out (s : State) (b : Bool) : (s.setStalled b).out = s.out := rfl
@[simp] theorem State.setStalled_sched (s : State) (b : Bool) : (s.setStalled b).sched = s.sched := rfl
@[simp] theorem State.setStalled_mem (s : State) (b : Bool) : (s.setStalled b).mem = s.mem := rfl
@[simp] theorem State.setStalled_cfg (s : State) (b : Bool) : (s.setStalled b).cfg = s.cfg := rfl
@[simp] theorem State.setStalled_diverged (s : State) (b : Bool) : (s.setStalled b).diverged = s.diverged := rfl
@[simp] theorem State.setStalled_ret (s : State) (b : Bool) : (s.setStalled b).ret = s.ret := rfl
@[simp] theorem State.setStalled_script (s : State) (b : Bool) : (s.setStalled b).script = s.script := rfl
@[simp] theorem State.setStalled_calls (s : State) (b : Bool) : (s.setStalled b).calls = s.calls := rfl
@[simp] theorem State.setStalled_agenda (s : State) (b : Bool) : (s.setStalled b).agenda = s.agenda := rfl

@[simp] theorem State.setLead_lead (s : State) (l : Lead) : (s.setLead l).lead = l := rfl
@[simp] theorem State.setLead_stalled (s : State) (l : Lead) : (s.setLead l).stalled = s.stalled := rfl
@[simp] theorem State.setLead_ch (s : State) (l : Lead) : (s.setLead l).ch = s.ch := rfl
@[simp] theorem State.setLead_eng (s : State) (l : Lead) : (s.setLead l).eng = s.eng := rfl
@[simp] theorem State.setLead_fifo (s : State) (l : Lead) : (s.setLead l).fifo = s.fifo := rfl
@[simp] theorem State.setLead_dmac (s : State) (l : Lead) : (s.setLead l).dmac = s.dmac := rfl
@[simp] theorem State.setLead_wcur (s : State) (l : Lead) : (s.setLead l).wcur = s.wcur := rfl
@[simp] theorem State.setLead_gif (s : State) (l : Lead) : (s.setLead l).gif = s.gif := rfl
@[simp] theorem State.setLead_vif (s : State) (l : Lead) : (s.setLead l).vif = s.vif := rfl
@[simp] theorem State.setLead_fifoEmu (s : State) (l : Lead) : (s.setLead l).fifoEmu = s.fifoEmu := rfl
@[simp] theorem State.setLead_diag (s : State) (l : Lead) : (s.setLead l).diag = s.diag := rfl
@[simp] theorem State.setLead_out (s : State) (l : Lead) : (s.setLead l).out = s.out := rfl
@[simp] theorem State.setLead_sched (s : State) (l : Lead) : (s.setLead l).sched = s.sched := rfl
@[simp] theorem State.setLead_mem (s : State) (l : Lead) : (s.setLead l).mem = s.mem := rfl
@[simp] theorem State.setLead_cfg (s : State) (l : Lead) : (s.setLead l).cfg = s.cfg := rfl
@[simp] theorem State.setLead_diverged (s : State) (l : Lead) : (s.setLead l).diverged = s.diverged := rfl
@[simp] theorem State.setLead_ret (s : State) (l : Lead) : (s.setLead l).ret = s.ret := rfl
@[simp] theorem State.setLead_script (s : State) (l : Lead) : (s.setLead l).script = s.script := rfl
@[simp] theorem State.setLead_calls (s : State) (l : Lead) : (s.setLead l).calls = s.calls := rfl
@[simp] theorem State.setLead_agenda (s : State) (l : Lead) : (s.setLead l).agenda = s.agenda := rfl

@[simp] theorem State.setFifo_nextAnswer (s : State) (f : PacketFifo) : (s.setFifo f).nextAnswer = s.nextAnswer := rfl
@[simp] theorem State.setCh_nextAnswer (s : State) (c : Channel) : (s.setCh c).nextAnswer = s.nextAnswer := rfl
@[simp] theorem State.setEng_nextAnswer (s : State) (e : Engine) : (s.setEng e).nextAnswer = s.nextAnswer := rfl
@[simp] theorem State.setGif_nextAnswer (s : State) (g : Receiver) : (s.setGif g).nextAnswer = s.nextAnswer := rfl

/-- An external call is the output it records and the receiving unit's next answer. -/
theorem State.callConsumer_eq (s : State) (b : List Byte) (n : Nat) :
    s.callConsumer b n = (s.callReceiver (.transfer .dma b n), s.nextAnswer.consumed) := rfl

/-- The consumer's count converted: never more than was offered (40_packet_fifo.md R76). -/
theorem State.consumed_le (s : State) (b n : Nat) : (s.consumed b n).2 ≤ n := Nat.min_le_right _ _

/-- `Consumed` writes the diagnostic set alone. -/
theorem State.consumed_state (s : State) (b n : Nat) :
    (s.consumed b n).1 = s ∨ (s.consumed b n).1 = s.addDiag .consumerOverrun := by
  unfold State.consumed; split <;> simp

/-- A kind is in the set it was added to. -/
@[simp] theorem diagHas_add_self (d : DiagSet) (k : DiagKind) : diagHas (diagAdd d k) k = true := by cases k <;> rfl

/-- Adding a kind removes none (10_state.md R35). -/
theorem diagHas_add (d : DiagSet) (k k' : DiagKind) (h : diagHas d k' = true) : diagHas (diagAdd d k) k' = true := by
  cases k <;> cases k' <;> first | rfl | exact h

end Sys2Proof.Machine
end

