-- ==== Sys2Proof/Laws/Fifo.lean ====
section
/-! SUPPORT. What the Packet FIFO's operations do, said once: the indices they move, the words they write, and that they
keep the FIFO's invariants (10_state.md R29; 40_packet_fifo.md R72, R74, R78). -/

namespace Sys2Proof.Machine

/-- The FIFO's invariants as facts (10_state.md R29). -/
theorem fifoInv_iff (f : PacketFifo) : fifoInv f = true ↔
    f.occ ≤ 16 ∧ f.wr = f.rd + BitVec.ofNat 6 (4 * f.occ) ∧ f.status = statusOf f.occ ∧ f.rd.toNat % 4 = 0 := by
  simp only [fifoInv, Bool.and_eq_true, decide_eq_true_eq, and_assoc]
  rfl

/-- Moving an index by `4a` and then by `4b` words moves it by `4(a+b)`. -/
theorem index_add (r : BitVec 6) (a b : Nat) :
    r + BitVec.ofNat 6 (4 * a) + BitVec.ofNat 6 (4 * b) = r + BitVec.ofNat 6 (4 * (a + b)) := by
  apply BitVec.eq_of_toNat_eq
  simp only [BitVec.toNat_add, BitVec.toNat_ofNat]
  omega

/-- Whole entries keep an index a multiple of 4. -/
theorem index_mod4 (r : BitVec 6) (a : Nat) (h : r.toNat % 4 = 0) : (r + BitVec.ofNat 6 (4 * a)).toNat % 4 = 0 := by
  simp only [BitVec.toNat_add, BitVec.toNat_ofNat]
  omega

/-- A run of quadwords written moves the write index by four words each and touches nothing else but the storage. -/
theorem foldl_pushQuad (l : List Quad) : ∀ f : PacketFifo,
    (l.foldl pushQuad f).wr = f.wr + BitVec.ofNat 6 (4 * l.length) ∧ (l.foldl pushQuad f).rd = f.rd ∧
    (l.foldl pushQuad f).occ = f.occ ∧ (l.foldl pushQuad f).stage = f.stage ∧
    (l.foldl pushQuad f).status = f.status := by
  induction l with
  | nil => intro f; simp
  | cons q l ih =>
    intro f
    obtain ⟨h1, h2, h3, h4, h5⟩ := ih (pushQuad f q)
    refine ⟨?_, h2, h3, h4, h5⟩
    rw [List.foldl_cons, h1, List.length_cons, show pushQuad f q = _ from rfl,
      show (pushQuad f q).wr = f.wr + BitVec.ofNat 6 (4 * 1) by simp [pushQuad, pushWord]; bv_omega, index_add,
      Nat.add_comm 1]

/-- `FifoWrite` with a buffer of at least the count keeps the FIFO's invariants (10_state.md R29). -/
theorem fifoWrite_inv (f : PacketFifo) (buf : List Quad) (count : Nat) (hb : count ≤ buf.length)
    (h : fifoInv f = true) : fifoInv (fifoWrite f buf count).1 = true := by
  rw [fifoInv_iff] at h ⊢
  obtain ⟨h1, h2, -, h4⟩ := h
  obtain ⟨w, r, o, -, -⟩ := foldl_pushQuad (buf.take (min count (Config.capacity - f.occ))) f
  refine ⟨?_, ?_, rfl, ?_⟩
  · simp only [fifoWrite]; rw [o]; simp only [Config.capacity]; omega
  · simp only [fifoWrite]; rw [w, r, o, h2, index_add, List.length_take, Nat.min_eq_left (by omega)]
  · simp only [fifoWrite]; rw [r]; exact h4

/-- What `FifoWrite` accepts: at most the count and at most the free entries (40_packet_fifo.md R72). -/
theorem fifoWrite_accepted (f : PacketFifo) (buf : List Quad) (count : Nat) :
    (fifoWrite f buf count).2 = min count (16 - f.occ) := rfl

/-- Staging `n` entries moves the read index by four words each and touches nothing else but the staging area. -/
theorem stageQuads_spec (n : Nat) : ∀ (j : Nat) (f : PacketFifo),
    (stageQuads n j f).rd = f.rd + BitVec.ofNat 6 (4 * n) ∧ (stageQuads n j f).data = f.data ∧
    (stageQuads n j f).wr = f.wr ∧ (stageQuads n j f).occ = f.occ ∧ (stageQuads n j f).status = f.status := by
  induction n with
  | zero => intro j f; simp [stageQuads]
  | succ n ih =>
    intro j f
    obtain ⟨h1, h2, h3, h4, h5⟩ := ih (j + 1)
      (stageWord (4 * j + 3) (stageWord (4 * j + 2) (stageWord (4 * j + 1) (stageWord (4 * j) f))))
    refine ⟨?_, h2, h3, h4, h5⟩
    rw [stageQuads, h1,
      show (stageWord (4 * j + 3) (stageWord (4 * j + 2) (stageWord (4 * j + 1) (stageWord (4 * j) f)))).rd
        = f.rd + BitVec.ofNat 6 (4 * 1) by simp [stageWord]; bv_omega, index_add, Nat.add_comm 1]

/-- What an offer leaves in the FIFO: of `n` held, `k` taken, the rest held from the entry after them
(40_packet_fifo.md R74, R78 (c)). -/
theorem fifoOffer_fifo (s : State) :
    let n := s.fifo.occ
    let k := consumedQuads s.nextAnswer.consumed n
    (fifoOffer s).fifo.rd = s.fifo.rd + BitVec.ofNat 6 (4 * k) ∧ (fifoOffer s).fifo.occ = n - k ∧
    (fifoOffer s).fifo.wr = s.fifo.wr ∧ (fifoOffer s).fifo.data = s.fifo.data ∧
    (fifoOffer s).fifo.stage = (stageQuads n 0 s.fifo).stage ∧ (fifoOffer s).fifo.status = statusOf (n - k) := by
  intro n k
  obtain ⟨h1, h2, h3, -, -⟩ := stageQuads_spec n 0 s.fifo
  have hk : k ≤ n := Nat.min_le_right _ _
  have hf : (fifoOffer s).fifo
      = mirrorStatus (pushBack { stageQuads n 0 s.fifo with occ := 0 } s.fifo.rd n k) := by
    by_cases h : 16 * s.fifo.occ < s.nextAnswer.consumed <;>
      (simp only [fifoOffer, State.consumed, State.callConsumer_eq, State.setFifo_nextAnswer, h, ↓reduceIte]; rfl)
  rw [hf]
  by_cases hlt : k < n
  · simp [mirrorStatus, pushBack, hlt, h2, h3]
  · have : k = n := by omega
    simp [mirrorStatus, pushBack, this, h1, h2, h3]

/-- An offer keeps the FIFO's invariants (10_state.md R29). -/
theorem fifoOffer_inv (s : State) (h : fifoInv s.fifo = true) : fifoInv (fifoOffer s).fifo = true := by
  rw [fifoInv_iff] at h ⊢
  obtain ⟨h1, h2, -, h4⟩ := h
  obtain ⟨r, o, w, -, -, st⟩ := fifoOffer_fifo s
  have hk : consumedQuads s.nextAnswer.consumed s.fifo.occ ≤ s.fifo.occ := Nat.min_le_right _ _
  refine ⟨by omega, ?_, by rw [st, o], ?_⟩
  · rw [w, r, o, h2, index_add, Nat.add_sub_cancel' hk]
  · rw [r]; exact index_mod4 _ _ h4

/-- Recomputing the status mirror keeps the FIFO's invariants. -/
theorem mirrorStatus_inv (f : PacketFifo) (h : fifoInv f = true) : fifoInv (mirrorStatus f) = true := by
  rw [fifoInv_iff] at h ⊢; exact ⟨h.1, h.2.1, rfl, h.2.2.2⟩

/-- Everything an offer changes outside the FIFO: the consumer call's record, the receiving unit's answer, and a
consumer overrun's diagnostic (40_packet_fifo.md R74, R76). -/
theorem fifoOffer_state (s : State) :
    let n := s.fifo.occ
    let u := s.callReceiver (.transfer .dma (stagedBytes (stageQuads n 0 s.fifo) n) (16 * n))
    fifoOffer s = State.setFifo (if 16 * n < s.nextAnswer.consumed then u.addDiag .consumerOverrun else u)
      (fifoOffer s).fifo := by
  intro n u
  by_cases h : 16 * s.fifo.occ < s.nextAnswer.consumed <;>
    (simp only [fifoOffer, State.consumed, State.callConsumer_eq, State.setFifo_nextAnswer, n, h, ↓reduceIte]; rfl)

/-- A read keeps the FIFO's invariants (10_state.md R29). -/
theorem fifoRead_inv (b : Bool) (s : State) (h : fifoInv s.fifo = true) : fifoInv (fifoRead b s).1.fifo = true := by
  simp only [fifoRead]
  split
  · apply mirrorStatus_inv
    split <;> simpa using h
  · exact fifoOffer_inv s h

/-- The quadwords of a run are as many as the run's. -/
@[simp] theorem quadsOfBytes_length (n : Nat) : ∀ bs : List Byte, (quadsOfBytes n bs).length = n := by
  induction n with
  | zero => intro bs; rfl
  | succ n ih => intro bs; simp [quadsOfBytes, ih]

end Sys2Proof.Machine
end

