-- ==== Sys2Proof/Laws/Frame.lean ====
section
/-! SUPPORT. What no operation of the block ever changes, said once for every shared operation: memory, the
configuration, the controller's registers, the inputs of other agents, the control bits it never writes; and what it
only ever grows or keeps: the diagnostic set, the output history, the FIFO's invariants. -/

namespace Sys2Proof.Machine

/-- `t` may follow `s` by the block's own work. -/
structure BlockFrame (s t : State) : Prop where
  mem      : t.mem = s.mem
  cfg      : t.cfg = s.cfg
  dmac     : t.dmac = s.dmac
  vif      : t.vif = s.vif
  fifoEmu  : t.fifoEmu = s.fifoEmu
  wcur     : t.wcur = s.wcur
  agenda   : t.agenda = s.agenda
  diverged : t.diverged = s.diverged
  dir      : t.ch.chcr.dir = s.ch.chcr.dir
  mod      : t.ch.chcr.mod = s.ch.chcr.mod
  tte      : t.ch.chcr.tte = s.ch.chcr.tte
  tie      : t.ch.chcr.tie = s.ch.chcr.tie
  str      : t.ch.chcr.str = true → s.ch.chcr.str = true
  diag     : ∀ k, diagHas s.diag k = true → diagHas t.diag k = true
  out      : s.out <+: t.out
  fifo     : fifoInv s.fifo = true → fifoInv t.fifo = true

namespace BlockFrame

variable {s t u : State}

theorem refl (s : State) : BlockFrame s s :=
  ⟨rfl, rfl, rfl, rfl, rfl, rfl, rfl, rfl, rfl, rfl, rfl, rfl, id, fun _ h => h, List.prefix_refl _, id⟩

theorem trans (h : BlockFrame s t) (k : BlockFrame t u) : BlockFrame s u :=
  ⟨k.mem.trans h.mem, k.cfg.trans h.cfg, k.dmac.trans h.dmac, k.vif.trans h.vif, k.fifoEmu.trans h.fifoEmu,
    k.wcur.trans h.wcur, k.agenda.trans h.agenda, k.diverged.trans h.diverged, k.dir.trans h.dir, k.mod.trans h.mod,
    k.tte.trans h.tte, k.tie.trans h.tie, h.str ∘ k.str, fun d e => k.diag d (h.diag d e), h.out.trans k.out,
    k.fifo ∘ h.fifo⟩

theorem setCh (s : State) (c : Channel) (dir : c.chcr.dir = s.ch.chcr.dir) (mod : c.chcr.mod = s.ch.chcr.mod)
    (tte : c.chcr.tte = s.ch.chcr.tte) (tie : c.chcr.tie = s.ch.chcr.tie)
    (str : c.chcr.str = true → s.ch.chcr.str = true) : BlockFrame s (s.setCh c) :=
  ⟨rfl, rfl, rfl, rfl, rfl, rfl, rfl, rfl, dir, mod, tte, tie, str, fun _ h => h, List.prefix_refl _, id⟩

theorem setEng (s : State) (e : Engine) : BlockFrame s (s.setEng e) :=
  ⟨rfl, rfl, rfl, rfl, rfl, rfl, rfl, rfl, rfl, rfl, rfl, rfl, id, fun _ h => h, List.prefix_refl _, id⟩

theorem setGif (s : State) (g : Receiver) : BlockFrame s (s.setGif g) :=
  ⟨rfl, rfl, rfl, rfl, rfl, rfl, rfl, rfl, rfl, rfl, rfl, rfl, id, fun _ h => h, List.prefix_refl _, id⟩

theorem setLead (s : State) (l : Lead) : BlockFrame s (s.setLead l) :=
  ⟨rfl, rfl, rfl, rfl, rfl, rfl, rfl, rfl, rfl, rfl, rfl, rfl, id, fun _ h => h, List.prefix_refl _, id⟩

theorem setStalled (s : State) (b : Bool) : BlockFrame s (s.setStalled b) :=
  ⟨rfl, rfl, rfl, rfl, rfl, rfl, rfl, rfl, rfl, rfl, rfl, rfl, id, fun _ h => h, List.prefix_refl _, id⟩

theorem setFifo (s : State) (f : PacketFifo) (h : fifoInv s.fifo = true → fifoInv f = true) :
    BlockFrame s (s.setFifo f) :=
  ⟨rfl, rfl, rfl, rfl, rfl, rfl, rfl, rfl, rfl, rfl, rfl, rfl, id, fun _ h => h, List.prefix_refl _, h⟩

theorem charge (s : State) (a : Acc) (n : Nat) : BlockFrame s (s.charge a n) := by
  cases a <;> exact setEng _ _

theorem addDiag (s : State) (k : DiagKind) : BlockFrame s (s.addDiag k) :=
  ⟨rfl, rfl, rfl, rfl, rfl, rfl, rfl, rfl, rfl, rfl, rfl, rfl, id, fun k' h => diagHas_add _ k k' h,
    List.prefix_refl _, id⟩

theorem emit (s : State) (o : Output) : BlockFrame s (s.emit o) :=
  ⟨rfl, rfl, rfl, rfl, rfl, rfl, rfl, rfl, rfl, rfl, rfl, rfl, id, fun _ h => h, List.prefix_append _ _, id⟩

theorem raise (s : State) (l : IntLine) : BlockFrame s (s.raise l) := emit _ _

theorem request (s : State) (d : Nat) (c : SchedChan) : BlockFrame s (s.request d c) :=
  ⟨rfl, rfl, rfl, rfl, rfl, rfl, rfl, rfl, rfl, rfl, rfl, rfl, id, fun _ h => h, List.prefix_append _ _, id⟩

theorem nudge (s : State) (d : Nat) : BlockFrame s (s.nudge d) :=
  ⟨rfl, rfl, rfl, rfl, rfl, rfl, rfl, rfl, rfl, rfl, rfl, rfl, id, fun _ h => h, List.prefix_append _ _, id⟩

theorem returning (s : State) (r : Returned) : BlockFrame s (s.returning r) :=
  ⟨rfl, rfl, rfl, rfl, rfl, rfl, rfl, rfl, rfl, rfl, rfl, rfl, id, fun _ h => h, List.prefix_refl _, id⟩

theorem callReceiver (s : State) (o : Output) : BlockFrame s (s.callReceiver o) :=
  ⟨rfl, rfl, rfl, rfl, rfl, rfl, rfl, rfl, rfl, rfl, rfl, rfl, id, fun _ h => h, List.prefix_append _ _, id⟩

theorem consumed (s : State) (b n : Nat) : BlockFrame s (s.consumed b n).1 := by
  rcases State.consumed_state s b n with h | h <;> rw [h]
  · exact refl s
  · exact addDiag s _

theorem thenSetCh (h : BlockFrame s t) (c : Channel) (e : c.chcr = t.ch.chcr ∨ c.chcr = { t.ch.chcr with str := false } ∨
    ∃ x y, c.chcr = { t.ch.chcr with asp := x, tag := y }) : BlockFrame s (t.setCh c) := by
  rcases e with e | e | ⟨x, y, e⟩ <;>
    exact h.trans (setCh _ _ (by rw [e]) (by rw [e]) (by rw [e]) (by rw [e]) (by rw [e]; simp))

theorem thenSetEng (h : BlockFrame s t) (e : Engine) : BlockFrame s (t.setEng e) := h.trans (setEng _ _)
theorem thenSetGif (h : BlockFrame s t) (g : Receiver) : BlockFrame s (t.setGif g) := h.trans (setGif _ _)
theorem thenCharge (h : BlockFrame s t) (a : Acc) (n : Nat) : BlockFrame s (t.charge a n) := h.trans (charge _ _ _)
theorem thenAddDiag (h : BlockFrame s t) (k : DiagKind) : BlockFrame s (t.addDiag k) := h.trans (addDiag _ _)
theorem thenRaise (h : BlockFrame s t) (l : IntLine) : BlockFrame s (t.raise l) := h.trans (raise _ _)

theorem mfifoClamp (t : TagType) (s : State) : BlockFrame s (mfifoClamp t s) := (refl s).thenSetCh _ (.inl rfl)

theorem available (d : Addr) (s : State) : BlockFrame s (available d s).1 := setEng _ _

theorem loadTag (a : Acc) (t : TagType) (f : TagFields) (s : State) : BlockFrame s (loadTag a t f s) := by
  refine thenCharge ((refl s).thenSetCh _ ?_) _ _
  exact .inr (.inr ⟨s.ch.chcr.asp, _, rfl⟩)

theorem stall (a : Acc) (s : State) : BlockFrame s (stall a s) := by
  refine thenRaise (thenSetEng ((refl s).thenSetCh _ ?_) _) _
  exact .inl rfl

theorem dataAfterTag (s : State) : BlockFrame s (dataAfterTag s) := (refl s).thenSetCh _ (.inl rfl)

theorem stepRefe (s : State) : BlockFrame s (stepRefe s).1 := (refl s).thenSetCh _ (.inl rfl)
theorem stepCnt (s : State) : BlockFrame s (stepCnt s).1 := (refl s).thenSetCh _ (.inl rfl)
theorem stepNext (s : State) : BlockFrame s (stepNext s).1 := (refl s).thenSetCh _ (.inl rfl)
theorem stepRef (s : State) : BlockFrame s (stepRef s).1 := (refl s).thenSetCh _ (.inl rfl)
theorem stepRefs (s : State) : BlockFrame s (stepRefs s).1 := (refl s).thenSetCh _ (.inl rfl)
theorem stepEnd (s : State) : BlockFrame s (stepEnd s).1 := dataAfterTag s

theorem stepCall (s : State) : BlockFrame s (stepCall s).1 := by
  unfold Sys2Proof.Machine.stepCall
  split
  · refine ((dataAfterTag s).thenSetCh _ ?_).thenAddDiag _
    exact .inl rfl
  · split
    · refine (dataAfterTag s).thenSetCh _ ?_
      exact .inr (.inr ⟨_, s.ch.chcr.tag, rfl⟩)
    · split
      · refine (dataAfterTag s).thenSetCh _ ?_
        exact .inr (.inr ⟨_, s.ch.chcr.tag, rfl⟩)
      · exact (dataAfterTag s).thenAddDiag _

theorem stepRet (s : State) : BlockFrame s (stepRet s).1 := by
  unfold Sys2Proof.Machine.stepRet
  split
  · refine (dataAfterTag s).thenSetCh _ ?_
    exact .inr (.inr ⟨_, s.ch.chcr.tag, rfl⟩)
  · split
    · refine (dataAfterTag s).thenSetCh _ ?_
      exact .inr (.inr ⟨_, s.ch.chcr.tag, rfl⟩)
    · exact dataAfterTag s

theorem verdictTag (t : TagType) (r : State × Bool) : BlockFrame r.1 (verdictTag t r) := by
  unfold Sys2Proof.Machine.verdictTag
  split
  · exact (setEng _ _).trans (mfifoClamp _ _)
  · exact setEng _ _

theorem tagIrq (f : TagFields) (s : State) : BlockFrame s (tagIrq f s) := by
  unfold Sys2Proof.Machine.tagIrq
  split
  · exact setEng _ _
  · exact refl s

theorem settleTag (a : Acc) (t : TagType) (f : TagFields) (r : State × Bool) :
    BlockFrame r.1 (settleTag a t f r).1 := by
  unfold Sys2Proof.Machine.settleTag
  split
  · exact ((verdictTag t r).trans (stall _ _)).trans (setStalled _ _)
  · exact ((verdictTag t r).trans (tagIrq _ _)).trans (setStalled _ _)

theorem walkWith (step : State → State × Bool) (hstep : ∀ s, BlockFrame s (step s).1) (a : Acc) (t : TagType)
    (f : TagFields) {r : FetchResult} (h : walkWith step a t f s = .ok (u, r)) : BlockFrame s u := by
  simp only [Sys2Proof.Machine.walkWith] at h
  split at h
  · injection h with h
    have := congrArg Prod.fst h
    simp only at this
    rw [← this]
    exact ((loadTag a t f s).trans (hstep _)).trans (settleTag _ _ _ _)
  · cases h

theorem walkTag (a : Acc) (t : TagType) (f : TagFields) {r : FetchResult} (h : walkTag a t f s = .ok (u, r)) :
    BlockFrame s u := by
  cases t
  · exact walkWith _ stepRefe _ _ _ h
  · exact walkWith _ stepCnt _ _ _ h
  · exact walkWith _ stepNext _ _ _ h
  · exact walkWith _ stepRef _ _ _ h
  · exact walkWith _ stepRefs _ _ _ h
  · exact walkWith _ stepCall _ _ _ h
  · exact walkWith _ stepRet _ _ _ h
  · exact walkWith _ stepEnd _ _ _ h

theorem tagFail (s : State) : BlockFrame s (tagFail s) := by
  refine (((refl s).thenSetCh _ ?_).thenAddDiag _).trans (setStalled _ _)
  exact .inr (.inl rfl)

theorem tagFetch (a : Acc) {r : FetchResult} (h : tagFetch a s = .ok (u, r)) : BlockFrame s u := by
  simp only [Sys2Proof.Machine.tagFetch] at h
  split at h
  · injection h with h
    have := congrArg Prod.fst h
    simp only at this
    rw [← this]
    exact tagFail s
  · split at h
    · cases h
    · split at h
      · exact walkTag _ _ _ h
      · cases h

theorem fifoRead (b : Bool) (s : State) : BlockFrame s (fifoRead b s).1 := by
  have inv := fifoRead_inv b s
  simp only [Sys2Proof.Machine.fifoRead] at inv ⊢
  split at inv
  · rename_i hc
    rw [if_pos hc]
    split at inv
    · rename_i hd
      simp only [hd, ↓reduceIte]
      exact (request _ _ _).trans (setFifo _ _ inv)
    · rename_i hd
      simp only [hd]
      exact setFifo _ _ inv
  · rename_i hc
    rw [if_neg hc]
    have h := fifoOffer_state s
    simp only at h
    rw [h]
    split
    · exact ((callReceiver _ _).trans (addDiag _ _)).trans (setFifo _ _ inv)
    · exact (callReceiver _ _).trans (setFifo _ _ inv)

theorem sink (src : Addr) (n : Nat) (a : Acc) {k : Nat} (h : sink src n a s = .ok (u, k)) : BlockFrame s u := by
  simp only [Sys2Proof.Machine.sink] at h
  split at h
  · cases h; exact refl s
  · split at h
    · simp only [sinkFifo] at h
      split at h
      · cases h; exact refl s
      · split at h
        · cases h
        · cases h
          exact (setFifo _ _ (fifoWrite_inv _ _ _ (by simp))).trans (charge _ _ _)
    · simp only [sinkDirect, State.callConsumer_eq] at h
      split at h
      · cases h
      · cases h
        exact ((callReceiver _ _).trans (consumed _ _ _)).trans (charge _ _ _)

theorem segUnmapped (s : State) : BlockFrame s (segUnmapped s) := by
  refine ((refl s).thenSetCh _ ?_).thenAddDiag _
  exact .inl rfl

theorem noteStallMode (s : State) : BlockFrame s (noteStallMode s) := by
  unfold Sys2Proof.Machine.noteStallMode
  split
  · exact addDiag _ _
  · exact refl s

theorem moveSegment (a : Acc) (h : moveSegment a s = .ok u) : BlockFrame s u := by
  simp only [Sys2Proof.Machine.moveSegment] at h
  split at h
  · cases h; exact segUnmapped _
  · split at h
    · cases h
    · rename_i hs
      cases h
      refine (sink _ _ _ hs).thenSetCh _ ?_
      exact .inl rfl

theorem segmentTransfer (a : Acc) (h : segmentTransfer a s = .ok u) : BlockFrame s u :=
  (noteStallMode s).trans (moveSegment a h)

theorem ringLeg (src : Addr) (n : Nat) (a : Acc) {k : Nat} (h : ringLeg src n a s = .ok (u, k)) : BlockFrame s u := by
  simp only [Sys2Proof.Machine.ringLeg] at h
  split at h
  · cases h
  · rename_i hs
    cases h
    exact (sink _ _ _ hs).thenSetCh _ (.inl rfl)

theorem ringOut (s : State) : BlockFrame s (ringOut s) := (refl s).thenSetCh _ (.inl rfl)

theorem ringWrap (n : Nat) (a : Acc) (h : ringWrap n a s = .ok u) : BlockFrame s u := by
  simp only [Sys2Proof.Machine.ringWrap] at h
  split at h
  · cases h; exact segUnmapped s
  · split at h
    · cases h
    · rename_i hs
      cases h; exact ringLeg _ _ _ hs

theorem ringLegs (q : Nat) (a : Acc) (h : ringLegs q a s = .ok u) : BlockFrame s u := by
  simp only [Sys2Proof.Machine.ringLegs] at h
  split at h
  · cases h; exact segUnmapped s
  · split at h
    · cases h
    · rename_i hs
      split at h
      · exact (ringLeg _ _ _ hs).trans (ringWrap _ _ h)
      · cases h; exact ringLeg _ _ _ hs

theorem ringTransfer (a : Acc) {r : RingResult} (h : ringTransfer a s = .ok (u, r)) : BlockFrame s u := by
  simp only [Sys2Proof.Machine.ringTransfer] at h
  split at h
  · cases h; exact available _ _
  · split at h
    · cases h
    · rename_i hs
      cases h
      exact ((available _ _).trans (ringLegs _ _ hs)).trans (ringOut _)

theorem pathKick (s : State) : BlockFrame s (pathKick s) := by
  simp only [Sys2Proof.Machine.pathKick]
  split
  · split
    · exact (setGif _ _).trans (callReceiver _ _)
    · exact setGif _ _
  · exact refl s

theorem pathDemote (s : State) : BlockFrame s (pathDemote s) := by
  simp only [Sys2Proof.Machine.pathDemote]
  split
  · exact setGif _ _
  · exact refl s

theorem pathNudge (s : State) : BlockFrame s (pathNudge s) := by
  simp only [Sys2Proof.Machine.pathNudge]
  split
  · exact nudge _ _
  · exact refl s

theorem pathCheck (p : Pass) (s : State) : BlockFrame s (pathCheck p s).1 :=
  ((pathKick s).trans (pathDemote _)).trans (pathNudge _)

theorem afterTransfer (a : Acc) (n : Nat) (s : State) : BlockFrame s (afterTransfer a n s).1 := pathCheck .post s

theorem fifoDrain (a : Acc) (s : State) : BlockFrame s (fifoDrain a s) := (fifoRead true s).trans (charge _ _ _)

theorem finalize (s : State) : BlockFrame s (finalize s) := by
  refine (((refl s).thenSetCh _ ?_).thenSetEng _).thenRaise _
  exact .inr (.inl rfl)

theorem chainLoop (a : Acc) (n : Nat) : ∀ {s : State} {r : FetchResult}, chainLoop a n s = .ok (u, r) →
    BlockFrame s u := by
  induction n with
  | zero =>
    intro s r h
    simp only [Sys2Proof.Machine.chainLoop] at h
    split at h
    · cases h
    · cases h; exact refl _
  | succ n ih =>
    intro s r h
    simp only [Sys2Proof.Machine.chainLoop] at h
    split at h
    · split at h
      · cases h
      · rename_i hf; exact (tagFetch _ hf).trans (ih h)
      · rename_i hf; cases h; exact tagFetch _ hf
      · rename_i hf; cases h; exact tagFetch _ hf
    · cases h; exact refl _

theorem directEntry {o : EntryOutcome} (h : directEntry s = .ok (u, o)) : BlockFrame s u := by
  simp only [Sys2Proof.Machine.directEntry] at h
  split at h
  · cases h; exact (fifoDrain _ _).trans (afterTransfer .cyc 0 _)
  · split at h
    · split at h
      · cases h
      · rename_i hf; cases h; exact chainLoop _ _ hf
      · rename_i hf; cases h; exact chainLoop _ _ hf
      · rename_i hf
        split at h
        · split at h
          · cases h
          · rename_i hs; cases h
            exact ((chainLoop _ _ hf).trans (segmentTransfer _ hs)).trans (afterTransfer .cyc 0 _)
        · cases h; exact (chainLoop _ _ hf).trans (afterTransfer .cyc 0 _)
    · cases h; exact finalize s

theorem mfifoMove (n : Nat) {o : EntryOutcome} (h : mfifoMove n s = .ok (u, o)) : BlockFrame s u := by
  simp only [Sys2Proof.Machine.mfifoMove] at h
  split at h
  · split at h
    · split at h
      · cases h
      · rename_i hr; cases h; exact (ringTransfer _ hr).trans (raise _ _)
      · rename_i hr; cases h; exact (ringTransfer _ hr).trans (afterTransfer .mcyc 0 _)
    · split at h
      · cases h
      · rename_i hs; cases h; exact (segmentTransfer _ hs).trans (afterTransfer .mcyc 0 _)
  · split at h
    · cases h; exact finalize s
    · cases h; exact refl s

theorem mfifoEntry {o : EntryOutcome} (h : mfifoEntry s = .ok (u, o)) : BlockFrame s u := by
  simp only [Sys2Proof.Machine.mfifoEntry] at h
  split at h
  · cases h; exact (fifoDrain _ _).trans (afterTransfer .mcyc 0 _)
  · split at h
    · split at h
      · cases h; exact (available _ _).trans (raise _ _)
      · split at h
        · cases h
        · rename_i hf; cases h; exact (available _ _).trans (tagFetch _ hf)
        · rename_i hf; cases h; exact (available _ _).trans (tagFetch _ hf)
        · rename_i hf; exact ((available _ _).trans (tagFetch _ hf)).trans (mfifoMove _ h)
    · exact mfifoMove _ h

theorem variantEntry {o : EntryOutcome} (h : variantEntry s = .ok (u, o)) : BlockFrame s u := by
  simp only [Sys2Proof.Machine.variantEntry] at h
  split at h
  · exact mfifoEntry h
  · exact directEntry h

theorem endEntry (r : State × EntryOutcome) : BlockFrame r.1 (endEntry r) := by
  obtain ⟨s, o⟩ := r
  cases o
  · exact (request _ _ _).trans (returning _ _)
  all_goals exact returning _ _

end BlockFrame

end Sys2Proof.Machine
end

