-- ==== Sys2Proof/Laws/Tags.lean ====
section
/-! SUPPORT. What a tag fetch comes to: the one shape of the eight tags, what a fetch that does not stall leaves, and the
fetch as a step of its own. -/

namespace Sys2Proof.Machine

/-- The eight tags have one shape: the tag's step within the common fetch (41_chain_tags.md R79). -/
theorem exec_ofTag (t : TagType) (f : TagFields) (s : State) :
    exec (Instr.ofTag t f) s = fetchOutcome (walkTag s.variantAcc t f s) := by cases t <;> rfl

theorem fetchOutcome_next {x : Except Refusal (State × FetchResult)} {u : State} (h : fetchOutcome x = .next u) :
    ∃ s r, x = .ok (s, r) ∧ u = s.returning (.fetch r) := by
  cases x with
  | error r => cases h
  | ok p => obtain ⟨s, r⟩ := p; cases h; exact ⟨s, r, rfl, rfl⟩

/-- A tag outside STALL_IDS never stalls. -/
theorem verdictTag_stallDue (t : TagType) (r : State × Bool) (h : t ∉ r.1.cfg.stallIds) :
    (verdictTag t r).stallDue t = false := by
  simp only [State.stallDue, verdictTag]
  split <;> simp [mfifoClamp, h]

/-- Everything a fetch that does not stall changes after the type's step (41_chain_tags.md R90, R91; 43_mfifo.md R109). -/
theorem settleTag_pass (a : Acc) (t : TagType) (f : TagFields) (r : State × Bool)
    (h : (verdictTag t r).stallDue t = false) :
    settleTag a t f r = ({ r.1 with
      ch.madr := if r.1.routed && clampsMadr t then r.1.renorm r.1.ch.madr else r.1.ch.madr
      ch.tadr := if r.1.routed then r.1.renorm r.1.ch.tadr else r.1.ch.tadr
      eng.done := r.2 || (f.irq && r.1.ch.chcr.tie)
      stalled := false }, .ok) := by
  rw [settleTag, if_neg (by simp [h])]
  clear h
  obtain ⟨x, l⟩ := r
  cases hr : x.routed <;> cases hi : f.irq <;> cases hx : x.ch.chcr.tie <;>
    simp [verdictTag, tagIrq, mfifoClamp, hx, hr, hi, State.setEng, State.setCh, State.setStalled, State.renorm]

@[simp] theorem State.runBytes_length (s : State) (a : Addr) (n : Nat) : (s.runBytes a n).length = 16 * n := by
  simp [State.runBytes]

/-- The effect of what the fetch at TADR finds, where it is run. -/
def Fetched.run : Fetched → Host.Outcome State Fault Refusal
  | .instr i s => exec i s
  | .ended s => .next s
  | .refused r => .refused r

/-- Decoding the bytes at TADR and running what they stand for is the fetch the handler makes, with the accumulator of the
variant in use (41_chain_tags.md R79). -/
theorem decodeAtTadr_run (s : State) : (decodeAtTadr s).run = fetchOutcome (tagFetch s.variantAcc s) := by
  simp only [decodeAtTadr, tagFetch]
  cases hm : s.mapped s.ch.tadr
  · simp [fetchOutcome, Fetched.run]
  · simp only [Bool.not_true, Bool.false_eq_true, ↓reduceIte]
    cases hr : s.run s.ch.tadr 1 with
    | error r => rfl
    | ok bytes =>
      have hb : bytes.length = 16 := by
        simp only [State.run] at hr; split at hr <;> cases hr
        simp
      simp only [decode, hb, decodeTag, List.take_of_length_le (Nat.le_of_eq hb)]
      cases hq : tagOfQuad s.cfg.tagIds (quadOfBytes bytes) with
      | none => rfl
      | some p => obtain ⟨t, f⟩ := p; simp [Fetched.run, exec_ofTag]

/-- A fetch as a step of its own is the fetch the handler makes: in MFIFO mode it asks `Available(TADR)` first, and reads
nothing where the ring has no tag (43_mfifo.md R105, R108). -/
theorem walk_eq (s : State) (h : s.tagDue = true) :
    walk s = if s.tagMissing then .next ((s.atFetch.raise .mfifoEmpty).returning (.outcome .idle))
      else fetchOutcome (tagFetch s.variantAcc s.atFetch) := by
  have ha : s.atFetch.variantAcc = s.variantAcc := by
    simp only [State.atFetch]; split <;> rfl
  have hw : walk s = (fetchAtTadr s).run := by simp only [walk]; cases fetchAtTadr s <;> rfl
  rw [hw, ← ha, ← decodeAtTadr_run]
  simp only [fetchAtTadr, h]
  cases s.tagMissing <;> rfl

end Sys2Proof.Machine
end

