-- ==== Sys2Proof/Laws/Entry.lean ====
section
/-! SUPPORT. What the parts of a handler entry leave alone, an entry with an idle coordinator, and the frame of every
operation at once. -/

namespace Sys2Proof.Machine

/-- An idle coordinator's pass changes nothing and lets the entry go on. -/
theorem pathCheck_quiet (p : Pass) (s : State) (h : s.pathQuiet = true) : pathCheck p s = (s, .go) := by
  simp only [State.pathQuiet, quiet, Bool.and_eq_true, bne_iff_ne, ne_eq, Bool.not_eq_true'] at h
  obtain ⟨⟨h1, h2⟩, h3⟩ := h
  have k : pathKick s = s := by rw [pathKick, if_neg h1]
  have d : pathDemote s = s := by rw [pathDemote, if_neg h2]
  have n : pathNudge s = s := by simp [pathNudge, State.vifGated, h3]
  simp only [pathCheck, k, d, n]
  cases p <;> simp [State.vgwDecision, State.vifGated, h3]

/-- An entry of a running channel whose pre-pass goes on, in state `p`, is its variant's from there. -/
theorem exec_handlerEntry_go {s p : State} (h : s.ch.chcr.str = true) (k : pathCheck .pre s = (p, .go)) :
    exec .handlerEntry s = match variantEntry p with
      | .error r => .refused r
      | .ok r => .next (endEntry r) := by
  simp only [exec, execHandlerEntry, h, k]; rfl

/-- An entry of a running channel with an idle coordinator is its variant's. -/
theorem exec_handlerEntry_entering (s : State) (h : s.entering = true) :
    exec .handlerEntry s = match variantEntry s with
      | .error r => .refused r
      | .ok r => .next (endEntry r) := by
  simp only [State.entering, Bool.and_eq_true] at h
  exact exec_handlerEntry_go h.1 (pathCheck_quiet _ _ h.2)

theorem afterTransfer_quiet (a : Acc) (n : Nat) (s : State) (h : s.pathQuiet = true) :
    afterTransfer a n s = (s, s.resched a n) := by
  simp [afterTransfer, postPass, pathCheck_quiet _ _ h]

@[simp] theorem endEntry_ret (x : State) (o : EntryOutcome) : (endEntry (x, o)).ret = .outcome o := by cases o <;> rfl
@[simp] theorem endEntry_ch (x : State) (o : EntryOutcome) : (endEntry (x, o)).ch = x.ch := by cases o <;> rfl
@[simp] theorem endEntry_eng (x : State) (o : EntryOutcome) : (endEntry (x, o)).eng = x.eng := by cases o <;> rfl
@[simp] theorem endEntry_dmac (x : State) (o : EntryOutcome) : (endEntry (x, o)).dmac = x.dmac := by cases o <;> rfl
@[simp] theorem endEntry_wcur (x : State) (o : EntryOutcome) : (endEntry (x, o)).wcur = x.wcur := by cases o <;> rfl

@[simp] theorem State.charge_done (s : State) (a : Acc) (n : Nat) : (s.charge a n).eng.done = s.eng.done := by
  cases a <;> rfl

/-- The sink writes no channel register (42_transfer.md R96). -/
theorem sink_ch {s u : State} {src : Addr} {n : Nat} {a : Acc} {k : Nat} (h : sink src n a s = .ok (u, k)) :
    u.ch = s.ch := by
  simp only [sink] at h
  split at h
  · cases h; rfl
  · split at h
    · simp only [sinkFifo] at h
      split at h
      · cases h; rfl
      · split at h
        · cases h
        · cases h; simp
    · simp only [sinkDirect, State.callConsumer_eq] at h
      split at h
      · cases h
      · cases h; simp only [State.consumed, State.charge_ch]; split <;> rfl

/-- A FIFO read writes no channel register. -/
@[simp] theorem fifoRead_ch (b : Bool) (s : State) : (fifoRead b s).1.ch = s.ch := by
  simp only [fifoRead]
  split
  · simp only []; split <;> simp
  · have h := fifoOffer_state s
    simp only at h
    rw [h]; split <;> simp

/-- A FIFO read writes no engine state. -/
@[simp] theorem fifoRead_eng (b : Bool) (s : State) : (fifoRead b s).1.eng = s.eng := by
  simp only [fifoRead]
  split
  · simp only []; split <;> simp
  · have h := fifoOffer_state s
    simp only at h
    rw [h]; split <;> simp

/-- A pass of the coordinator writes no channel register. -/
@[simp] theorem pathCheck_ch (p : Pass) (s : State) : (pathCheck p s).1.ch = s.ch := by
  simp only [pathCheck, pathNudge, pathDemote, pathKick]
  split_ifs <;> simp

/-- A pass of the coordinator writes no engine state. -/
@[simp] theorem pathCheck_eng (p : Pass) (s : State) : (pathCheck p s).1.eng = s.eng := by
  simp only [pathCheck, pathNudge, pathDemote, pathKick]
  split_ifs <;> simp

/-- The frame of a tag. -/
theorem BlockFrame.fetchOutcome {x : Except Refusal (State × FetchResult)} {s u : State} (h : fetchOutcome x = .next u)
    (hx : ∀ t r, x = .ok (t, r) → BlockFrame s t) : BlockFrame s u := by
  obtain ⟨t, r, e, rfl⟩ := fetchOutcome_next h
  exact (hx t r e).trans (BlockFrame.returning _ _)

/-- The frame of a handler entry. -/
theorem BlockFrame.handlerEntry {s u : State} (h : exec .handlerEntry s = .next u) : BlockFrame s u := by
  simp only [exec, execHandlerEntry] at h
  split at h
  · cases h; exact BlockFrame.endEntry (s, .idle)
  · split at h
    · rename_i s' o hp
      cases h
      have := BlockFrame.pathCheck .pre s
      rw [hp] at this
      exact this.trans (BlockFrame.endEntry (s', o))
    · rename_i s' hp
      have := BlockFrame.pathCheck .pre s
      rw [hp] at this
      split at h
      · cases h
      · rename_i r hr
        cases h
        exact (this.trans (BlockFrame.variantEntry (o := r.2) hr)).trans (BlockFrame.endEntry r)

/-- The frame of every operation but the three that write what it fixes: Restore, WriterAdvance and FifoInit. -/
theorem BlockFrame.exec {i : Instr} {s u : State} (h : exec i s = .next u) (h1 : ∀ b, i ≠ .restore b)
    (h2 : ∀ w, i ≠ .writerAdvance w) (h3 : i ≠ .fifoInit) : BlockFrame s u := by
  cases i
  case refe f => exact .fetchOutcome h (fun t r e => .walkWith _ .stepRefe _ _ _ e)
  case cnt f => exact .fetchOutcome h (fun t r e => .walkWith _ .stepCnt _ _ _ e)
  case next f => exact .fetchOutcome h (fun t r e => .walkWith _ .stepNext _ _ _ e)
  case ref f => exact .fetchOutcome h (fun t r e => .walkWith _ .stepRef _ _ _ e)
  case refs f => exact .fetchOutcome h (fun t r e => .walkWith _ .stepRefs _ _ _ e)
  case call f => exact .fetchOutcome h (fun t r e => .walkWith _ .stepCall _ _ _ e)
  case ret f => exact .fetchOutcome h (fun t r e => .walkWith _ .stepRet _ _ _ e)
  case endTag f => exact .fetchOutcome h (fun t r e => .walkWith _ .stepEnd _ _ _ e)
  case fifoInit => exact absurd rfl h3
  case fifoWrite buf c =>
    simp only [Sys2Proof.Machine.exec, execFifoWrite] at h
    split at h
    · cases h
    · cases h
      exact (BlockFrame.setFifo _ _ (fifoWrite_inv _ _ _ (by omega))).trans (BlockFrame.returning _ _)
  case fifoRead b => cases h; exact (BlockFrame.fifoRead b s).trans (BlockFrame.returning _ _)
  case dmaStart =>
    simp only [Sys2Proof.Machine.exec, execDmaStart] at h
    split at h
    · cases h
    · cases h
      exact ((((BlockFrame.setEng _ _).trans (BlockFrame.setStalled _ _)).trans (BlockFrame.setLead _ _)).trans
        (BlockFrame.request _ _ _)).trans (BlockFrame.returning _ _)
  case handlerEntry => exact .handlerEntry h
  case cancel =>
    cases h
    exact ((BlockFrame.refl s).thenSetCh _ (.inr (.inl rfl))).trans (BlockFrame.returning _ _)
  case writerAdvance w => exact absurd rfl (h2 w)
  case snapshot => cases h; exact BlockFrame.returning _ _
  case restore b => exact absurd rfl (h1 b)

end Sys2Proof.Machine
end

