-- ==== Sys2Proof/Laws/Memory.lean ====
section
/-! SUPPORT. The laws of memory: a read after a write, and that every memory operation keeps the canonical form. -/

namespace Sys2Proof.Machine

/-- Reading where a byte was stored gives it. -/
theorem Memory.read_write_same (m : Memory) (a : Nat) (b : Byte) (hm : m.wf = true) : (m.write a b).read a = b := by
  induction m with
  | nil => simp only [Memory.write]; split <;> simp_all [Memory.read]
  | cons c m ih =>
    obtain ⟨a', b'⟩ := c
    simp only [Memory.wf, Bool.and_eq_true, decide_eq_true_eq, List.all_eq_true] at hm
    obtain ⟨⟨⟨-, -⟩, hlt⟩, hm⟩ := hm
    have hread : ∀ m' : Memory, (∀ c ∈ m', a < c.1) → Memory.read m' a = unlistedByte := by
      intro m'
      induction m' with
      | nil => intro _; rfl
      | cons c m' ih' =>
        intro h
        have h1 := h c (by simp)
        have h2 := ih' (fun c hc => h c (by simp [hc]))
        simp [Memory.read, show a ≠ c.1 by omega, h2]
    simp only [Memory.write]
    split
    · rename_i h
      split
      · rename_i hb
        rw [hb]
        apply hread
        intro c hc
        rcases List.mem_cons.1 hc with rfl | hc
        · exact h
        · exact Nat.lt_trans h (hlt c hc)
      · simp [Memory.read]
    · split
      · rename_i h1 h
        split
        · rename_i hb
          rw [hb]
          exact hread m (fun c hc => h ▸ hlt c hc)
        · simp [Memory.read]
      · rename_i h
        simp [Memory.read, h, ih hm]

/-- Reading elsewhere gives what it gave. -/
theorem Memory.read_write_other (m : Memory) (a a' : Nat) (b : Byte) (h : a' ≠ a) :
    (m.write a b).read a' = m.read a' := by
  induction m with
  | nil => simp only [Memory.write]; split <;> simp [Memory.read, h]
  | cons c m ih =>
    simp only [Memory.write]
    split
    · split <;> simp [Memory.read, h]
    · split
      · rename_i h'
        split <;> simp [Memory.read, h, ← h']
      · simp [Memory.read, ih]

theorem Memory.mem_write (m : Memory) (a : Nat) (b : Byte) (c : Host.Cell) (h : c ∈ m.write a b) :
    c ∈ m ∨ c.1 = a := by
  induction m with
  | nil => simp only [Memory.write] at h; split at h <;> simp_all
  | cons d m ih =>
    simp only [Memory.write] at h
    split at h
    · split at h
      · exact .inl h
      · rcases List.mem_cons.1 h with rfl | h
        · exact .inr rfl
        · exact .inl h
    · split at h
      · split at h
        · exact .inl (List.mem_cons_of_mem _ h)
        · rcases List.mem_cons.1 h with rfl | h
          · exact .inr rfl
          · exact .inl (List.mem_cons_of_mem _ h)
      · rcases List.mem_cons.1 h with rfl | h
        · simp
        · rcases ih h with h | h <;> simp [h]

/-- A store below 2^32 keeps the canonical form. -/
theorem Memory.write_wf (m : Memory) (a : Nat) (b : Byte) (ha : a < 4294967296) (hm : m.wf = true) :
    (m.write a b).wf = true := by
  induction m with
  | nil => simp only [Memory.write]; split <;> simp_all [Memory.wf]
  | cons c m ih =>
    have hm' := hm
    simp only [Memory.wf, Bool.and_eq_true, decide_eq_true_eq, List.all_eq_true] at hm
    obtain ⟨⟨⟨hc, hz⟩, hlt⟩, hw⟩ := hm
    simp only [Memory.write]
    split
    · rename_i h
      split
      · exact hm'
      · rename_i hb
        have : ∀ d ∈ m, a < d.1 := fun d hd => Nat.lt_trans h (hlt d hd)
        simp only [Memory.wf, Bool.and_eq_true, decide_eq_true_eq, List.all_eq_true, List.mem_cons]
        exact ⟨⟨⟨ha, by simpa using hb⟩, fun d hd => hd.elim (fun e => e ▸ h) (this d)⟩, ⟨⟨hc, hz⟩, hlt⟩, hw⟩
    · split
      · rename_i h
        split
        · exact hw
        · rename_i hb
          simp only [Memory.wf, Bool.and_eq_true, decide_eq_true_eq, List.all_eq_true]
          exact ⟨⟨⟨ha, by simpa using hb⟩, h ▸ hlt⟩, hw⟩
      · have hall : ∀ d ∈ Memory.write m a b, c.1 < d.1 := by
          intro d hd
          rcases Memory.mem_write m a b d hd with h | h
          · exact hlt d h
          · omega
        simp only [Memory.wf, Bool.and_eq_true, decide_eq_true_eq, List.all_eq_true]
        exact ⟨⟨⟨hc, hz⟩, hall⟩, ih hw⟩

/-- A store of several bytes keeps the canonical form. -/
theorem Memory.writeBytes_wf (bs : List Byte) : ∀ (m : Memory) (a : Nat), m.wf = true → (m.writeBytes a bs).wf = true := by
  induction bs with
  | nil => intro m a h; exact h
  | cons b bs ih =>
    intro m a h
    exact ih _ _ (Memory.write_wf m _ b (Nat.mod_lt _ (by decide)) h)

/-- Bytes outside a store's addresses read as before. -/
theorem Memory.read_writeBytes_other (bs : List Byte) : ∀ (m : Memory) (a x : Nat),
    (∀ i, i < bs.length → x ≠ (a + i) % 4294967296) → (m.writeBytes a bs).read x = m.read x := by
  induction bs with
  | nil => intro m a x _; rfl
  | cons b bs ih =>
    intro m a x h
    have h0 := h 0 (by simp)
    rw [Memory.writeBytes, ih _ _ x]
    · exact Memory.read_write_other m _ x b (by simpa using h0)
    · intro i hi
      have := h (i + 1) (by simp; omega)
      rwa [show a + 1 + i = a + (i + 1) by omega]

end Sys2Proof.Machine
end

