-- ==== Sys2Proof/Laws/Outputs.lean ====
section
/-! SUPPORT. The operations that raise no line and request no entry, said once for each: what a handler entry outputs is
then its calls, the nudges, and what its end adds. -/

namespace Sys2Proof.Machine

/-- An output that is neither a line nor a request for an entry of the block. -/
def Output.isCall : Output → Bool
  | .line _ => false
  | .reschedule _ _ => false
  | .vifNudge _ => true
  | .transfer _ _ _ => true
  | .execute _ _ => true

/-- `t` follows `s` by work that raises no line and asks for no entry. -/
structure Silent (s t : State) : Prop where
  out   : ∃ new, t.out = s.out ++ new ∧ ∀ o ∈ new, o.isCall = true
  entry : t.sched.entry = s.sched.entry

namespace Silent

variable {s t u : State}

theorem of_eq (h : t.out = s.out) (k : t.sched = s.sched) : Silent s t :=
  ⟨⟨[], by simp [h], by simp⟩, by rw [k]⟩

theorem refl (s : State) : Silent s s := of_eq rfl rfl

theorem trans (h : Silent s t) (k : Silent t u) : Silent s u := by
  obtain ⟨a, ha, h1⟩ := h.out
  obtain ⟨b, hb, h2⟩ := k.out
  exact ⟨⟨a ++ b, by rw [hb, ha, List.append_assoc], by
    intro o ho; rcases List.mem_append.1 ho with m | m <;> [exact h1 o m; exact h2 o m]⟩, k.entry.trans h.entry⟩

theorem ofOne {o : Output} (h : t.out = s.out ++ [o]) (ho : o.isCall = true) (k : t.sched.entry = s.sched.entry) :
    Silent s t := ⟨⟨[o], h, by simpa using ho⟩, k⟩

theorem setFifo (s : State) (f : PacketFifo) : Silent s (s.setFifo f) := of_eq rfl rfl

theorem setCh (s : State) (f : Channel) : Silent s (s.setCh f) := of_eq rfl rfl

theorem addDiag (s : State) (f : DiagKind) : Silent s (s.addDiag f) := of_eq rfl rfl

theorem charge (s : State) (a : Acc) (n : Nat) : Silent s (s.charge a n) := by cases a <;> exact of_eq rfl rfl

theorem transfer (s : State) (k : FeedKind) (b : List Byte) (n : Nat) : Silent s (s.callReceiver (.transfer k b n)) :=
  ofOne rfl rfl rfl

theorem execute (s : State) (a b : Bool) : Silent s (s.callReceiver (.execute a b)) := ofOne rfl rfl rfl

theorem nudge (s : State) (n : Nat) : Silent s (s.nudge n) := ofOne rfl rfl rfl

theorem consumed (s : State) (b n : Nat) : Silent s (s.consumed b n).1 := by
  rcases State.consumed_state s b n with h | h <;> rw [h]
  · exact refl s
  · exact of_eq rfl rfl

/-- The sink only calls the consumer. -/
theorem sink (src : Addr) (n : Nat) (a : Acc) {k : Nat} (h : sink src n a s = .ok (u, k)) : Silent s u := by
  simp only [Sys2Proof.Machine.sink] at h
  split at h
  · cases h; exact refl s
  · split at h
    · simp only [sinkFifo] at h
      split at h
      · cases h; exact refl s
      · split at h
        · cases h
        · cases h; exact (setFifo _ _).trans (charge _ _ _)
    · simp only [sinkDirect, State.callConsumer_eq] at h
      split at h
      · cases h
      · cases h; exact ((transfer _ _ _ _).trans (consumed _ _ _)).trans (charge _ _ _)

/-- A segment transfer only calls the consumer. -/
theorem segmentTransfer (a : Acc) (h : segmentTransfer a s = .ok u) : Silent s u := by
  have hn : Silent s (noteStallMode s) := by unfold noteStallMode; split <;> exact of_eq rfl rfl
  refine hn.trans ?_
  simp only [Sys2Proof.Machine.segmentTransfer, moveSegment] at h
  split at h
  · cases h; exact of_eq rfl rfl
  · split at h
    · cases h
    · rename_i hs; cases h; exact (sink _ _ _ hs).trans (of_eq rfl rfl)

/-- A leg only calls the consumer. -/
theorem ringLeg (src : Addr) (n : Nat) (a : Acc) {k : Nat} (h : ringLeg src n a s = .ok (u, k)) : Silent s u := by
  simp only [Sys2Proof.Machine.ringLeg] at h
  split at h
  · cases h
  · rename_i hs; cases h; exact (sink _ _ _ hs).trans (of_eq rfl rfl)

/-- A ring transfer only calls the consumer. -/
theorem ringTransfer (a : Acc) {r : RingResult} (h : ringTransfer a s = .ok (u, r)) : Silent s u := by
  simp only [Sys2Proof.Machine.ringTransfer] at h
  split at h
  · cases h; exact of_eq rfl rfl
  · split at h
    · cases h
    · rename_i hs
      cases h
      refine ((of_eq rfl rfl : Silent s (Sys2Proof.Machine.available s.ch.madr s).1).trans ?_).trans (setCh _ _)
      simp only [ringLegs] at hs
      split at hs
      · cases hs; exact of_eq rfl rfl
      · split at hs
        · cases hs
        · rename_i hl
          split at hs
          · refine (ringLeg _ _ _ hl).trans ?_
            simp only [ringWrap] at hs
            split at hs
            · cases hs; exact of_eq rfl rfl
            · split at hs
              · cases hs
              · rename_i hl2; cases hs; exact ringLeg _ _ _ hl2
          · cases hs; exact ringLeg _ _ _ hl

/-- A pass only calls the receiving unit and nudges the VIF. -/
theorem pathCheck (p : Pass) (s : State) : Silent s (pathCheck p s).1 := by
  have a : Silent s (pathKick s) := by
    simp only [pathKick]; split
    · split
      · exact (of_eq rfl rfl : Silent s (s.setGif _)).trans (execute _ _ _)
      · exact of_eq rfl rfl
    · exact refl s
  have b : ∀ s, Silent s (pathDemote s) := by intro s; simp only [pathDemote]; split <;> exact of_eq rfl rfl
  have c : ∀ s, Silent s (pathNudge s) := by
    intro s; simp only [pathNudge]; split
    · exact nudge _ _
    · exact refl s
  exact (a.trans (b _)).trans (c _)

/-- A read from a handler entry only calls the consumer (40_packet_fifo.md R75). -/
theorem fifoRead (s : State) : Silent s (fifoRead true s).1 := by
  simp only [Sys2Proof.Machine.fifoRead, Bool.not_true, Bool.false_and, Bool.false_eq_true, ↓reduceIte]
  split
  · exact of_eq rfl rfl
  · have h := fifoOffer_state s
    simp only at h
    rw [h]
    split
    · exact ((transfer _ _ _ _).trans (addDiag _ _)).trans (setFifo _ _)
    · exact (transfer _ _ _ _).trans (setFifo _ _)

/-- A drain only calls the consumer. -/
theorem fifoDrain (a : Acc) (s : State) : Silent s (fifoDrain a s) := (fifoRead s).trans (charge _ _ _)

/-- After its step a tag is silent, or raises STALL alone. -/
theorem settleTag (a : Acc) (t : TagType) (f : TagFields) (r : State × Bool) {r' : FetchResult} {u : State}
    (h : settleTag a t f r = (u, r')) :
    (r' = .ok ∧ Silent r.1 u) ∨ (r' = .stalled ∧ u.sched = r.1.sched ∧ u.out = r.1.out ++ [.line .stall]) := by
  simp only [Sys2Proof.Machine.settleTag] at h
  have e : (verdictTag t r).out = r.1.out ∧ (verdictTag t r).sched = r.1.sched := by
    simp only [verdictTag]; split <;> simp [mfifoClamp]
  split at h
  · cases h; right; exact ⟨rfl, e.2, by simp [stall, State.raise, e.1]⟩
  · cases h; left
    refine ⟨rfl, of_eq ?_ ?_⟩ <;> simp only [tagIrq] <;> split <;> simp [e]

/-- A fetch is silent, or stalls and raises STALL alone (41_chain_tags.md R92). -/
theorem tagFetch (a : Acc) {r : FetchResult} (h : tagFetch a s = .ok (u, r)) :
    ((r = .ok ∨ r = .fail) ∧ Silent s u) ∨ (r = .stalled ∧ u.sched = s.sched ∧ u.out = s.out ++ [.line .stall]) := by
  have key : ∀ step : State → State × Bool, ∀ t f, (∀ x, (step x).1.out = x.out ∧ (step x).1.sched = x.sched) →
      walkWith step a t f s = .ok (u, r) → ((r = .ok ∨ r = .fail) ∧ Silent s u) ∨
        (r = .stalled ∧ u.sched = s.sched ∧ u.out = s.out ++ [.line .stall]) := by
    intro step t f hst h
    simp only [walkWith] at h
    split at h
    · injection h with h
      have e : (step (loadTag a t f s)).1.out = s.out ∧ (step (loadTag a t f s)).1.sched = s.sched := by
        rw [(hst _).1, (hst _).2]; simp [loadTag]
      rcases settleTag a t f _ h with ⟨h1, h2⟩ | ⟨h1, h2, h3⟩
      · left; exact ⟨.inl h1, (of_eq e.1 e.2).trans h2⟩
      · right; exact ⟨h1, by rw [h2, e.2], by rw [h3, e.1]⟩
    · cases h
  have hcall : ∀ x, (stepCall x).1.out = x.out ∧ (stepCall x).1.sched = x.sched := by
    intro x; simp only [stepCall]; split_ifs <;> exact ⟨rfl, rfl⟩
  have hret : ∀ x, (stepRet x).1.out = x.out ∧ (stepRet x).1.sched = x.sched := by
    intro x; simp only [stepRet]; split_ifs <;> exact ⟨rfl, rfl⟩
  simp only [Sys2Proof.Machine.tagFetch] at h
  split at h
  · injection h with h
    have h1 := congrArg Prod.fst h
    have h2 := congrArg Prod.snd h
    simp only at h1 h2
    left; exact ⟨.inr h2.symm, by rw [← h1]; exact of_eq rfl rfl⟩
  · split at h
    · cases h
    · split at h
      · rename_i t f _
        cases t
        · exact key stepRefe _ _ (fun _ => ⟨rfl, rfl⟩) h
        · exact key stepCnt _ _ (fun _ => ⟨rfl, rfl⟩) h
        · exact key stepNext _ _ (fun _ => ⟨rfl, rfl⟩) h
        · exact key stepRef _ _ (fun _ => ⟨rfl, rfl⟩) h
        · exact key stepRefs _ _ (fun _ => ⟨rfl, rfl⟩) h
        · exact key stepCall _ _ hcall h
        · exact key stepRet _ _ hret h
        · exact key stepEnd _ _ (fun _ => ⟨rfl, rfl⟩) h
      · cases h
end Silent

end Sys2Proof.Machine
end

