-- ==== Sys2Proof/Laws/PerInstr.lean ====
section
/-! SUPPORT. Statements about every instruction as syntax, one lemma per constructor. Family Encodes: a tag has an encoding,
with its fields at their bits and its type's number in bits 30:28, and an interface operation has none (30_encoding.md R58,
R59, R61; opcode_table.json). -/

namespace Sys2Proof.Laws.Encodes

/-- An instruction has an encoding exactly when it is a tag, and the encoding holds its fields at their bits. -/
def Statement (i : Instr) : Prop :=
  ∀ m : TagIdMap, ((encode m i).isSome = i.tag?.isSome) ∧
    ∀ (q : Quad) (t : TagType) (f : TagFields), encode m i = some q → i.tag? = some (t, f) →
      q.extractLsb' 0 16 = f.qwc ∧ q.extractLsb' 28 3 = m.idOf t ∧ q.getLsbD 31 = f.irq ∧ q.extractLsb' 32 32 = f.addr

/-- A tag meets the statement. -/
theorem of_tag (t : TagType) (f : TagFields) : Statement (Instr.ofTag t f) := by
  refine fun m => ⟨by cases t <;> rfl, fun q t' f' he ht => ?_⟩
  rw [Instr.tag?_ofTag] at ht
  cases ht
  have hq : encodeTag m t f = q := by simpa [encode] using he
  subst hq
  have h := tagFieldsOf_encodeTag m t f
  exact ⟨congrArg TagFields.qwc h, tagIdOf_encodeTag m t f, congrArg TagFields.irq h, congrArg TagFields.addr h⟩

/-- An interface operation meets the statement: it has no bit pattern. -/
theorem of_operation (i : Instr) (h : i.tag? = none) : Statement i := by
  intro m
  refine ⟨by simp [encode, h], fun q t f he ht => ?_⟩
  rw [h] at ht; cases ht

theorem refe (f : TagFields) : Statement (.refe f) := of_tag .refe f
theorem cnt (f : TagFields) : Statement (.cnt f) := of_tag .cnt f
theorem next (f : TagFields) : Statement (.next f) := of_tag .next f
theorem ref (f : TagFields) : Statement (.ref f) := of_tag .ref f
theorem refs (f : TagFields) : Statement (.refs f) := of_tag .refs f
theorem call (f : TagFields) : Statement (.call f) := of_tag .call f
theorem ret (f : TagFields) : Statement (.ret f) := of_tag .ret f
theorem endTag (f : TagFields) : Statement (.endTag f) := of_tag .endTag f
theorem fifoInit : Statement .fifoInit := of_operation _ rfl
theorem fifoWrite (buf : List Quad) (count : BitVec 16) : Statement (.fifoWrite buf count) := of_operation _ rfl
theorem fifoRead (fromScheduledEvent : Bool) : Statement (.fifoRead fromScheduledEvent) := of_operation _ rfl
theorem dmaStart : Statement .dmaStart := of_operation _ rfl
theorem handlerEntry : Statement .handlerEntry := of_operation _ rfl
theorem cancel : Statement .cancel := of_operation _ rfl
theorem writerAdvance (w : Addr) : Statement (.writerAdvance w) := of_operation _ rfl
theorem snapshot : Statement .snapshot := of_operation _ rfl
theorem restore (saved : SavedBlock) : Statement (.restore saved) := of_operation _ rfl

end Sys2Proof.Laws.Encodes
end

