-- ==== Sys2Proof/Laws/Ring.lean ====
section
/-! SUPPORT. The ring's window and renormalization in numbers, for a well-formed ring; what the ring writer must not overrun. -/

namespace Sys2Proof.Machine

/-- A mask of `j` ones above four zeros keeps the multiples of 16 below its width. -/
theorem nat_and_mask (a j : Nat) : a &&& 16 * (2 ^ j - 1) = a % 2 ^ (j + 4) / 16 * 16 := by
  have h1 : 16 * (2 ^ j - 1) = (2 ^ j - 1) <<< 4 := by rw [Nat.shiftLeft_eq]; omega
  have h2 : a % 2 ^ (j + 4) / 16 * 16 = (a % 2 ^ (j + 4)) >>> 4 <<< 4 := by rw [Nat.shiftLeft_eq, Nat.shiftRight_eq_div_pow]
  rw [h1, h2]
  apply Nat.eq_of_testBit_eq
  intro i
  simp only [Nat.testBit_and, Nat.testBit_shiftLeft, Nat.testBit_shiftRight, Nat.testBit_two_pow_sub_one, Nat.testBit_mod_two_pow]
  by_cases h : 4 ≤ i
  · have : 4 + (i - 4) = i := by omega
    rw [this]
    have e : (decide (i - 4 < j)) = decide (i < j + 4) := by rw [decide_eq_decide]; omega
    simp [h, e, Bool.and_comm]
  · simp [h]

/-- Such a mask with its low bits set is a run of ones. -/
theorem nat_or_mask (j : Nat) : 16 * (2 ^ j - 1) ||| 15 = 2 ^ (j + 4) - 1 := by
  have h1 : 16 * (2 ^ j - 1) = (2 ^ j - 1) <<< 4 := by rw [Nat.shiftLeft_eq]; omega
  rw [h1, show (15 : Nat) = 2 ^ 4 - 1 from rfl]
  apply Nat.eq_of_testBit_eq
  intro i
  simp only [Nat.testBit_or, Nat.testBit_shiftLeft, Nat.testBit_two_pow_sub_one]
  by_cases h : 4 ≤ i
  · have e : (decide (i - 4 < j)) = decide (i < j + 4) := by rw [decide_eq_decide]; omega
    simp [h, e]
  · simp [h]; omega

/-- A well-formed ring in numbers: a window of `2^j` quadwords on a multiple of its size (10_state.md R32). -/
theorem State.ring_numbers (s : State) (h : s.ringWellFormed = true) :
    ∃ j, j ≤ 28 ∧ s.dmac.rbsr.toNat = 16 * (2 ^ j - 1) ∧ s.dmac.rbor.toNat % (16 * 2 ^ j) = 0 ∧
      s.dmac.rbor.toNat + 16 * 2 ^ j ≤ 4294967296 := by
  simp only [State.ringWellFormed, Bool.and_eq_true, List.any_eq_true, List.mem_range, beq_iff_eq] at h
  obtain ⟨⟨h1, k, hk, h2⟩, h3⟩ := h
  have hk4 : 4 ≤ k := by
    by_contra hc
    have : 2 ^ k ≤ 2 ^ 3 := Nat.pow_le_pow_right (by decide) (by omega)
    omega
  obtain ⟨j, rfl⟩ : ∃ j, k = j + 4 := ⟨k - 4, by omega⟩
  have hp : 2 ^ (j + 4) = 16 * 2 ^ j := by rw [Nat.pow_add]; omega
  have hr : s.dmac.rbsr.toNat = 16 * (2 ^ j - 1) := by omega
  have h3' := congrArg BitVec.toNat h3
  rw [BitVec.toNat_and, BitVec.toNat_or, hr, show (0xF : BitVec 32).toNat = 15 from rfl, nat_or_mask, Nat.and_two_pow_sub_one_eq_mod, hp] at h3'
  have h4 : s.dmac.rbor.toNat % (16 * 2 ^ j) = 0 := by simpa using h3'
  refine ⟨j, by omega, hr, h4, ?_⟩
  have hd : 16 * 2 ^ j ∣ 4294967296 := by
    rw [← hp]; exact (show (4294967296 : Nat) = 2 ^ 32 from rfl) ▸ Nat.pow_dvd_pow 2 (by omega)
  have hlt := s.dmac.rbor.isLt
  obtain ⟨c, hc⟩ := hd
  obtain ⟨d, hd⟩ := Nat.dvd_of_mod_eq_zero h4
  have hpos : 0 < 16 * 2 ^ j := by positivity
  have : d < c := by
    have : 16 * 2 ^ j * d < 16 * 2 ^ j * c := by rw [← hd, ← hc]; omega
    exact Nat.lt_of_mul_lt_mul_left this
  rw [hd, hc]
  calc 16 * 2 ^ j * d + 16 * 2 ^ j = 16 * 2 ^ j * (d + 1) := by ring
    _ ≤ _ := Nat.mul_le_mul_left _ this

/-- `Renorm` in numbers (43_mfifo.md R103). -/
theorem State.renorm_toNat (s : State) (a : Addr) (j : Nat) (hr : s.dmac.rbsr.toNat = 16 * (2 ^ j - 1))
    (hb : s.dmac.rbor.toNat + 16 * 2 ^ j ≤ 4294967296) :
    (s.renorm a).toNat = s.dmac.rbor.toNat + a.toNat % (16 * 2 ^ j) / 16 * 16 := by
  have hp : 2 ^ (j + 4) = 16 * 2 ^ j := by rw [Nat.pow_add]; omega
  have hpos : 0 < 16 * 2 ^ j := by positivity
  have := Nat.mod_lt a.toNat hpos
  rw [State.renorm, BitVec.toNat_add, BitVec.toNat_and, hr, nat_and_mask, hp]
  apply Nat.mod_eq_of_lt
  omega

/-- `Renorm` of an address whose offset in the window is known. -/
theorem State.renorm_offset (s : State) (a : Addr) (j : Nat) (hr : s.dmac.rbsr.toNat = 16 * (2 ^ j - 1))
    (hb : s.dmac.rbor.toNat + 16 * 2 ^ j ≤ 4294967296) (x : Nat) (ha : a.toNat % (16 * 2 ^ j) = x) (h16 : x % 16 = 0) :
    (s.renorm a).toNat = s.dmac.rbor.toNat + x := by
  rw [State.renorm_toNat s a j hr hb, ha]; omega

/-- Where a routed block drains the ring next. -/
theorem State.drain_iff (s : State) (d : Addr) :
    s.drain = some d ↔ s.routed = true ∧
      if s.ch.qwc ≠ 0 ∧ s.inWindow s.ch.madr = true then d = s.ch.madr
      else (s.chainMode = true ∧ s.eng.done = false) ∧
        if s.inWindow s.ch.tadr = true then d = s.ch.tadr else s.inWindow s.ch.madr = true ∧ d = s.ch.madr := by
  have key : ∀ (r q m c dn t : Bool) (x y : Addr),
      ((if !r then none else if q && m then some x else if !(c && !dn) then none else if t then some y
          else if m then some x else none) = some d) ↔
        (r = true ∧ if q = true ∧ m = true then d = x
          else (c = true ∧ dn = false) ∧ if t = true then d = y else m = true ∧ d = x) := by
    intro r q m c dn t x y
    cases r <;> cases q <;> cases m <;> cases c <;> cases dn <;> cases t <;> simp [eq_comm]
  simpa [State.drain] using key s.routed (s.ch.qwc != 0) (s.inWindow s.ch.madr) s.chainMode s.eng.done
    (s.inWindow s.ch.tadr) s.ch.madr s.ch.tadr

/-- What makes a cursor stand too far ahead of the drain. -/
theorem State.ringOverfull_iff (s : State) :
    s.ringOverfull = true ↔ ∃ d, s.drain = some d ∧ s.ringRoom < s.availableQuads d := by
  simp only [State.ringOverfull]
  cases s.drain <;> simp

/-- When the cursor that the writer moves to is measured. -/
theorem State.measuresCursor_iff (s : State) :
    s.measuresCursor = true ↔ s.ch.chcr.str = true ∨ s.lead = .kept := by
  simp [State.measuresCursor]

/-- When the way that the writer takes is measured. -/
theorem State.measuresWay_iff (s : State) :
    s.measuresWay = true ↔ s.lead = .kept ∨ s.lead = .fresh ∧ s.ch.chcr.str = true := by
  simp [State.measuresWay]

/-- What makes the writer's move overrun the drain. -/
theorem State.writerOverruns_iff (s : State) (w : Addr) :
    s.writerOverruns w = true ↔ ∃ d, s.drain = some d ∧
      ((s.ch.chcr.str = true ∨ s.lead = .kept) ∧ s.ringRoom < s.ringQuads d w ∨
        (s.lead = .kept ∨ s.lead = .fresh ∧ s.ch.chcr.str = true) ∧
          s.availableQuads d ≤ s.ringRoom ∧ s.ringRoom < s.availableQuads d + s.ringQuads s.wcur w) := by
  simp only [State.writerOverruns]
  cases s.drain <;> simp [State.measuresCursor_iff, State.measuresWay_iff, and_assoc]

/-- A move that is measured and does not overrun the drain leaves the cursor within the writer's room of the same drain. -/
theorem State.ringOverfull_setWcur (s : State) (w : Addr) (hm : s.measuresCursor = true)
    (h : s.writerOverruns w = false) : (s.setWcur w).ringOverfull = false := by
  have e : (s.setWcur w).drain = s.drain := rfl
  simp only [State.ringOverfull, e]
  simp only [State.writerOverruns, hm, Bool.true_and] at h
  cases hd : s.drain with
  | none => rfl
  | some d =>
    rw [hd] at h
    exact (Bool.or_eq_false_iff.1 h).1

end Sys2Proof.Machine
end

