-- ==== Sys2Proof/Laws/Step.lean ====
section
/-! SUPPORT. What one step can do: the next move of the agenda, else the scheduler's; what an invocation, the scheduler and a
fetch with no tag due answer; and what a register write does to the write cursor's lead. -/

namespace Sys2Proof.Machine

/-- A step makes the next move on the agenda, unless an entry has diverged. -/
theorem step_move {s : State} {e : Event} {rest : List Event} (hd : s.diverged = false) (ha : s.agenda = e :: rest) :
    step s = runEvent e { s with agenda := rest } := by
  simp [step, hd, ha]

/-- With no move left a step is the scheduler's. -/
theorem step_no_move {s : State} (hd : s.diverged = false) (ha : s.agenda = []) : step s = schedule s := by
  simp [step, hd, ha]

/-- The scheduler takes the pending entry out of its slot and runs it. -/
theorem schedule_pending {s : State} {e : PendingEntry} (h : s.sched.entry = some e) :
    schedule s = exec .handlerEntry s.takeEntry := by
  simp [schedule, h, deliver]

/-- With no entry pending the scheduler does nothing. -/
theorem schedule_quiescent {s : State} (h : s.sched.entry = none) : schedule s = .next s := by
  simp [schedule, h]

/-- An invocation answers a next state exactly where the host has the move and the operation answers it. -/
theorem invoke_next_iff (i : Instr) (s t : State) : invoke i s = .next t ↔ breachOf i s = none ∧ exec i s = .next t := by
  cases h : breachOf i s <;> simp [invoke, h]

/-- A fetch of its own with no tag due reads nothing and returns Ok. -/
theorem walk_not_due {s : State} (h : s.tagDue = false) : walk s = .next (s.returning (.fetch .ok)) := by
  simp [walk, fetchAtTadr, h]

/-- What makes a launch one the writer has overrun: the drain is that of the engine the launch leaves. -/
theorem State.launchOverfull_iff (s : State) :
    s.launchOverfull = true ↔ ∃ d, (s.setEng s.launchEngine).drain = some d ∧ s.ringRoom < s.availableQuads d := by
  simp only [State.launchOverfull, State.ringOverfull]
  cases (s.setEng s.launchEngine).drain <;> simp [State.ringRoom, State.availableQuads, State.ringQuads, State.ringLimit]

/-- A register write loosens the write cursor's lead or leaves it. -/
theorem writeReg_lead (r : Reg) (v : Word) (s : State) : (writeReg r v s).lead = .loose ∨ (writeReg r v s).lead = s.lead := by
  cases r <;> first | exact .inl rfl | exact .inr rfl

end Sys2Proof.Machine
end

