-- ==== Sys2Proof/Tests/Slice0.lean ====
section
/-! SUPPORT. The model's own tests, with expected results from spec/95_test_vectors.md (the vector is named in each comment)
or worked out by hand from the rule named; and, for every statement with hypotheses, a state and operands that meet them. -/

namespace Sys2Proof.Tests

open Sys2Proof.Machine Sys2Proof.Claims

/-- The next state, if there is one. -/
def nextOf : Host.Outcome State Fault Refusal → Option State
  | .next s => some s
  | .fault _ => none
  | .refused _ => none

/-- The refusal, if there is one. -/
def refusalOf : Host.Outcome State Fault Refusal → Option Refusal
  | .next _ => none
  | .fault _ => none
  | .refused r => some r

/-- The outcome is a next state, and it passes the test. -/
def passes (x : Host.Outcome State Fault Refusal) (p : State → Bool) : Bool :=
  match nextOf x with
  | some u => p u
  | none => false

/-- A run that passes a test has a next state that passes it. -/
theorem passes_next (x : Host.Outcome State Fault Refusal) (p : State → Bool) (h : passes x p = true) :
    ∃ u, x = .next u ∧ p u = true := by
  cases x with
  | next u => exact ⟨u, rfl, h⟩
  | fault f => cases h
  | refused r => cases h

/-- What a fetch comes to passes the test, with the result `r`. -/
def fetches (x : Option (State × FetchResult)) (r : FetchResult) (p : State → Bool) : Bool :=
  match x with
  | some (u, r') => r' == r && p u
  | none => false

theorem fetches_some (x : Option (State × FetchResult)) (r : FetchResult) (p : State → Bool) (h : fetches x r p = true) :
    ∃ u, x = some (u, r) ∧ p u = true := by
  cases x with
  | none => cases h
  | some y =>
    obtain ⟨u, r'⟩ := y
    simp only [fetches, Bool.and_eq_true, beq_iff_eq] at h
    exact ⟨u, by rw [h.1], h.2⟩

/-- A running chain-mode channel. -/
def base : State := { State.reset with ch.chcr.str := true, ch.chcr.mod := 1 }

/-- The same with the sixteen bytes of `w` at `a`, and TADR there. -/
def chain (a : Addr) (w : Nat) : State :=
  { base with ch.tadr := a, mem := Memory.writeBytes [] a.toNat (leBytes 16 w) }

/-- The receiving unit of the vectors' defaults. -/
def idleReceiver : Receiver := { p3 := .idle, apath := 0, oph := false, canAccept := true, masked := false }

/-- A consumer that reports `n` bytes. -/
def takes (n : Nat) : Answer := { consumed := n, after := idleReceiver }

/-- A FIFO holding `occ` entries from read index `rd`, its words numbered. -/
def fifoOf (rd : Nat) (occ : Nat) : PacketFifo :=
  { data := Vector.ofFn (fun i : Fin 64 => BitVec.ofNat 32 i.val), stage := Vector.replicate 64 0
    rd := BitVec.ofNat 6 rd, wr := BitVec.ofNat 6 (rd + 4 * occ), occ := occ, status := statusOf occ }

/-- The ring of 95_test_vectors.md section 6. -/
def ring : State :=
  { base with dmac := { mfd := 3, sts := 0, std := 0, stadr := 0, rbor := 0x1000, rbsr := 0xF0 }, wcur := 0x1040 }

/-- Program P3 at its start: three tags in one entry. -/
def threeTags : State :=
  { base with ch.tadr := 0x1000, script := [takes 16]
              mem := (Memory.writeBytes [] 0x1000 (leBytes 16 0x0000110020000000)
                |>.writeBytes 0x1100 (leBytes 16 0x10000000)
                |>.writeBytes 0x1110 (leBytes 16 0x0000400000000001)) }

/-- Program P4 at its start: a tag that stalls. -/
def stallTag : State := { chain 0x1000 0x0000500040000002 with dmac.std := 2, dmac.stadr := 0x5010 }

/-- Program P5 at its start, with the write cursor at `w` (P6 with 0x10F0). -/
def ringTag (w : Addr) : State :=
  { ring with ch.tadr := 0x10E0, wcur := w, script := [takes 16, takes 32]
              mem := Memory.writeBytes [] 0x10E0 (leBytes 16 0x10000003) }

/-- The same with another tag, `w`, at 0x10E0. -/
def ringWith (w : Nat) : State := { ringTag 0x1040 with mem := Memory.writeBytes [] 0x10E0 (leBytes 16 w) }

/-- A tag's fields with the ignored bits clear. -/
def tag (qwc : BitVec 16) (irq : Bool) (addr : Addr) : TagFields :=
  { qwc := qwc, spare := 0, pce := 0, irq := irq, addr := addr, upper := 0 }

/-! Well-formedness: an ill-formed term for each check, which it refuses. -/

theorem test_wellFormed_tag_address : (Instr.cnt (tag 1 false 0x1008)).wellFormed = false := by decide
theorem test_wellFormed_write_buffer : (Instr.fifoWrite [0] 2).wellFormed = false := by decide
theorem test_wellFormed_restored_fifo :
    (Instr.restore { eng := zeroEngine, fifo := { zeroFifo with occ := 17 }, diag := noDiag }).wellFormed = false := by
  decide
theorem test_wellFormed_mirror :
    (Instr.restore { eng := zeroEngine, fifo := { zeroFifo with status := .full }, diag := noDiag }).wellFormed = false := by
  decide
theorem test_wellFormed_accepts :
    (Instr.fifoWrite [0, 0] 2).wellFormed = true ∧ (Instr.refe (tag 1 false 0x4000)).wellFormed = true := by decide

/-! Decoding: the words of 95_test_vectors.md section 2, one for every tag. -/

theorem test_decode_refe : decodeTableWord 64 0x0000400000000001 = some (.refe (tag 1 false 0x4000)) := by decide
theorem test_decode_cnt : decodeTableWord 64 0x000000001000FFFF = some (.cnt (tag 0xFFFF false 0)) := by decide
theorem test_decode_next : decodeTableWord 64 0x0000110020000000 = some (.next (tag 0 false 0x1100)) := by decide
theorem test_decode_ref : decodeTableWord 64 0x0000200030000001 = some (.ref (tag 1 false 0x2000)) := by decide
theorem test_decode_refs : decodeTableWord 64 0x0000500040000002 = some (.refs (tag 2 false 0x5000)) := by decide
theorem test_decode_call : decodeTableWord 64 0x0000300050000001 = some (.call (tag 1 false 0x3000)) := by decide
theorem test_decode_ret : decodeTableWord 64 0x0000000060000001 = some (.ret (tag 1 false 0)) := by decide
theorem test_decode_end : decodeTableWord 64 0x0000000070000000 = some (.endTag (tag 0 false 0)) := by decide

/-- The bytes of `CNT qwc=1 irq` in address order. -/
theorem test_decode_bytes :
    decode Config.defaultTagIds [0x01, 0, 0, 0x90, 0, 0, 0, 0, 0, 0, 0, 0, 0, 0, 0, 0, 0xAA]
      = .ok (.cnt (tag 1 true 0), [0xAA]) := by decide
theorem test_decode_short : decode Config.defaultTagIds (List.replicate 15 0) = .error .short := by decide

/-- E-1: bits 27:16 are ignored. -/
theorem test_decode_E1 :
    decodeTableWord 64 0xFC0F1234
      = some (.endTag { qwc := 0x1234, spare := 0x00F, pce := 3, irq := true, addr := 0, upper := 0 }) := by decide

/-- The encoding table's bytes of `CALL qwc=1 addr=0x3000`. -/
theorem test_encode_call :
    (encode Config.defaultTagIds (.call (tag 1 false 0x3000))).map bytesOfQuad
      = some [0x01, 0, 0, 0x50, 0, 0x30, 0, 0, 0, 0, 0, 0, 0, 0, 0, 0] := by decide

/-- No interface operation has a bit pattern (opcode_table.json). -/
theorem test_encode_operation : encode Config.defaultTagIds .dmaStart = none := by decide

/-! The tags. -/

/-- T1. -/
theorem test_refe_T1 :
    (nextOf (walk (chain 0x1000 0x0000200000000000))).map
      (fun u => (u.ch.madr, u.ch.qwc, u.ch.tadr, u.eng.done, u.eng.cyc)) = some (0x2000, 0, 0x1010, true, 2) := by decide

/-- E-2. -/
theorem test_refe_E2 : (nextOf (walk (chain 0x1000 0x8FFF0000))).map (fun u => u.ch.chcr.tag) = some 0x8FFF := by decide

/-- T2: the addresses wrap. -/
theorem test_cnt_T2 :
    (nextOf (walk (chain 0xFFFFFFE0 0x10000001))).map (fun u => (u.ch.madr, u.ch.tadr, u.eng.done))
      = some (0xFFFFFFF0, 0, false) := by decide

/-- T11, T11b: the tag-IRQ rule. -/
theorem test_cnt_T11 :
    (nextOf (walk { chain 0x1000 0x90000001 with ch.chcr.tie := true })).map (fun u => (u.ch.madr, u.ch.tadr, u.eng.done))
        = some (0x1010, 0x1020, true) ∧
      (nextOf (walk (chain 0x1000 0x90000001))).map (fun u => u.eng.done) = some false := by decide

/-- T3. -/
theorem test_next_T3 :
    (nextOf (walk (chain 0x1000 0x0000300020000001))).map (fun u => (u.ch.madr, u.ch.tadr, u.eng.done))
      = some (0x1010, 0x3000, false) := by decide

/-- M10: the ring clamps the next address into the window. -/
theorem test_next_M10 :
    (nextOf (exec (.next (tag 1 false 0x9000)) { ring with ch.tadr := 0x1000 })).map (fun u => (u.ch.madr, u.ch.tadr))
      = some (0x1010, 0x1000) := by decide

/-- T4. -/
theorem test_ref_T4 :
    (nextOf (walk (chain 0xFFFFFFF0 0x0000200030000001))).map (fun u => (u.ch.madr, u.ch.tadr)) = some (0x2000, 0) := by
  decide

/-- M9: a reference's MADR is kept, TADR is clamped. -/
theorem test_ref_M9 :
    (nextOf (exec (.ref (tag 1 false 0x8000)) { ring with ch.tadr := 0x10F0 })).map (fun u => (u.ch.madr, u.ch.tadr))
      = some (0x8000, 0x1000) := by decide

/-- T5, T5b: equality does not stall, one quadword less does. -/
theorem test_refs_T5 :
    (nextOf (walk { chain 0x1000 0x0000500040000002 with dmac.std := 2, dmac.stadr := 0x5020 })).map
        (fun u => (u.ch.tadr, u.ch.qwc, u.ret)) = some (0x1010, 2, .fetch .ok) ∧
      (nextOf (walk { chain 0x1000 0x0000500040000002 with dmac.std := 2, dmac.stadr := 0x5010 })).map
        (fun u => (u.ch.tadr, u.ch.qwc, u.eng.prev, u.out, u.ret))
        = some (0x1000, 0, 2, [.line .stall], .fetch .stalled) := by decide

/-- M15: the stall rewinds round the ring. -/
theorem test_refs_M15 :
    (nextOf (exec (.refs (tag 2 false 0x5000))
      { ring with ch.tadr := 0x10F0, dmac := { ring.dmac with std := 2, stadr := 0x5010 } })).map
      (fun u => (u.ch.tadr, u.ret)) = some (0x10F0, .fetch .stalled) := by decide

/-- T8b, T8c. -/
theorem test_call_T8 :
    (nextOf (walk { chain 0x3000 0x0000400050000000 with ch.chcr.asp := 1 })).map
        (fun u => (u.ch.madr, u.ch.asr1, u.ch.chcr.asp, u.ch.tadr)) = some (0x3010, 0x3010, 2, 0x4000) ∧
      (nextOf (walk { chain 0x4000 0x0000500050000001 with ch.chcr.asp := 2 })).map
        (fun u => (u.ch.madr, u.ch.tadr, u.eng.done, u.diag.callStackOverflow)) = some (0x4010, 0x4000, true, true) := by
  decide

/-- T8d. -/
theorem test_call_T8d :
    (nextOf (walk (chain 0x1000 0x50000002))).map
      (fun u => (u.ch.madr, u.ch.tadr, u.ch.chcr.asp, u.diag.callAddrZero, u.eng.done))
      = some (0x1010, 0x1030, 0, true, false) := by decide

/-- T9a. -/
theorem test_ret_T9a :
    (nextOf (walk { chain 0x4000 0x60000000 with ch.chcr.asp := 2, ch.asr1 := 0x3010 })).map
      (fun u => (u.ch.madr, u.ch.tadr, u.ch.asr1, u.ch.chcr.asp)) = some (0x4010, 0x3010, 0, 1) := by decide

/-- T9c: an invalid pointer acts as an empty stack. -/
theorem test_ret_T9c :
    (nextOf (walk { chain 0x3000 0x60000001 with ch.chcr.asp := 3 })).map
      (fun u => (u.ch.madr, u.ch.tadr, u.ch.chcr.asp, u.eng.done)) = some (0x3010, 0x3000, 3, true) := by decide

/-- T10. -/
theorem test_end_T10 :
    (nextOf (walk (chain 0x1040 0x70000001))).map (fun u => (u.ch.madr, u.ch.tadr, u.eng.done))
      = some (0x1050, 0x1040, true) := by decide

/-- R46: a tag's misaligned address field is refused. -/
theorem test_end_misaligned :
    refusalOf (walk (chain 0x1040 0x0000000870000001)) = some (.misalignedTag 8) := by decide

/-! The Packet FIFO. -/

/-- FIFO-I1. -/
theorem test_fifoInit_I1 :
    (nextOf (exec .fifoInit { base with fifo := fifoOf 8 5, eng.done := true, eng.state := .empty })).map
      (fun u => (u.fifo, u.eng.state, u.eng.done)) = some (zeroFifo, .ready, false) := by decide

/-- FIFO-W3. -/
theorem test_fifoWrite_W3 :
    (nextOf (exec (.fifoWrite (List.replicate 8 5) 8) { base with fifo := fifoOf 0 10 })).map
      (fun u => (u.fifo.wr, u.fifo.occ, u.fifo.status, u.ret)) = some (0, 16, .full, .count 6) := by decide

/-- FIFO-W5: low word first, past word 63 to word 0. -/
theorem test_fifoWrite_W5 :
    (nextOf (exec (.fifoWrite [0x00000004000000030000000200000001, 0x00000008000000070000000600000005] 2)
      { base with fifo := fifoOf 60 0 })).map
      (fun u => (u.fifo.data.toList.drop 60, u.fifo.data.toList.take 4, u.fifo.wr, u.fifo.occ))
      = some ([1, 2, 3, 4], [5, 6, 7, 8], 4, 2) := by decide

/-- FIFO-R1. -/
theorem test_fifoRead_R1 :
    (nextOf (exec (.fifoRead true) { base with fifo := fifoOf 60 3, script := [takes 32] })).map
      (fun u => (u.fifo.rd, u.fifo.occ, u.fifo.status, u.ret, u.fifo.stage.toList.take 12))
      = some (4, 1, .normal, .count 1, [60, 61, 62, 63, 0, 1, 2, 3, 4, 5, 6, 7]) := by decide

/-- FIFO-R5, FIFO-R6. -/
theorem test_fifoRead_R5_R6 :
    (nextOf (exec (.fifoRead true) { base with fifo := fifoOf 0 3, script := [takes 100] })).map
        (fun u => (u.fifo.occ, u.diag.consumerOverrun)) = some (0, true) ∧
      (nextOf (exec (.fifoRead false) { base with fifo := fifoOf 0 2, gif.canAccept := false })).map
        (fun u => (u.fifo.occ, u.ret, u.out)) = some (2, .count 0, [.reschedule 4 .gif]) := by decide

/-! Start, cancel, the handler's entries. -/

/-- H-3, H-6. -/
theorem test_dmaStart_H3_H6 :
    (nextOf (exec .dmaStart { base with ch.qwc := 2, ch.chcr.tag := 0x7000 })).map (fun u => u.eng.done) = some true ∧
      (nextOf (exec .dmaStart { base with ch.chcr.tag := 0x7000 })).map (fun u => (u.eng.done, u.out))
        = some (false, [.reschedule 4 .gif]) := by decide

/-- H-5, H-5b. -/
theorem test_dmaStart_H5 :
    (nextOf (exec .dmaStart { base with ch.qwc := 2, ch.chcr.tag := 0x9000, ch.chcr.tie := true })).map
        (fun u => u.eng.done) = some true ∧
      (nextOf (exec .dmaStart { base with ch.qwc := 2, ch.chcr.tag := 0x9000 })).map (fun u => u.eng.done) = some false := by
  decide

/-- A vector's gate: path 3 in WAIT, the VIF waiting, masked (C-3). -/
def waiting : State :=
  { base with gif := { idleReceiver with p3 := .wait, masked := true }, vif.vgw := true, ch.qwc := 5 }

/-- C-3: the demotion, then the gate; and the first entry E1 of the programs P1, P3 and P4. MADR, TADR, what is output beside
the calls of the consumer. -/
theorem test_handlerEntry_direct :
    [waiting, { chain 0x1000 0x10000002 with script := [takes 32] }, threeTags, stallTag].map
      (fun s => (nextOf (exec .handlerEntry s)).map
        (fun u => (u.ch.madr, u.ch.tadr, u.out.filter (fun o => !(o matches .transfer _ _ _)))))
      = [some (0, 0, [.vifNudge 1]), some (0x1030, 0x1030, [.reschedule 6 .gif]),
         some (0x4010, 0x1120, [.reschedule 8 .gif]), some (0x5000, 0x1000, [.line .stall, .reschedule 2 .gif])] := by decide

/-- H-1: nothing is written but the outcome. -/
theorem test_cancel_H1 :
    (nextOf (exec .cancel { base with gif.apath := 3 })).map (fun u => (u.ch.chcr.str, u.gif.apath, u.out))
      = some (false, 3, []) := by decide

/-! The ring. -/

/-- M1 to M4. -/
theorem test_ring_M1 :
    [0x1020, 0x1040, 0x10E0].map ring.availableQuads = [2, 0, 6] ∧
      [0x1100, 0x1120, 0x10F0].map ring.renorm = [0x1000, 0x1020, 0x10F0] := by decide

/-- MF-S1: the source's own scenario, with its ill-formed mask and with the well-formed one. -/
theorem test_ring_S1 :
    ({ ring with dmac.rbsr := 0xFFF, wcur := 0x1800 } : State).availableQuads 0x1C00 = 192 ∧
      ({ ring with dmac.rbsr := 0xFF0, wcur := 0x1800 } : State).availableQuads 0x1C00 = 192 := by decide

/-- M13, M14. -/
theorem test_writerAdvance_M13 :
    (nextOf (exec (.writerAdvance 0x1060) { ring with eng.state := .empty })).map (fun u => (u.wcur, u.out))
        = some (0x1060, [.reschedule 4 .mfifo]) ∧
      (nextOf (exec (.writerAdvance 0x1060) ring)).map (fun u => (u.wcur, u.out)) = some (0x1060, []) := by decide

/-! Snapshot and restore (60_exceptions.md R141). -/

theorem test_snapshot :
    (nextOf (exec .snapshot { base with fifo := fifoOf 4 2, eng.cyc := 7 })).map (fun u => u.ret)
      = some (.saved { eng := { zeroEngine with cyc := 7 }, fifo := fifoOf 4 2, diag := noDiag }) := by decide

theorem test_restore :
    (nextOf (exec (.restore { eng := { zeroEngine with cyc := 7 }, fifo := fifoOf 4 2, diag := noDiag })
      { base with ch.qwc := 9 })).map (fun u => (u.fifo.occ, u.eng.cyc, u.ch.qwc)) = some (2, 7, 9) := by decide

/-! The step. -/

/-- A tag placed for the fetch is what the next step runs (P1's first tag). -/
theorem test_withFetchWord :
    (nextOf (step (State.reset.withFetchWord 64 0x10000002))).map (fun u => (u.ch.qwc, u.ch.madr, u.ch.tadr))
      = some (2, 0x10, 0x30) := by decide

/-- A register write by the controller (30_encoding.md R65), a store by another agent. -/
theorem test_step_moves :
    (nextOf (step { base with agenda := [.writeReg .ctrl 0x8C] })).map (fun u => (u.dmac.mfd, u.dmac.std)) = some (3, 2) ∧
      (nextOf (step { base with agenda := [.writeMem 0x20 [1, 0, 2]] })).map (fun u => u.mem)
        = some [(0x20, 1), (0x22, 2)] := by decide

/-- A routed channel that drains at 0x1020, the write cursor at `w`. -/
def draining (w : Addr) : State := { ring with ch.madr := 0x1020, ch.qwc := 3, wcur := w }

/-- The same channel on the ill-formed ring of MF-S1. -/
def drainingS1 : State := { ring with dmac.rbsr := 0xFFF, wcur := 0x1800, ch.madr := 0x1C00, ch.qwc := 3 }

/-- A ring set up before its launch, as after session start (70_reset_and_hazards.md R149): the cursor is still 0. -/
def setUp : State :=
  { State.reset with dmac := { ring.dmac with rbor := 0 }, ch.chcr.mod := 1, ch.tadr := 0x80 }

/-- A channel about to start again after a DMA that is done: its next tag is at 0x1000. -/
def relaunch (w : Addr) : State := { ring with eng.done := true, ch.tadr := 0x1000, wcur := w }

/-- What the host may not do (60_exceptions.md R142): FifoInit while the channel runs, lower STADR while it is stalled, and
start a DMA whose first tag the writer has overrun (70_reset_and_hazards.md R150 premise 5), though the DMA before it is done;
raising STADR is allowed, and so is a start with 15 quadwords ahead. -/
theorem test_step_breach :
    refusalOf (step { base with agenda := [.call .fifoInit] }) = some (.noSuchHostMove .fifoInitWhileRunning) ∧
      refusalOf (step { stallTag with stalled := true, agenda := [.writeReg .stadr 0x5000] })
        = some (.noSuchHostMove .stadrLowered) ∧
      (nextOf (step { stallTag with stalled := true, agenda := [.writeReg .stadr 0x5020] })).map (fun u => u.dmac.stadr)
        = some 0x5020 ∧
      refusalOf (step { relaunch 0x5000 with agenda := [.call .dmaStart] }) = some (.noSuchHostMove .writerOverrun) ∧
      (nextOf (step { relaunch 0x10F0 with agenda := [.call .dmaStart] })).map (fun u => (u.eng.done, u.lead))
        = some (false, .kept) := by decide

/-- A ring writer past the drain: round the ring, out of the window, on an ill-formed ring, in a channel that was cancelled.
It may keep 15 quadwords of that ring ahead, 255 of the ill-formed one, and may bring a cursor into its room; it sets its
cursor before a launch (R149), and moves it freely when the DMA is done and drains nothing. -/
theorem test_writerAdvance_overrun :
    [(draining 0x1010, 0x1030), (draining 0x1000, 0x2000), (draining 0x1000, 0x5000), (drainingS1, 0x1C00),
      ({ draining 0x1000 with ch.chcr.str := false, lead := .kept }, 0x2000)].map
      (fun m => refusalOf (step { m.1 with agenda := [.call (.writerAdvance m.2)] }))
      = List.replicate 5 (some (.noSuchHostMove .writerOverrun)) ∧
    [(draining 0x1000, 0x1010), (drainingS1, 0x1BF0), (draining 0, 0x1010), (setUp, 0x90),
      ({ relaunch 0x1030 with ch.madr := 0x1040 }, 0x1060)].map
      (fun m => (nextOf (step { m.1 with agenda := [.call (.writerAdvance m.2)] })).map (fun u => u.wcur))
      = [some 0x1010, some 0x1BF0, some 0x1010, some 0x90, some 0x1060] := by decide

/-- Memory is written back to the unlisted value by removing the entry. -/
theorem test_memory_canonical : Memory.write (Memory.write [] 5 7) 5 0 = [] := by decide

/-! Witnesses: for every statement with hypotheses, and for each clause of one that has several, a state and operands that
meet them together. -/

/-- The empty-FIFO state a write of two quadwords starts from. -/
def fifoTwo : State := { base with fifo := fifoOf 60 14 }

theorem witness_FifoWriteEffect : (2 : BitVec 16).toNat ≤ ([7, 8] : List Quad).length := by decide
theorem witness_FifoWriteShortBuffer : ([] : List Quad).length < (1 : BitVec 16).toNat := by decide
theorem witness_FifoReadEffect : ({ base with fifo := fifoOf 0 16 } : State).fifo.occ ≤ 16 := by decide
theorem witness_FifoReadRetry_refused :
    0 < fifoTwo.fifo.occ ∧ ({ fifoTwo with gif.canAccept := false } : State).gif.canAccept = false := by decide
theorem witness_FifoReadRetry_empty : base.fifo.occ = 0 := by decide
theorem witness_FifoReadRetry_accepted : fifoTwo.gif.canAccept = true ∧ 0 < fifoTwo.fifo.occ := by decide
theorem witness_FifoKeepsOrder_write : fifoInv fifoTwo.fifo = true ∧ (3 : BitVec 16).toNat ≤ ([7, 8, 9] : List Quad).length := by
  decide
theorem witness_FifoKeepsOrder_read : fifoInv fifoTwo.fifo = true ∧ readIdle fifoTwo = false := by decide
theorem witness_FifoHandsOverInOrder :
    fifoInv (fifoOf 60 0) = true ∧ ({ base with fifo := fifoOf 60 0, script := [takes 48] } : State).fifo.occ = 0 ∧
      base.gif.canAccept = true ∧ 0 < ([7, 8, 9] : List Quad).length ∧ ([7, 8, 9] : List Quad).length ≤ 16 ∧
      16 * ([7, 8, 9] : List Quad).length ≤ ({ base with script := [takes 48] } : State).nextAnswer.consumed := by decide

/-- Stall control on the GIF channel at stall address `a`, the channel at a tag at 0x1000. -/
def stallAt (a : Addr) : State := { base with ch.tadr := 0x1000, dmac.std := 2, dmac.stadr := a }

theorem witness_RefeEffect : aligned 0x5000 = true ∧ stalls base .refe (tag 2 false 0x5000) = false := by decide
theorem witness_CntEffect : aligned 0 = true ∧ TagType.cnt ∉ base.cfg.stallIds := by decide
theorem witness_NextEffect : aligned 0x1100 = true ∧ TagType.next ∉ base.cfg.stallIds := by decide
theorem witness_RefEffect : aligned 0x5000 = true ∧ stalls (stallAt 0x5010) .ref (tag 2 false 0x5000) = false := by decide
theorem witness_RefsEffect : aligned (tag 2 false 0x5000).addr = true := by decide
theorem witness_CallEffect : aligned 0x3000 = true ∧ TagType.call ∉ base.cfg.stallIds := by decide
theorem witness_RetEffect : aligned 0 = true ∧ TagType.ret ∉ base.cfg.stallIds := by decide
theorem witness_EndEffect : aligned 0 = true ∧ TagType.endTag ∉ base.cfg.stallIds := by decide
theorem witness_StallCheck_stalls :
    aligned 0x5000 = true ∧ (∀ x ∈ base.cfg.stallIds, x = .ref ∨ x = .refs ∨ x = .refe) ∧
      stalls (stallAt 0x5010) .refs (tag 2 false 0x5000) = true := by decide
theorem witness_StallCheck_passes :
    aligned 0x5000 = true ∧ (∀ x ∈ base.cfg.stallIds, x = .ref ∨ x = .refs ∨ x = .refe) ∧
      stalls (stallAt 0x5020) .refs (tag 2 false 0x5000) = false := by decide
theorem witness_StallRewindsToTag :
    aligned 0x5000 = true ∧ stalls (stallAt 0x5010) .refs (tag 2 false 0x5000) = true ∧ routed (stallAt 0x5010) = false := by
  decide

/-- A routed channel at the ring's last quadword, with stall control at 0x5010. -/
def ringStall : State := { ring with ch.tadr := 0x10F0, dmac := { ring.dmac with std := 2, stadr := 0x5010 } }

theorem witness_StallRewindsToTag_ring :
    stalls ringStall .refs (tag 2 false 0x5000) = true ∧ routed ringStall = true ∧ ringStall.ringWellFormed = true ∧
      inRing ringStall ringStall.ch.tadr = true ∧ aligned ringStall.ch.tadr = true := by decide
theorem witness_MisalignedTagRefused : (tag 0 false 0x1008).addr.toNat % 16 ≠ 0 := by decide
theorem witness_FetchCopiesTag :
    tagWanted (chain 0x1000 0x10000002) = true ∧
      (chain 0x1000 0x10000002).mapped (chain 0x1000 0x10000002).ch.tadr = true ∧ tagThere (chain 0x1000 0x10000002) = true ∧
      ∃ u, walk (chain 0x1000 0x10000002) = .next u ∧ (u.ch.chcr.tag == 0x1000) = true :=
  ⟨by decide, by decide, by decide, passes_next _ _ (by decide)⟩
theorem witness_FetchCopiesTag_ring :
    tagWanted (ringTag 0x1040) = true ∧ (ringTag 0x1040).mapped (ringTag 0x1040).ch.tadr = true ∧
      tagThere (ringTag 0x1040) = true ∧ ∃ u, walk (ringTag 0x1040) = .next u ∧ (u.ch.chcr.tag == 0x1000) = true :=
  ⟨by decide, by decide, by decide, passes_next _ _ (by decide)⟩

/-- A channel whose tag lies in an unmapped region. -/
def unmapped : State := { chain 0x1000 0 with cfg.mapped := [{ base := 0x2000, size := 0x1000 }] }

theorem witness_UnmappedTagAborts :
    Enters unmapped unmapped ∧ tagWanted unmapped = true ∧ unmapped.mapped unmapped.ch.tadr = false ∧
      unmapped.fifo.occ = 0 ∧ unmapped.cfg.loopFuel ≠ some 0 ∧ tagThere unmapped = true ∧ routed unmapped = false :=
  ⟨⟨rfl, by decide, rfl⟩, by decide⟩

/-- The same on the ring. -/
def unmappedRing : State := { ring with ch.tadr := 0x1020, cfg.mapped := [] }

theorem witness_UnmappedTagAborts_ring :
    Enters unmappedRing unmappedRing ∧ tagWanted unmappedRing = true ∧
      unmappedRing.mapped unmappedRing.ch.tadr = false ∧ unmappedRing.fifo.occ = 0 ∧
      unmappedRing.cfg.loopFuel ≠ some 0 ∧ tagThere unmappedRing = true ∧ routed unmappedRing = true :=
  ⟨⟨rfl, by decide, rfl⟩, by decide⟩
theorem witness_DmaStartEffect : launchable base ∧ base.cfg.tagIds.wellFormed = true := by
  unfold launchable; decide
theorem witness_DmaStartChecksPremises_holds : launchable ring := by unfold launchable; decide
theorem witness_DmaStartChecksPremises_broken :
    ¬ launchable { base with ch.madr := 8 } ∧ ¬ launchable { base with cfg.fifoCap := 8 } := by unfold launchable; decide
theorem witness_FinalizeEntry :
    let s : State := { base with eng.done := true }
    Enters s s ∧ s.fifo.occ = 0 ∧ s.ch.qwc = 0 ∧ s.eng.done = true := ⟨⟨rfl, by decide, rfl⟩, by decide⟩

/-- A segment of four quadwords at 0x2000, the consumer taking 40 of 64 bytes (X2). -/
def segment : State := { base with ch.madr := 0x2000, ch.qwc := 4, script := [takes 40] }

theorem witness_ConsumerTransferEntry :
    Enters segment segment ∧ segment.fifo.occ = 0 ∧ segment.ch.qwc ≠ 0 ∧ directSource segment = true ∧
      segment.fifoEmu = false ∧ 4 = chunk segment.cfg segment.ch.qwc.toNat ∧ runResolves segment segment.ch.madr 4 = true ∧
      2 = taken segment 4 := ⟨⟨rfl, by decide, rfl⟩, by decide⟩

/-- The same where the consumer's call leaves a completed transfer behind it, and a kick then leaves path 3 WAIT. -/
def segmentKicks : State :=
  { segment with script := [{ takes 64 with after := { idleReceiver with p3 := .wait, apath := 3 } },
                            { takes 0 with after := { idleReceiver with p3 := .wait } }] }

theorem witness_ConsumerTransferEntry_kick :
    Enters segmentKicks segmentKicks ∧ segmentKicks.fifo.occ = 0 ∧ segmentKicks.ch.qwc ≠ 0 ∧
      directSource segmentKicks = true ∧ segmentKicks.fifoEmu = false ∧
      4 = chunk segmentKicks.cfg segmentKicks.ch.qwc.toNat ∧ runResolves segmentKicks segmentKicks.ch.madr 4 = true ∧
      4 = taken segmentKicks 4 ∧
      (nextOf (exec .handlerEntry segmentKicks)).map (fun u => (u.gif.p3, u.gif.apath, u.out.drop 1))
        = some (.idle, 0, [.execute false true, .reschedule 8 .gif]) := ⟨⟨rfl, by decide, rfl⟩, by decide⟩
theorem witness_FifoTransferEntry :
    let s : State := { segment with fifoEmu := true, ch.qwc := 3 }
    Enters s s ∧ s.fifo.occ = 0 ∧ s.ch.qwc ≠ 0 ∧ directSource s = true ∧ s.fifoEmu = true ∧
      3 = min (chunk s.cfg s.ch.qwc.toNat) 16 ∧ runResolves s s.ch.madr 3 = true := ⟨⟨rfl, by decide, rfl⟩, by decide⟩
theorem witness_ChunkInRange : 1 ≤ 5 ∧ chunk { Config.defaults with chunks := [(5, 2)] } 5 = 2 ∧ Config.defaults.chunks = [] := by
  decide
theorem witness_FifoDrainEntry :
    let s : State := { fifoTwo with script := [takes 64] }
    Enters s s ∧ 0 < s.fifo.occ ∧ s.fifo.occ ≤ 16 ∧ 8 = s.cfg.cycPerQw * (s.fifo.occ - (afterRead true s).fifo.occ) :=
  ⟨⟨rfl, by decide, rfl⟩, by decide⟩
theorem witness_UnmappedDataSkipped :
    let s : State := { segment with cfg.mapped := [] }
    Enters s s ∧ s.fifo.occ = 0 ∧ s.ch.qwc ≠ 0 ∧ directSource s = true ∧ s.mapped s.ch.madr = false :=
  ⟨⟨rfl, by decide, rfl⟩, by decide⟩
theorem witness_RunTailRefused :
    let s : State := { segment with cfg.mapped := [{ base := 0x2000, size := 16 }] }
    Enters s s ∧ s.fifo.occ = 0 ∧ s.ch.qwc ≠ 0 ∧ directSource s = true ∧ s.mapped s.ch.madr = true ∧
      4 = (if s.fifoEmu then min (chunk s.cfg s.ch.qwc.toNat) 16 else chunk s.cfg s.ch.qwc.toNat) ∧
      runResolves s s.ch.madr 4 = false := ⟨⟨rfl, by decide, rfl⟩, by decide⟩
theorem witness_RunTailRefused_tag :
    let s : State := { chain 0x1000 0 with cfg.mapped := [{ base := 0x1000, size := 8 }] }
    tagWanted s = true ∧ tagThere s = true ∧ s.mapped s.ch.tadr = true ∧ runResolves s s.ch.tadr 1 = false := by decide

/-- A `NEXT qwc=0` at 0x1000 that points at itself, fetched before, `c` cycles charged (P3's variant). -/
def selfLoop (c : Nat) : State :=
  { chain 0x1000 0x0000100020000000 with ch.madr := 0x1010, ch.chcr.tag := 0x2000, eng.cyc := c }

/-- The fields of that tag. -/
def selfTag : TagFields := tag 0 false 0x1000

/-- A fetch of it changes nothing but the charge. -/
theorem selfLoop_fetch (c : Nat) : tagFetch .cyc (selfLoop c) = .ok (selfLoop (c + 2), .ok) := by
  have h1 : (selfLoop c).mapped (selfLoop c).ch.tadr = true := (by decide : (selfLoop 0).mapped 0x1000 = true)
  have h2 : (selfLoop c).runMapped (selfLoop c).ch.tadr 1 = true := (by decide : (selfLoop 0).runMapped 0x1000 1 = true)
  have h3 : tagOfQuad (selfLoop c).cfg.tagIds (quadOfBytes ((selfLoop c).runBytes (selfLoop c).ch.tadr 1))
      = some (.next, selfTag) :=
    (by decide : tagOfQuad Config.defaultTagIds (quadOfBytes ((selfLoop 0).runBytes 0x1000 1)) = _)
  have h4 : walkTag .cyc .next selfTag (selfLoop c)
      = .ok (selfLoop (c + 2), .ok) := by
    have ht : tagHi16 (selfLoop c).cfg.tagIds .next selfTag = 0x2000 := (by decide : tagHi16 Config.defaultTagIds .next _ = _)
    have ha : aligned selfTag.addr = true := by decide
    rw [walkTag, walkWith, if_pos ha, loadTag, ht]
    rfl
  rw [tagFetch, h1, State.run, h2]
  simp only [Bool.not_true, Bool.false_eq_true, ↓reduceIte]
  rw [h3]
  exact h4

/-- No number of fetches ends it. -/
theorem selfLoop_diverges (n : Nat) : ∀ c, ∃ l, chainLoop .cyc n (selfLoop c) = .error (.diverged l) := by
  induction n with
  | zero => exact fun c => ⟨_, rfl⟩
  | succ n ih =>
    intro c
    obtain ⟨l, h⟩ := ih (c + 2)
    exact ⟨l, by rw [chainLoop, if_pos (by rfl), selfLoop_fetch]; exact h⟩
theorem witness_DivergenceIsExact :
    (selfLoop 0).cfg.loopFuel = none ∧
      ∃ l, chainLoop .cyc (loopFuel (selfLoop 0).cfg) (selfLoop 0) = .error (.diverged l) :=
  ⟨rfl, selfLoop_diverges _ 0⟩

theorem witness_DoneMeansNoFetch :
    let s : State := { segment with eng.done := true }
    s.eng.done = true ∧ ∃ u, exec .handlerEntry s = .next u ∧ (u.ch.qwc == 2) = true :=
  ⟨rfl, passes_next _ _ (by decide)⟩
theorem witness_OutcomeRequests_reschedule :
    ∃ u, exec .handlerEntry segment = .next u ∧ (u.ret == .outcome (.reschedule 4 .gif)) = true :=
  passes_next _ _ (by decide)
theorem witness_OutcomeRequests_complete :
    ∃ u, exec .handlerEntry { base with eng.done := true } = .next u ∧ (u.ret == .outcome .complete) = true :=
  passes_next _ _ (by decide)
theorem witness_OutcomeRequests_idle :
    ∃ u, exec .handlerEntry { ring with ch.tadr := 0x1040 } = .next u ∧ (u.ret == .outcome .idle) = true :=
  passes_next _ _ (by decide)
theorem witness_OutcomeRequests_abort :
    ∃ u, exec .handlerEntry unmapped = .next u ∧ (u.ret == .outcome (.abort .unmappedTag)) = true :=
  passes_next _ _ (by decide)
theorem witness_OneLinePerEntry_stall :
    ∃ u, exec .handlerEntry stallTag = .next u ∧
      (u.out == [.line .stall, .reschedule 2 .gif]) = true :=
  passes_next _ _ (by decide)
theorem witness_OneLinePerEntry_empty :
    ∃ u, exec .handlerEntry { ring with ch.tadr := 0x1040 } = .next u ∧ (u.out == [.line .mfifoEmpty]) = true :=
  passes_next _ _ (by decide)
theorem witness_CompleteMeansFinished :
    ∃ u, exec .handlerEntry { base with eng := { zeroEngine with done := true, cyc := 14, prev := 2 } } = .next u ∧
      (u.ret == .outcome .complete && u.out == [.line .complete]) = true :=
  passes_next _ _ (by decide)

/-- The VIF gate's common hypotheses. -/
def gated : State := { base with vif.vgw := true }

theorem witness_VifGate : gated.ch.chcr.str = true ∧ gated.gif.apath ≠ 3 ∧ gated.gif.p3 = .idle ∧ gated.vif.vgw = true := by
  decide
theorem witness_VifGate_doc :
    let s : State := { gated with gif.masked := true, ch.qwc := 5 }
    s.cfg.vgwPolicy = .doc ∧ s.gif.masked = true ∧ s.ch.qwc ≠ 0 := by decide
theorem witness_VifGate_goes_on :
    let s : State := { gated with eng.done := true }
    s.cfg.vgwPolicy = .doc ∧ s.fifo.occ = 0 ∧ s.ch.qwc = 0 ∧ s.eng.done = true := by decide

/-- C-4: masking is lifted with quadwords remaining. -/
def gatedSegment : State := { segment with vif.vgw := true }

theorem witness_VifGate_unmasked :
    gatedSegment.ch.chcr.str = true ∧ gatedSegment.gif.apath ≠ 3 ∧ gatedSegment.gif.p3 = .idle ∧
      gatedSegment.vif.vgw = true ∧ gatedSegment.cfg.vgwPolicy = .doc ∧ gatedSegment.gif.masked = false ∧
      gatedSegment.fifo.occ = 0 ∧ gatedSegment.ch.qwc ≠ 0 ∧ directSource gatedSegment = true ∧
      segmentReads (nudged gatedSegment) = true := by decide
theorem witness_VifGate_yield :
    let s : State := { gated with cfg.vgwPolicy := .yield }
    s.cfg.vgwPolicy = .yield ∧ (s.gif.masked = false ∨ s.ch.qwc = 0) := by decide
theorem witness_VifGate_yield_masked :
    let s : State := { gated with cfg.vgwPolicy := .yield, gif.masked := true, ch.qwc := 5 }
    s.cfg.vgwPolicy = .yield ∧ s.gif.masked = true ∧ s.ch.qwc ≠ 0 := by decide
theorem witness_CoordinatorPass :
    let s : State := { base with gif := { idleReceiver with p3 := .wait, apath := 3 },
                                 script := [{ consumed := 0, after := { idleReceiver with p3 := .wait } }] }
    s.ch.chcr.str = true ∧ (coordinated s).gif.apath ≠ 3 ∧ (coordinated s).gif.p3 = .idle ∧
      (coordinated s).out = [.execute false true] := by decide

theorem witness_RenormIntoWindow : ring.ringWellFormed = true ∧ aligned 0x10F0 = true ∧ inRing ring 0x10F0 = true := by decide
theorem witness_RenormIntoWindow_whole_space :
    ({ ring with dmac.rbor := 0, dmac.rbsr := 0xFFFFFFF0 } : State).ringWellFormed = true := by decide
theorem witness_AvailableIsDistance :
    ring.ringWellFormed = true ∧ aligned 0x10F0 = true ∧ aligned ring.wcur = true ∧ inRing ring 0x10F0 = true ∧
      inRing ring ring.wcur = true := by decide

/-- M5b: nine quadwords asked for, five available, one of them before the ring's top. -/
def ringSegment : State := { ring with ch.madr := 0x10F0, ch.qwc := 9, ch.tadr := 0x1020, script := [takes 16, takes 64] }

theorem witness_RingTransferMovesAvailable :
    let s := ringSegment
    Enters s s ∧ routed s = true ∧ s.ringWellFormed = true ∧ s.fifo.occ = 0 ∧ s.fifoEmu = false ∧
    aligned s.ch.madr = true ∧ aligned s.wcur = true ∧ inRing s s.ch.madr = true ∧ inRing s s.wcur = true ∧
    s.wcur.toNat < s.ch.madr.toNat ∧ s.dmac.rbor.toNat < s.wcur.toNat ∧ 5 = availableAt s s.ch.madr ∧ 5 < s.ch.qwc.toNat ∧
    1 = (limit s - s.ch.madr).toNat / 16 ∧ runResolves s s.ch.madr 1 = true ∧ runResolves s s.dmac.rbor (5 - 1) = true ∧
    s.script = takes 16 :: takes 64 :: [] ∧ 16 * 1 ≤ (takes 16).consumed ∧ 16 * (5 - 1) ≤ (takes 64).consumed ∧
    quiet (takes 64).after s.vif = true := ⟨⟨rfl, by decide, rfl⟩, by decide⟩

/-- The hypotheses of the transfer in every case, beside `Enters`. -/
def movesRing (p : State) : Bool :=
  routed p && p.fifo.occ == 0 && p.ch.qwc != 0 && inRing p p.ch.madr && availableAt p p.ch.madr != 0 && ringReads p

/-- The ring segment of M5, with the consumer's answers. -/
def ringThree (a : List Answer) : State := { ringSegment with ch.qwc := 3, script := a }

/-- A transfer within the ring's top. -/
def ringInside : State := { ringSegment with ch.madr := 0x1000, ch.qwc := 3 }

theorem witness_RingTransferMovesAvailable_inside :
    Enters ringInside ringInside ∧ movesRing ringInside = true ∧ ringWraps ringInside = false :=
  ⟨⟨rfl, by decide, rfl⟩, by decide⟩
/-- M6: nothing of the first leg is taken. -/
theorem witness_RingTransferMovesAvailable_M6 :
    Enters (ringThree [takes 0]) (ringThree [takes 0]) ∧ movesRing (ringThree [takes 0]) = true ∧
      ringWraps (ringThree [takes 0]) = false := ⟨⟨rfl, by decide, rfl⟩, by decide⟩
/-- M7: half of the second leg is taken. -/
theorem witness_RingTransferMovesAvailable_M7 :
    Enters (ringThree [takes 16, takes 16]) (ringThree [takes 16, takes 16]) ∧
      movesRing (ringThree [takes 16, takes 16]) = true ∧ ringWraps (ringThree [takes 16, takes 16]) = true :=
  ⟨⟨rfl, by decide, rfl⟩, by decide⟩
/-- The Packet FIFO as the sink of both legs. -/
theorem witness_RingTransferMovesAvailable_fifo :
    let s : State := { ringThree [] with fifoEmu := true }
    Enters s s ∧ movesRing s = true ∧ ringWraps s = true := ⟨⟨rfl, by decide, rfl⟩, by decide⟩
/-- The first leg, then the second, starts unmapped. -/
theorem witness_RingTransferMovesAvailable_unmapped :
    let s : State := { ringThree [takes 16] with cfg.mapped := [] }
    let t : State := { ringThree [takes 16] with cfg.mapped := [{ base := 0x10F0, size := 16 }] }
    (Enters s s ∧ movesRing s = true ∧ s.mapped s.ch.madr = false) ∧
      (Enters t t ∧ movesRing t = true ∧ ringWraps t = true ∧ t.mapped t.dmac.rbor = false) :=
  ⟨⟨⟨rfl, by decide, rfl⟩, by decide⟩, ⟨rfl, by decide, rfl⟩, by decide⟩

/-- M5, M5b, M6, M7, and the first entry E1 of the programs P5 and P6: MADR, the quadwords left, the charge. -/
theorem test_handlerEntry_ring :
    [ringThree [takes 16, takes 32], ringSegment, ringThree [takes 0], ringThree [takes 16, takes 16], ringTag 0x1040,
      ringTag 0x10F0].map (fun s => (nextOf (exec .handlerEntry s)).map (fun u => (u.ch.madr, u.ch.qwc, u.eng.mcyc)))
      = [some (0x1020, 0, 6), some (0x1040, 4, 10), some (0x10F0, 3, 0), some (0x1010, 1, 4), some (0x1020, 0, 8),
         some (0x10F0, 3, 2)] := by decide

theorem witness_RingEmptyIdles_tag :
    let s : State := { ring with ch.tadr := 0x1040 }
    Enters s s ∧ routed s = true ∧ s.fifo.occ = 0 ∧ tagWanted s = true ∧ availableAt s s.ch.tadr = 0 ∧ tagThere s = false :=
  ⟨⟨rfl, by decide, rfl⟩, by decide⟩
theorem witness_RingEmptyIdles_data :
    let s : State := { ring with ch.madr := 0x1040, ch.qwc := 2 }
    Enters s s ∧ routed s = true ∧ s.fifo.occ = 0 ∧ s.ch.qwc ≠ 0 ∧ inRing s s.ch.madr = true ∧
      availableAt s s.ch.madr = 0 := ⟨⟨rfl, by decide, rfl⟩, by decide⟩

theorem witness_MemoryNeverWritten : ∃ u, exec .handlerEntry segment = .next u ∧ (u.ch.qwc == 2) = true :=
  passes_next _ _ (by decide)
theorem witness_OthersStateKept : ∃ u, exec (.writerAdvance 0x1060) ring = .next u ∧ (u.wcur == 0x1060) = true :=
  passes_next _ _ (by decide)
theorem witness_StrOnlyCleared_cancel :
    base.ch.chcr.str = true ∧ ∃ u, exec .cancel base = .next u ∧ (!u.ch.chcr.str) = true :=
  ⟨rfl, passes_next _ _ (by decide)⟩
theorem witness_StrOnlyCleared_abort :
    unmapped.ch.chcr.str = true ∧ ∃ u, exec .handlerEntry unmapped = .next u ∧ (!u.ch.chcr.str) = true :=
  ⟨rfl, passes_next _ _ (by decide)⟩
theorem witness_DiagSticky :
    let s : State := { base with diag := { noDiag with callAddrZero := true } }
    (∀ b, Instr.fifoInit ≠ .restore b) ∧ diagHas s.diag .callAddrZero = true ∧
      ∃ u, exec .fifoInit s = .next u ∧ (u.fifo.occ == 0) = true :=
  ⟨fun b h => (by cases h), rfl, passes_next _ _ (by decide)⟩
theorem witness_StackPointerLegal :
    let s : State := { base with ch.chcr.asp := 2 }
    s.ch.chcr.asp.toNat ≤ 2 ∧ ∃ u, exec (.call (tag 1 false 0x5000)) s = .next u ∧ (u.ch.chcr.asp == 2) = true :=
  ⟨by decide, passes_next _ _ (by decide)⟩
theorem witness_AlignmentKept :
    addressesAligned ringSegment = true ∧ (∀ w, Instr.handlerEntry = .writerAdvance w → aligned w = true) ∧
      ∃ u, exec .handlerEntry ringSegment = .next u ∧ (u.ch.madr == 0x1040) = true :=
  ⟨by decide, fun w h => (by cases h), passes_next _ _ (by decide)⟩
theorem witness_StepKeepsInvariant :
    let s : State := { fifoTwo with script := [takes 64], sched.entry := some { delay := 4, chan := .gif } }
    s.inv = true ∧ ∃ u, step s = .next u ∧ (u.fifo.occ == 10) = true :=
  ⟨by decide, passes_next _ _ (by decide)⟩
theorem witness_DecodeEncode :
    Config.defaultTagIds.wellFormed = true ∧
      encode Config.defaultTagIds (.cnt (tag 2 false 0)) = some 0x00000000000000000000000010000002 := by decide
theorem witness_EncodeDecode :
    decode Config.defaultTagIds (List.replicate 16 0xFF)
      = .ok (.endTag { qwc := 0xFFFF, spare := 0x3FF, pce := 3, irq := true, addr := 0xFFFFFFFF, upper := 0xFFFFFFFFFFFFFFFF },
        []) := by decide
theorem witness_EveryTagDecodes :
    ({ Config.defaultTagIds with refe := 7, endTag := 0 } : TagIdMap).wellFormed = true ∧
      16 ≤ (List.replicate 16 (0 : Byte)).length ∧ (List.replicate 15 (0 : Byte)).length < 16 := by decide
theorem witness_EncodingLayout :
    (0x90000001 : Word) = ((BitVec.ofBool true).setWidth 32 <<< 31) ||| ((Config.defaultTagIds.idOf .cnt).setWidth 32 <<< 28)
      ||| (1 : BitVec 16).setWidth 32 := by decide
theorem witness_ControlWordFields : base.diverged = false := by decide
theorem witness_StepRunsDecoded_tag :
    let s := chain 0x1000 0x10000002
    s.diverged = false ∧ tagWanted s = true ∧ tagThere s = true ∧ s.mapped s.ch.tadr = true ∧
      runResolves s s.ch.tadr 1 = true ∧
      decode s.cfg.tagIds (bytesAt s s.ch.tadr 16) = .ok (.cnt (tag 2 false 0), []) := by decide
theorem witness_StepRunsDecoded_ring_tag :
    let s := ringTag 0x1040
    s.diverged = false ∧ tagWanted s = true ∧ tagThere s = true ∧ s.mapped s.ch.tadr = true ∧
      runResolves s s.ch.tadr 1 = true ∧ routed s = true ∧
      decode s.cfg.tagIds (bytesAt s s.ch.tadr 16) = .ok (.cnt (tag 3 false 0), []) := by decide
/-- No tag is due: quadwords remain, or the DMA is done. -/
theorem witness_StepRunsDecoded_no_tag :
    base.diverged = false ∧ tagWanted { base with ch.qwc := 1 } = false ∧ tagWanted { base with eng.done := true } = false := by
  decide
theorem witness_StepRunsDecoded_call :
    base.diverged = false ∧ Instr.dmaStart.tag? = none ∧ Instr.dmaStart.wellFormed = true ∧
      (Instr.dmaStart = .fifoInit → base.ch.chcr.str = false) ∧
      (Instr.dmaStart = .dmaStart → base.ch.chcr.str = true ∧ base.cfg.tagIds.wellFormed = true ∧ ¬ overfullAtLaunch base) :=
  ⟨rfl, rfl, rfl, fun h => (by cases h), fun _ => ⟨rfl, by decide, fun ⟨_, h, _⟩ => absurd h.1 (by decide)⟩⟩
theorem witness_StepRunsDecoded_init :
    Instr.fifoInit.tag? = none ∧ Instr.fifoInit.wellFormed = true ∧ State.reset.ch.chcr.str = false := by decide
theorem witness_StepRunsDecoded_entry :
    let s : State := { base with sched.entry := some { delay := 4, chan := .gif } }
    s.diverged = false ∧ s.agenda = [] ∧ s.sched.entry = some { delay := 4, chan := .gif } := by decide
theorem witness_StepRunsDecoded_quiescent : base.diverged = false ∧ base.sched.entry = none ∧ base.agenda = [] := by decide

/-- `draining` drains the ring at 0x1020. -/
theorem draining_at (w : Addr) (d : Addr) : drainsAt (draining w) d ↔ d = 0x1020 := by
  unfold drainsAt
  rw [if_pos ⟨show (3 : BitVec 16) ≠ 0 by decide, show inRing (draining 0) 0x1020 = true by decide⟩]
  exact ⟨fun h => h.2, fun h => ⟨show routed (draining 0) = true by decide, h⟩⟩

/-- `relaunch` starts with the tag at 0x1000. -/
theorem relaunch_at (w : Addr) (d : Addr) :
    drainsAt { relaunch w with eng.done := startsDone (relaunch w) } d ↔ d = 0x1000 := by
  simp [drainsAt, startsDone, routed, inRing, relaunch, ring, base, State.reset, zeroEngine]

/-- Past the drain on the way, and too far ahead of it at the end; one quadword less is neither. The first needs a lead that
nothing has loosened, and neither is asked of a channel that has not been started. -/
theorem witness_StepRunsDecoded_overrun :
    (draining 0x1010).diverged = false ∧ overruns (draining 0x1010) 0x1020 ∧ overruns (draining 0x1030) 0x1120 :=
  ⟨rfl, ⟨0x1020, (draining_at _ _).2 rfl, .inr (by decide)⟩, ⟨0x1020, (draining_at _ _).2 rfl, .inl (by decide)⟩⟩
theorem witness_StepRunsDecoded_no_overrun :
    Instr.wellFormed (.writerAdvance 0x1010) = true ∧ ¬ overruns (draining 0x1000) 0x1010 ∧
      ¬ overruns (draining 0x1030) 0x1110 ∧ ¬ overruns { draining 0x1010 with lead := .loose } 0x1020 ∧
      ¬ overruns { draining 0x1010 with ch.chcr.str := false } 0x1120 := by
  refine ⟨rfl, ?_, ?_, ?_, ?_⟩ <;> rintro ⟨d, h, k⟩
  · rw [draining_at] at h; subst h; revert k; decide
  · rw [draining_at] at h; subst h; revert k; decide
  · rw [show drainsAt { draining 0x1010 with lead := .loose } d ↔ d = 0x1020 from draining_at 0x1010 d] at h
    subst h; revert k; decide
  · rcases k with k | k <;> revert k <;> simp [draining, ring, base, State.reset]
/-- Too far ahead of the first tag, and one quadword less. -/
theorem witness_StepRunsDecoded_launch :
    (relaunch 0x5000).diverged = false ∧ (relaunch 0x5000).ch.chcr.str = true ∧
      (relaunch 0x5000).cfg.tagIds.wellFormed = true ∧ overfullAtLaunch (relaunch 0x5000) ∧
      ¬ overfullAtLaunch (relaunch 0x10F0) ∧ overfullAtLaunch (relaunch 0x1100) :=
  ⟨rfl, rfl, by decide, ⟨0x1000, (relaunch_at _ _).2 rfl, by decide⟩,
    by rintro ⟨d, h, k⟩; rw [relaunch_at] at h; subst h; revert k; decide,
    ⟨0x1000, (relaunch_at _ _).2 rfl, by decide⟩⟩
theorem witness_StepRunsDecoded_lowered :
    let s : State := { stallTag with stalled := true }
    s.diverged = false ∧ s.stalled = true ∧ s.ch.chcr.str = true ∧ (0x500F : Word).toNat < s.dmac.stadr.toNat := by decide

/-- P1: one tag with data. -/
theorem witness_HandlerRunsTags_data :
    let p := chain 0x1000 0x10000002
    (Enters p p ∧ routed p = false ∧ p.fifo.occ = 0 ∧ tagWanted p = true ∧ p.cfg.loopFuel = none ∧ 1 ≤ 2 ^ 98) ∧
      ∃ t, walked 1 p = some (t, .ok) ∧ (t.ch.qwc != 0 && segmentReads t) = true :=
  ⟨⟨⟨rfl, by decide, rfl⟩, by decide⟩, fetches_some _ _ _ (by decide)⟩
/-- A direct entry with no tag due: the segment that is set up. -/
theorem witness_HandlerRunsTags_none :
    (Enters segment segment ∧ routed segment = false ∧ segment.fifo.occ = 0 ∧ segment.ch.qwc ≠ 0) ∧
      ∃ t, walked 0 segment = some (t, .ok) ∧ (t.ch.qwc != 0 && segmentReads t) = true :=
  ⟨⟨⟨rfl, by decide, rfl⟩, by decide⟩, fetches_some _ _ _ (by decide)⟩
/-- P3: three tags in one entry. -/
theorem witness_HandlerRunsTags_three :
    (Enters threeTags threeTags ∧ routed threeTags = false ∧ threeTags.fifo.occ = 0 ∧ tagWanted threeTags = true) ∧
      ∃ t, walked 3 threeTags = some (t, .ok) ∧ (t.ch.qwc != 0 && segmentReads t) = true :=
  ⟨⟨⟨rfl, by decide, rfl⟩, by decide⟩, fetches_some _ _ _ (by decide)⟩
/-- A terminal tag without data. -/
theorem witness_HandlerRunsTags_end :
    let p := chain 0x1040 0x70000000
    (Enters p p ∧ routed p = false ∧ p.fifo.occ = 0 ∧ tagWanted p = true) ∧
      ∃ t, walked 1 p = some (t, .ok) ∧ (t.ch.qwc == 0) = true :=
  ⟨⟨⟨rfl, by decide, rfl⟩, by decide⟩, fetches_some _ _ _ (by decide)⟩
/-- P4: a stall. -/
theorem witness_HandlerRunsTags_stall :
    (Enters stallTag stallTag ∧ routed stallTag = false ∧ stallTag.fifo.occ = 0 ∧ tagWanted stallTag = true) ∧
      ∃ t, walked 1 stallTag = some (t, .stalled) ∧ (t.ch.tadr == 0x1000) = true :=
  ⟨⟨⟨rfl, by decide, rfl⟩, by decide⟩, fetches_some _ _ _ (by decide)⟩
theorem witness_HandlerRunsTags_fail :
    (Enters unmapped unmapped ∧ routed unmapped = false ∧ unmapped.fifo.occ = 0 ∧ tagWanted unmapped = true) ∧
      ∃ t, walked 1 unmapped = some (t, .fail) ∧ (!t.ch.chcr.str) = true :=
  ⟨⟨⟨rfl, by decide, rfl⟩, by decide⟩, fetches_some _ _ _ (by decide)⟩

/-- The hypotheses on a routed entry, beside `Enters`. -/
def runsRing (p : State) : Bool := routed p && p.fifo.occ == 0 && tagWanted p && tagThere p

/-- P5: data of the ring. -/
theorem witness_HandlerRunsTags_ring_moves :
    (Enters (ringTag 0x1040) (ringTag 0x1040) ∧ runsRing (ringTag 0x1040) = true) ∧
      ∃ t, fetchOne (atTag (ringTag 0x1040)) = some (t, .ok) ∧
        (t.ch.qwc != 0 && inRing t t.ch.madr && availableAt t t.ch.madr != 0 && ringReads t) = true :=
  ⟨⟨⟨rfl, by decide, rfl⟩, by decide⟩, fetches_some _ _ _ (by decide)⟩
/-- P6: the tag's data are not there yet. -/
theorem witness_HandlerRunsTags_ring_empty :
    (Enters (ringTag 0x10F0) (ringTag 0x10F0) ∧ runsRing (ringTag 0x10F0) = true) ∧
      ∃ t, fetchOne (atTag (ringTag 0x10F0)) = some (t, .ok) ∧
        (t.ch.qwc != 0 && inRing t t.ch.madr && availableAt t t.ch.madr == 0) = true :=
  ⟨⟨⟨rfl, by decide, rfl⟩, by decide⟩, fetches_some _ _ _ (by decide)⟩
/-- A reference out of the window (M9). -/
theorem witness_HandlerRunsTags_ring_reference :
    let p := ringWith 0x0000800030000001
    (Enters p p ∧ runsRing p = true) ∧
      ∃ t, fetchOne (atTag p) = some (t, .ok) ∧ (t.ch.qwc != 0 && !inRing t t.ch.madr && segmentReads t) = true :=
  ⟨⟨⟨rfl, by decide, rfl⟩, by decide⟩, fetches_some _ _ _ (by decide)⟩
/-- A tag without data, and a terminal one. -/
theorem witness_HandlerRunsTags_ring_bare :
    (Enters (ringWith 0x10000000) (ringWith 0x10000000) ∧ runsRing (ringWith 0x10000000) = true ∧
      ∃ t, fetchOne (atTag (ringWith 0x10000000)) = some (t, .ok) ∧ (t.ch.qwc == 0 && !t.eng.done) = true) ∧
    (Enters (ringWith 0x70000000) (ringWith 0x70000000) ∧ runsRing (ringWith 0x70000000) = true ∧
      ∃ t, fetchOne (atTag (ringWith 0x70000000)) = some (t, .ok) ∧ (t.ch.qwc == 0 && t.eng.done) = true) :=
  ⟨⟨⟨rfl, by decide, rfl⟩, by decide, fetches_some _ _ _ (by decide)⟩,
    ⟨rfl, by decide, rfl⟩, by decide, fetches_some _ _ _ (by decide)⟩
/-- A stall, and a tag that resolves to nothing, on the ring. -/
theorem witness_HandlerRunsTags_ring_stops :
    let p : State := { ringWith 0x0000500040000002 with dmac := { ring.dmac with std := 2, stadr := 0x5010 } }
    (Enters p p ∧ runsRing p = true ∧ ∃ t, fetchOne (atTag p) = some (t, .stalled) ∧ (t.ch.tadr == 0x10E0) = true) ∧
    (Enters unmappedRing unmappedRing ∧ runsRing unmappedRing = true ∧
      ∃ t, fetchOne (atTag unmappedRing) = some (t, .fail) ∧ (!t.ch.chcr.str) = true) :=
  ⟨⟨⟨rfl, by decide, rfl⟩, by decide, fetches_some _ _ _ (by decide)⟩,
    ⟨rfl, by decide, rfl⟩, by decide, fetches_some _ _ _ (by decide)⟩
/-- Normal mode with nothing to move and done false. -/
theorem witness_HandlerRunsTags_ring_idle :
    let p : State := { ring with ch.chcr.mod := 0 }
    Enters p p ∧ routed p = true ∧ p.fifo.occ = 0 ∧ p.ch.chcr.mod ≠ 1 ∧ p.ch.qwc = 0 ∧ p.eng.done = false :=
  ⟨⟨rfl, by decide, rfl⟩, by decide⟩
theorem witness_HandlerRunsTags_loop :
    let s := chain 0x1000 0x10000002
    routed s = false ∧ tagWanted s = true ∧ ∃ u, walk s = .next u ∧ (u.ret == .fetch .ok) = true :=
  ⟨by decide, by decide, passes_next _ _ (by decide)⟩

end Sys2Proof.Tests
end

/-! PROOFS. The closed forms that the statement on the step is made of, tied to the machine's own operations; then the step
(00_scope.md R17, R18; 41_chain_tags.md R79; 60_exceptions.md R138, R142). -/

namespace Sys2Proof.Claims

open Sys2Proof.Machine

/-! The ring writer's duty (43_mfifo.md R104; 60_exceptions.md R142). -/

theorem routed_eq (s : State) : routed s = s.routed := rfl

theorem inRing_eq (s : State) (a : Addr) : inRing s a = s.inWindow a := by
  simp [inRing, State.inWindow, BitVec.le_def]

theorem availableAt_eq (s : State) (d : Addr) : availableAt s d = s.availableQuads d := by
  simp [availableAt, State.availableQuads, State.ringQuads, limit, State.ringLimit, BitVec.le_def, Nat.shiftRight_eq_div_pow]

theorem aheadOf_eq (s : State) (d w : Addr) : aheadOf s d w = s.ringQuads d w := availableAt_eq { s with wcur := w } d

theorem room_eq (s : State) : room s = s.ringRoom := rfl

theorem drainsAt_iff (s : State) (d : Addr) : drainsAt s d ↔ s.drain = some d := by
  simp only [drainsAt, State.drain_iff, inRing_eq, routed_eq, State.chainMode, beq_iff_eq]

theorem overruns_iff (s : State) (w : Addr) : overruns s w ↔ s.writerOverruns w = true := by
  simp only [overruns, State.writerOverruns_iff, drainsAt_iff, availableAt_eq, aheadOf_eq, room_eq]

theorem overfull_iff (s : State) : overfull s ↔ s.ringOverfull = true := by
  simp only [overfull, State.ringOverfull_iff, drainsAt_iff, availableAt_eq, room_eq]

/-- Under a well-formed map the type an ID selects is known by its number (30_encoding.md R61). -/
theorem typeOf_beq (m : TagIdMap) (h : m.wellFormed = true) (id : BitVec 3) (t : TagType) :
    (m.typeOf id == some t) = (id == m.idOf t) := by
  rw [Bool.eq_iff_iff, beq_iff_eq, beq_iff_eq]
  constructor
  · intro hid
    exact (m.idOf_of_typeOf id t hid).symm
  · rintro rfl
    exact m.typeOf_idOf h t

theorem startsDone_eq (s : State) (h : s.cfg.tagIds.wellFormed = true) : startsDone s = s.launchDone := by
  simp only [startsDone, State.launchDone, State.chainMode, State.resumesTerminal, typeOf_beq _ h, TagIdMap.idOf, bne]

/-- A launch is measured by the `done` it leaves alone, of all the engine (45_handler.md R127). -/
theorem overfullAtLaunch_iff (s : State) (h : s.cfg.tagIds.wellFormed = true) :
    overfullAtLaunch s ↔ s.launchOverfull = true := by
  rw [overfullAtLaunch, overfull_iff, startsDone_eq s h]
  exact Iff.rfl

/-! The fetch at TADR (41_chain_tags.md R79; 43_mfifo.md R108). -/

theorem tagWanted_eq (s : State) : tagWanted s = s.tagDue := rfl

theorem tagThere_eq (s : State) : tagThere s = !s.tagMissing := by
  simp [tagThere, State.tagMissing, routed_eq, availableAt_eq, bne]

theorem runResolves_eq (s : State) (a : Addr) (n : Nat) : runResolves s a n = s.runMapped a n := rfl

theorem bytesAt_eq (s : State) (a : Addr) (n : Nat) : bytesAt s a (16 * n) = s.runBytes a n := rfl

/-- Where the ring has the tag, the fetch finds it READY. -/
theorem atTag_eq (s : State) (h : tagThere s = true) : atTag s = s.atFetch := by
  cases hr : s.routed with
  | false => simp [atTag, State.atFetch, routed_eq, hr]
  | true =>
    have ha : s.availableQuads s.ch.tadr ≠ 0 := by simpa [tagThere, routed_eq, availableAt_eq, hr] using h
    simp [atTag, State.atFetch, routed_eq, hr, available, ha, State.setEng]

/-- At a mapped TADR whose sixteen bytes decode, the fetch finds what they decode to. -/
theorem decodeAtTadr_instr {s : State} {i : Instr} {rest : List Byte} (hm : s.mapped s.ch.tadr = true)
    (hr : s.runMapped s.ch.tadr 1 = true) (hd : decode s.cfg.tagIds (s.runBytes s.ch.tadr 1) = .ok (i, rest)) :
    decodeAtTadr s = .instr i s := by
  simp [decodeAtTadr, hm, State.run, hr, hd]

/-- A fetch of its own runs the tag at TADR. -/
theorem walk_decoded {s : State} {i : Instr} {rest : List Byte} (hw : tagWanted s = true) (ht : tagThere s = true)
    (hm : s.mapped s.ch.tadr = true) (hr : runResolves s s.ch.tadr 1 = true)
    (hd : decode s.cfg.tagIds (bytesAt s s.ch.tadr 16) = .ok (i, rest)) : walk s = exec i (atTag s) := by
  have htag : s.tagMissing = false := by simpa [tagThere_eq] using ht
  -- the address, the bytes and the map are the same before `Available` and after it
  have hat : decodeAtTadr s.atFetch = .instr i s.atFetch := by
    unfold State.atFetch
    split <;> exact decodeAtTadr_instr hm hr hd
  rw [tagWanted_eq] at hw
  simp [walk, fetchAtTadr, hw, htag, hat, atTag_eq s ht]

/-! The operations an agent invokes, and the register writes (60_exceptions.md R139, R142). -/

/-- An operation that is well formed and breaks no duty of its host is no breach. -/
theorem breachOf_none {i : Instr} {s : State} (htag : i.tag? = none) (hwf : i.wellFormed = true)
    (hinit : i = .fifoInit → s.ch.chcr.str = false)
    (hstart : i = .dmaStart → s.ch.chcr.str = true ∧ s.launchOverfull = false)
    (hmove : ∀ w, i = .writerAdvance w → s.writerOverruns w = false) : breachOf i s = none := by
  simp only [breachOf, htag, hwf, Option.isSome_none, Bool.not_true, Bool.false_eq_true, if_false]
  cases i with
  | fifoInit => simp [hinit rfl]
  | dmaStart => obtain ⟨hstr, hfull⟩ := hstart rfl; simp [hstr, hfull]
  | writerAdvance w => simp [hmove w rfl]
  | _ => rfl

theorem invoke_of_no_breach {i : Instr} {s : State} (h : breachOf i s = none) : invoke i s = exec i s := by
  simp [invoke, h]

theorem invoke_of_breach {i : Instr} {s : State} {m : HostMove} (h : breachOf i s = some m) :
    invoke i s = .refused (.noSuchHostMove m) := by
  simp [invoke, h]

theorem breachOf_overrun {s : State} {w : Addr} (h : overruns s w) :
    breachOf (.writerAdvance w) s = some .writerOverrun := by
  simp [breachOf, Instr.tag?, Instr.wellFormed, (overruns_iff s w).1 h]

theorem breachOf_overfull_launch {s : State} (hm : s.cfg.tagIds.wellFormed = true) (hstr : s.ch.chcr.str = true)
    (h : overfullAtLaunch s) : breachOf .dmaStart s = some .writerOverrun := by
  simp [breachOf, Instr.tag?, Instr.wellFormed, hstr, (overfullAtLaunch_iff s hm).1 h]

/-- A write of STADR is a breach exactly where it lowers it under a stalled channel. -/
theorem runEvent_writeStadr (s : State) (v : Word) :
    runEvent (.writeReg .stadr v) s =
      if s.stalled = true ∧ s.ch.chcr.str = true ∧ v.toNat < s.dmac.stadr.toNat then
        .refused (.noSuchHostMove .stadrLowered)
      else .next { s with dmac.stadr := v } := by
  by_cases h : s.stalled = true ∧ s.ch.chcr.str = true ∧ v.toNat < s.dmac.stadr.toNat
  · obtain ⟨hst, hstr, hlow⟩ := h
    simp [runEvent, writeBreach, BitVec.lt_def, hst, hstr, hlow]
  · have hb : writeBreach .stadr v s = none := by
      rw [writeBreach, if_neg]
      simpa [BitVec.lt_def, and_assoc] using h
    rw [if_neg h]
    simp only [runEvent, hb]
    rfl

/-! The step (00_scope.md R17, R18). -/

/-- A step makes the move put first on the agenda, on the state it was put in. -/
theorem step_first {s : State} (e : Event) (h : s.diverged = false) :
    step { s with agenda := e :: s.agenda } = runEvent e s := step_move h rfl

/-- Settles O59: each clause is the move a step makes, and what that move is found to be: the tag the fetch decodes, the
operation with no breach, the scheduler's entry, the breach. -/
theorem stepRunsDecoded : Obligations.StepRunsDecoded := by
  refine ⟨?tag, ?noTag, ?operation, ?pending, ?quiescent, ?overrun, ?launch, ?stadr⟩
  case tag => exact fun s i rest hd hw ht hm hr hdec => (step_first .walk hd).trans (walk_decoded hw ht hm hr hdec)
  case noTag => exact fun s hd hw => (step_first .walk hd).trans (walk_not_due hw)
  case operation =>
    intro s i hd htag hwf hinit hstart hmove
    refine (step_first _ hd).trans (invoke_of_no_breach (breachOf_none htag hwf hinit ?_ ?_))
    · intro hi
      obtain ⟨hstr, hmap, hfull⟩ := hstart hi
      exact ⟨hstr, by simpa [overfullAtLaunch_iff s hmap] using hfull⟩
    · intro w hi
      simpa [overruns_iff] using hmove w hi
  case pending =>
    exact fun s e hd he => ⟨fun ha => (step_no_move hd ha).trans (schedule_pending he),
      (step_first .deliver hd).trans (schedule_pending he)⟩
  case quiescent =>
    exact fun s hd he => ⟨fun ha => (step_no_move hd ha).trans (schedule_quiescent he),
      (step_first .deliver hd).trans (schedule_quiescent he)⟩
  case overrun => exact fun s w hd h => (step_first _ hd).trans (invoke_of_breach (breachOf_overrun h))
  case launch => exact fun s hd hm hstr h => (step_first _ hd).trans (invoke_of_breach (breachOf_overfull_launch hm hstr h))
  case stadr => exact fun s v hd => (step_first _ hd).trans (runEvent_writeStadr s v)

end Sys2Proof.Claims

/-! PROOFS. The state at session start, and what every operation and every step leaves of it: the frame of all seventeen
operations at once, and the step invariant (10_state.md R20 to R40). -/

namespace Sys2Proof.Machine

/-! The Packet FIFO at session start, and the step invariant as facts. -/

/-- The FIFO of session start, which `FifoInit` restores, meets R29. -/
theorem fifoInv_zeroFifo : fifoInv zeroFifo = true := by decide

theorem State.inv_iff (s : State) : s.inv = true ↔ s.mem.wf = true ∧ fifoInv s.fifo = true := by
  simp [State.inv]

/-- The block's own work keeps the invariant: it leaves memory as it is. -/
theorem BlockFrame.inv {s t : State} (h : BlockFrame s t) (hs : s.inv = true) : t.inv = true := by
  obtain ⟨hmem, hfifo⟩ := s.inv_iff.1 hs
  exact t.inv_iff.2 ⟨h.mem ▸ hmem, h.fifo hfifo⟩

/-! What one operation can do to what the block does not own. -/

/-- `FifoInit` is the block's own work. -/
theorem BlockFrame.fifoInit (s : State) :
    BlockFrame s (((s.setFifo zeroFifo).setEng { s.eng with state := .ready, done := false }).returning .unit) :=
  ((setFifo s zeroFifo fun _ => fifoInv_zeroFifo).thenSetEng _).trans (returning _ _)

/-- `WriterAdvance` is the writer's move of its cursor, then the block's own work (43_mfifo.md R110). -/
theorem BlockFrame.writerAdvance {s u : State} {w : Addr} (h : Machine.exec (.writerAdvance w) s = .next u) :
    BlockFrame (s.setWcur w) u := by
  simp only [Machine.exec, execWriterAdvance] at h
  split at h
  · cases h; exact (request _ _ _).trans (returning _ _)
  · cases h; exact returning _ _

/-- Every operation is the block's own work, or the writer's move before it, or the replacement of the block's state. -/
theorem exec_frame_cases {i : Instr} {s u : State} (h : exec i s = .next u) :
    BlockFrame s u ∨ (∃ w, i = .writerAdvance w ∧ BlockFrame (s.setWcur w) u) ∨
      ∃ b, i = .restore b ∧ u = { s with eng := b.eng, fifo := b.fifo, diag := b.diag, ret := .unit } := by
  by_cases hb : ∃ b, i = .restore b
  · obtain ⟨b, rfl⟩ := hb
    cases h
    exact .inr (.inr ⟨b, rfl, rfl⟩)
  by_cases hw : ∃ w, i = .writerAdvance w
  · obtain ⟨w, rfl⟩ := hw
    exact .inr (.inl ⟨w, rfl, .writerAdvance h⟩)
  by_cases hi : i = .fifoInit
  · subst hi
    cases h
    exact .inl (.fifoInit s)
  exact .inl (.exec h (not_exists.1 hb) (not_exists.1 hw) hi)

/-! What one step can do to the invariant. -/

/-- An operation that restores no block out of order keeps the invariant. -/
theorem exec_keeps_inv {i : Instr} {s u : State} (hb : ∀ b, i = .restore b → fifoInv b.fifo = true)
    (h : exec i s = .next u) (hs : s.inv = true) : u.inv = true := by
  obtain hf | ⟨w, -, hf⟩ | ⟨b, rfl, rfl⟩ := exec_frame_cases h
  · exact hf.inv hs
  · exact hf.inv (by simpa [State.inv_iff] using hs)
  · exact (State.inv_iff _).2 ⟨(s.inv_iff.1 hs).1, hb b rfl⟩

/-- An operation the host does have is well formed. -/
theorem wellFormed_of_no_breach {i : Instr} {s : State} (h : breachOf i s = none) : i.wellFormed = true := by
  cases hi : i.wellFormed with
  | true => rfl
  | false => cases ht : i.tag?.isSome <;> simp [breachOf, hi, ht] at h

/-- An invoked operation keeps the invariant: the host restores only what a snapshot holds (60_exceptions.md R141). -/
theorem invoke_keeps_inv {i : Instr} {s u : State} (h : invoke i s = .next u) (hs : s.inv = true) : u.inv = true := by
  obtain ⟨hbreach, hexec⟩ := (invoke_next_iff i s u).1 h
  refine exec_keeps_inv (fun b hb => ?_) hexec hs
  subst hb
  exact wellFormed_of_no_breach hbreach

/-- A delivery is the block's own work: the scheduler's slot is no part of the invariant. -/
theorem schedule_keeps_inv {s u : State} (h : schedule s = .next u) (hs : s.inv = true) : u.inv = true := by
  cases he : s.sched.entry with
  | none => rw [schedule_quiescent he] at h; cases h; exact hs
  | some e =>
    rw [schedule_pending he] at h
    exact (BlockFrame.handlerEntry h).inv (by simpa [State.inv_iff] using hs)

theorem BlockFrame.atFetch (s : State) : BlockFrame s s.atFetch := by
  unfold State.atFetch
  split
  · exact available _ _
  · exact refl s

/-- The fetch of one tag as a step is the block's own work. -/
theorem BlockFrame.walk {s u : State} (h : Machine.walk s = .next u) : BlockFrame s u := by
  cases hdue : s.tagDue with
  | false => rw [walk_not_due hdue] at h; cases h; exact returning _ _
  | true =>
    rw [walk_eq s hdue] at h
    split at h
    · cases h; exact ((atFetch s).thenRaise _).trans (returning _ _)
    · exact (atFetch s).trans (.fetchOutcome h fun _ _ hf => .tagFetch _ hf)

/-- A move of another agent leaves the FIFO, and stores in memory alone keeping its form (20_memory.md R53). -/
theorem agentMove_keeps_inv (e : Event) {s : State} (hs : s.inv = true) : (agentMove e s).inv = true := by
  obtain ⟨hmem, hfifo⟩ := s.inv_iff.1 hs
  cases e with
  | writeMem a bytes => exact (State.inv_iff _).2 ⟨Memory.writeBytes_wf _ _ _ hmem, hfifo⟩
  | writeReg r v => cases r <;> exact hs
  | _ => exact hs

/-- Every move on the agenda keeps the invariant. -/
theorem runEvent_keeps_inv {e : Event} {s u : State} (h : runEvent e s = .next u) (hs : s.inv = true) :
    u.inv = true := by
  cases e with
  | call i => exact invoke_keeps_inv h hs
  | deliver => exact schedule_keeps_inv h hs
  | walk => exact (BlockFrame.walk h).inv hs
  | writeReg r v =>
    simp only [runEvent] at h
    split at h
    · cases h
    · cases h; exact agentMove_keeps_inv _ hs
  | _ => cases h; exact agentMove_keeps_inv _ hs

/-- A state that steps has not diverged. -/
theorem not_diverged_of_step {s t : State} (h : step s = .next t) : s.diverged = false := by
  cases hd : s.diverged with
  | false => rfl
  | true => simp [step, hd] at h

end Sys2Proof.Machine

namespace Sys2Proof.Claims

open Sys2Proof.Machine

/-- Settles O52: a step is the next move on the agenda or the scheduler's, and each of these keeps the invariant. -/
theorem stepKeepsInvariant : Obligations.StepKeepsInvariant := by
  intro s t hs h
  have hd := not_diverged_of_step h
  cases ha : s.agenda with
  | nil => rw [step_no_move hd ha] at h; exact schedule_keeps_inv h hs
  | cons e rest => rw [step_move hd ha] at h; exact runEvent_keeps_inv h hs

/-- Settles O47: the frame of every operation; a restored block holds nothing of the other agents. -/
theorem othersStateKept : Obligations.OthersStateKept := by
  intro i s u h
  obtain hf | ⟨w, rfl, hf⟩ | ⟨b, rfl, rfl⟩ := exec_frame_cases h
  · exact ⟨hf.dmac, hf.cfg, hf.vif, hf.fifoEmu, hf.mod, hf.tie, hf.dir, hf.tte, .inl hf.wcur⟩
  · exact ⟨hf.dmac, hf.cfg, hf.vif, hf.fifoEmu, hf.mod, hf.tie, hf.dir, hf.tte, .inr (congrArg _ hf.wcur.symm)⟩
  · exact ⟨rfl, rfl, rfl, rfl, rfl, rfl, rfl, rfl, .inl rfl⟩

/-- Settles O49: no part of the block's own work takes a kind out, and the writer's move touches none. -/
theorem diagSticky : Obligations.DiagSticky := by
  intro i s u k hb h hk
  obtain hf | ⟨w, -, hf⟩ | ⟨b, hi, -⟩ := exec_frame_cases h
  · exact hf.diag k hk
  · exact hf.diag k hk
  · exact absurd hi (hb b)

/-- Settles O1: the values of `State.reset`; the storage words are those of a constant vector. -/
theorem resetState : Obligations.ResetState := by
  have hwords : ∀ w : Fin 64, zeroFifo.data[w.val] = 0 ∧ zeroFifo.stage[w.val] = 0 :=
    fun w => ⟨Vector.getElem_replicate _, Vector.getElem_replicate _⟩
  have hdiag : ∀ k, diagHas noDiag k = false := fun k => by cases k <;> rfl
  exact ⟨⟨rfl, rfl, hwords, rfl, rfl, rfl, rfl⟩, ⟨rfl, rfl, rfl, hdiag⟩, rfl, rfl⟩

/-- Settles O2: no byte is listed in memory, and the FIFO is the one `FifoInit` leaves. -/
theorem resetInvariant : Obligations.ResetInvariant := (State.inv_iff _).2 ⟨rfl, fifoInv_zeroFifo⟩

end Sys2Proof.Claims

/-! PROOFS. What becomes of the control word's STR and address-stack pointer: a tag's step alone moves the pointer, within
its two slots (10_state.md R20; 41_chain_tags.md R87, R88), and only the end of a DMA clears STR (10_state.md R21). -/

namespace Sys2Proof.Machine

/-! The transfers write no control bit. -/

/-- A segment transfer writes MADR and QWC alone of the channel (42_transfer.md R98). -/
theorem segmentTransfer_chcr {a : Acc} {s u : State} (h : segmentTransfer a s = .ok u) : u.ch.chcr = s.ch.chcr := by
  have hnote : (noteStallMode s).ch = s.ch := by unfold noteStallMode; split <;> rfl
  rw [← hnote]
  simp only [segmentTransfer, moveSegment] at h
  split at h
  · cases h; rfl
  · split at h
    · cases h
    · rename_i hs; cases h; simp [sink_ch hs]

theorem ringLeg_chcr {src : Addr} {n k : Nat} {a : Acc} {s u : State} (h : ringLeg src n a s = .ok (u, k)) :
    u.ch.chcr = s.ch.chcr := by
  simp only [ringLeg] at h
  split at h
  · cases h
  · rename_i hs; cases h; simp [sink_ch hs]

theorem ringWrap_chcr {n : Nat} {a : Acc} {s u : State} (h : ringWrap n a s = .ok u) : u.ch.chcr = s.ch.chcr := by
  simp only [ringWrap] at h
  split at h
  · cases h; rfl
  · split at h
    · cases h
    · rename_i hl; cases h; exact ringLeg_chcr hl

theorem ringLegs_chcr {q : Nat} {a : Acc} {s u : State} (h : ringLegs q a s = .ok u) : u.ch.chcr = s.ch.chcr := by
  simp only [ringLegs] at h
  split at h
  · cases h; rfl
  · split at h
    · cases h
    · rename_i hl
      split at h
      · exact (ringWrap_chcr h).trans (ringLeg_chcr hl)
      · cases h; exact ringLeg_chcr hl

/-- A ring transfer writes MADR, TADR and QWC alone of the channel (43_mfifo.md R106). -/
theorem ringTransfer_chcr {a : Acc} {s u : State} {r : RingResult} (h : ringTransfer a s = .ok (u, r)) :
    u.ch.chcr = s.ch.chcr := by
  simp only [ringTransfer] at h
  split at h
  · cases h; rfl
  · split at h
    · cases h
    · rename_i hl; cases h; simp [ringOut, available, ringLegs_chcr hl]

@[simp] theorem fifoDrain_ch (a : Acc) (s : State) : (fifoDrain a s).ch = s.ch := by simp [fifoDrain]

@[simp] theorem postPass_ch (s : State) : (postPass s).ch = s.ch := pathCheck_ch .post s

/-! The control word across the block's work. -/

/-- `t` may follow `s` by work that keeps the stack pointer within its slots, and keeps STR unless it ended the DMA. -/
structure CtrlFrame (ended : Prop) (s t : State) : Prop where
  asp : s.ch.chcr.asp.toNat ≤ 2 → t.ch.chcr.asp.toNat ≤ 2
  str : ¬ ended → t.ch.chcr.str = s.ch.chcr.str

namespace CtrlFrame

variable {p q : Prop} {s t u : State}

theorem of_chcr (h : t.ch.chcr = s.ch.chcr) : CtrlFrame p s t := ⟨by rw [h]; exact id, fun _ => by rw [h]⟩

theorem refl (s : State) : CtrlFrame p s s := of_chcr rfl

theorem trans (h : CtrlFrame p s t) (hp : ¬ p) (k : CtrlFrame q t u) : CtrlFrame q s u :=
  ⟨k.asp ∘ h.asp, fun hq => (k.str hq).trans (h.str hp)⟩

theorem then_chcr (h : CtrlFrame p s t) (k : u.ch.chcr = t.ch.chcr) : CtrlFrame p s u :=
  ⟨by rw [k]; exact h.asp, by rw [k]; exact h.str⟩

theorem mono (h : CtrlFrame p s t) (hpq : p → q) : CtrlFrame q s t := ⟨h.asp, fun hq => h.str (hq ∘ hpq)⟩

/-- Clearing STR ends the DMA. -/
theorem cleared (hp : p) (h : t.ch.chcr = { s.ch.chcr with str := false }) : CtrlFrame p s t :=
  ⟨fun ha => by rw [h]; exact ha, fun hn => absurd hp hn⟩

end CtrlFrame

/-! The tags. -/

/-- The step of each tag type. -/
def tagStep : TagType → State → State × Bool
  | .refe => stepRefe
  | .cnt => stepCnt
  | .next => stepNext
  | .ref => stepRef
  | .refs => stepRefs
  | .call => stepCall
  | .ret => stepRet
  | .endTag => stepEnd

theorem walkTag_eq (a : Acc) (t : TagType) (f : TagFields) (s : State) :
    walkTag a t f s = walkWith (tagStep t) a t f s := by cases t <;> rfl

/-- CALL moves the pointer to 1 or 2 and no further. -/
theorem stepCall_asp (s : State) (h : s.ch.chcr.asp.toNat ≤ 2) : (stepCall s).1.ch.chcr.asp.toNat ≤ 2 := by
  unfold stepCall
  split_ifs
  · exact h
  · exact (by decide : (1 : BitVec 2).toNat ≤ 2)
  · exact (by decide : (2 : BitVec 2).toNat ≤ 2)
  · exact h

/-- RET moves the pointer to 1 or 0 and no further. -/
theorem stepRet_asp (s : State) (h : s.ch.chcr.asp.toNat ≤ 2) : (stepRet s).1.ch.chcr.asp.toNat ≤ 2 := by
  unfold stepRet
  split_ifs
  · exact (by decide : (1 : BitVec 2).toNat ≤ 2)
  · exact (by decide : (0 : BitVec 2).toNat ≤ 2)
  · exact h

theorem CtrlFrame.tagStep {p : Prop} (t : TagType) (s : State) : CtrlFrame p s (tagStep t s).1 := by
  cases t
  case call => exact ⟨stepCall_asp s, fun _ => by simp only [Machine.tagStep, stepCall]; split_ifs <;> rfl⟩
  case ret => exact ⟨stepRet_asp s, fun _ => by simp only [Machine.tagStep, stepRet]; split_ifs <;> rfl⟩
  all_goals exact of_chcr rfl

theorem verdictTag_chcr (t : TagType) (r : State × Bool) : (verdictTag t r).ch.chcr = r.1.ch.chcr := by
  unfold verdictTag
  split <;> rfl

theorem tagIrq_ch (f : TagFields) (s : State) : (tagIrq f s).ch = s.ch := by
  unfold tagIrq
  split <;> rfl

/-- What a fetch does after the type's step leaves the control word alone. -/
theorem settleTag_chcr (a : Acc) (t : TagType) (f : TagFields) (r : State × Bool) :
    (settleTag a t f r).1.ch.chcr = r.1.ch.chcr := by
  rw [← verdictTag_chcr t r]
  unfold settleTag
  split
  · rfl
  · simp [tagIrq_ch]

/-- A tag that has been read keeps STR: R95's recovery is for one that has not. -/
theorem CtrlFrame.walkTag {p : Prop} {a : Acc} {t : TagType} {f : TagFields} {s u : State} {r : FetchResult}
    (h : walkTag a t f s = .ok (u, r)) : CtrlFrame p s u := by
  rw [walkTag_eq, walkWith] at h
  split at h
  · obtain rfl : (settleTag a t f (Machine.tagStep t (loadTag a t f s))).1 = u := by injection h with h; rw [h]
    have hload : CtrlFrame False s (loadTag a t f s) := ⟨by simp [loadTag], by simp [loadTag]⟩
    exact (hload.trans id (.tagStep t _)).then_chcr (settleTag_chcr a t f _)
  · cases h

/-- A fetch clears STR only where it fails (41_chain_tags.md R95). -/
theorem CtrlFrame.tagFetch {a : Acc} {s u : State} {r : FetchResult} (h : tagFetch a s = .ok (u, r)) :
    CtrlFrame (r = .fail) s u := by
  simp only [Machine.tagFetch] at h
  split at h
  · cases h; exact cleared rfl rfl
  · split at h
    · cases h
    · split at h
      · exact .walkTag h
      · cases h

/-- A chain loop clears STR only where its last fetch fails (45_handler.md R124). -/
theorem CtrlFrame.chainLoop {a : Acc} {u : State} {r : FetchResult} (n : Nat) :
    ∀ {s : State}, chainLoop a n s = .ok (u, r) → CtrlFrame (r = .fail) s u := by
  induction n with
  | zero =>
    intro s h
    simp only [Machine.chainLoop] at h
    split at h
    · cases h
    · cases h; exact refl _
  | succ n ih =>
    intro s h
    simp only [Machine.chainLoop] at h
    split at h
    · split at h
      · cases h
      · rename_i hf; exact (CtrlFrame.tagFetch hf).trans (by decide) (ih h)
      · rename_i hf; cases h; exact .tagFetch hf
      · rename_i hf; cases h; exact .tagFetch hf
    · cases h; exact refl _

/-! The handler entry. -/

/-- The outcomes of an entry that ends the DMA (45_handler.md R119, R129). -/
def EntryOutcome.endsDma (o : EntryOutcome) : Prop := o = .complete ∨ o = .abort .unmappedTag

/-- Finalize ends the DMA (45_handler.md R126). -/
theorem CtrlFrame.finalize (s : State) : CtrlFrame (EntryOutcome.endsDma .complete) s (finalize s) :=
  cleared (.inl rfl) rfl

theorem CtrlFrame.directEntry {s u : State} {o : EntryOutcome} (h : directEntry s = .ok (u, o)) :
    CtrlFrame o.endsDma s u := by
  simp only [Machine.directEntry] at h
  split at h
  · cases h; exact of_chcr (by simp)
  · split at h
    · split at h
      · cases h
      · rename_i hf; cases h; exact (CtrlFrame.chainLoop _ hf).mono fun _ => .inr rfl
      · rename_i hf; cases h; exact (CtrlFrame.chainLoop _ hf).trans (by decide) (refl _)
      · rename_i hf
        refine (CtrlFrame.chainLoop _ hf).trans (by decide) ?_
        split at h
        · split at h
          · cases h
          · rename_i hs; cases h; exact of_chcr (by simpa using segmentTransfer_chcr hs)
        · cases h; exact of_chcr (by simp)
    · cases h; exact .finalize s

theorem CtrlFrame.mfifoMove {n : Nat} {s u : State} {o : EntryOutcome} (h : mfifoMove n s = .ok (u, o)) :
    CtrlFrame o.endsDma s u := by
  simp only [Machine.mfifoMove] at h
  split at h
  · split at h
    · split at h
      · cases h
      · rename_i hr; cases h; exact of_chcr (by simpa using ringTransfer_chcr hr)
      · rename_i hr; cases h; exact of_chcr (by simpa using ringTransfer_chcr hr)
    · split at h
      · cases h
      · rename_i hs; cases h; exact of_chcr (by simpa using segmentTransfer_chcr hs)
  · split at h
    · cases h; exact .finalize s
    · cases h; exact refl s

theorem CtrlFrame.mfifoEntry {s u : State} {o : EntryOutcome} (h : mfifoEntry s = .ok (u, o)) :
    CtrlFrame o.endsDma s u := by
  have havail : CtrlFrame False s (available s.ch.tadr s).1 := of_chcr rfl
  simp only [Machine.mfifoEntry] at h
  split at h
  · cases h; exact of_chcr (by simp)
  · split at h
    · refine havail.trans id ?_
      split at h
      · cases h; exact of_chcr rfl
      · split at h
        · cases h
        · rename_i hf; cases h; exact (CtrlFrame.tagFetch hf).mono fun _ => .inr rfl
        · rename_i hf; cases h; exact (CtrlFrame.tagFetch hf).trans (by decide) (refl _)
        · rename_i hf; exact (CtrlFrame.tagFetch hf).trans (by decide) (.mfifoMove h)
    · exact .mfifoMove h

theorem CtrlFrame.variantEntry {s u : State} {o : EntryOutcome} (h : variantEntry s = .ok (u, o)) :
    CtrlFrame o.endsDma s u := by
  simp only [Machine.variantEntry] at h
  split at h
  · exact .mfifoEntry h
  · exact .directEntry h

/-- A handler entry clears STR only where the outcome it returns ends the DMA. -/
theorem CtrlFrame.handlerEntry {s u : State} (h : exec .handlerEntry s = .next u) :
    ∃ o, u.ret = .outcome o ∧ CtrlFrame o.endsDma s u := by
  simp only [Machine.exec, execHandlerEntry] at h
  split at h
  · cases h; exact ⟨.idle, rfl, of_chcr rfl⟩
  · have hpre : (pathCheck .pre s).1.ch = s.ch := pathCheck_ch .pre s
    split at h
    · rename_i s' o hp
      cases h
      exact ⟨o, endEntry_ret s' o, of_chcr (by rw [endEntry_ch, ← hpre, hp])⟩
    · rename_i s' hp
      have hgo : CtrlFrame False s s' := of_chcr (by rw [← hpre, hp])
      split at h
      · cases h
      · rename_i r hr
        obtain ⟨s'', o⟩ := r
        cases h
        exact ⟨o, endEntry_ret s'' o, (hgo.trans id (.variantEntry hr)).then_chcr (congrArg _ (endEntry_ch s'' o))⟩

/-! Every operation. -/

theorem execDmaStart_ch {s u : State} (h : exec .dmaStart s = .next u) : u.ch = s.ch := by
  simp only [exec, execDmaStart] at h
  split at h
  · cases h
  · cases h; rfl

theorem execFifoWrite_ch {buf : List Quad} {count : BitVec 16} {s u : State}
    (h : exec (.fifoWrite buf count) s = .next u) : u.ch = s.ch := by
  simp only [exec, execFifoWrite] at h
  split at h
  · cases h
  · cases h; rfl

theorem execWriterAdvance_ch {w : Addr} {s u : State} (h : exec (.writerAdvance w) s = .next u) : u.ch = s.ch := by
  simp only [exec, execWriterAdvance] at h
  split at h <;> · cases h; rfl

/-- What ends the DMA: the controller's Cancel, or an entry with an outcome that says so. -/
def endedBy (i : Instr) (u : State) : Prop :=
  i = .cancel ∨ (i = .handlerEntry ∧ ∃ o, u.ret = .outcome o ∧ o.endsDma)

/-- The control word across every operation. -/
theorem exec_ctrlFrame {i : Instr} {s u : State} (h : exec i s = .next u) : CtrlFrame (endedBy i u) s u := by
  have htag : ∀ {p : Prop} (t : TagType) (f : TagFields), exec (Instr.ofTag t f) s = .next u → CtrlFrame p s u := by
    intro p t f ht
    rw [exec_ofTag] at ht
    obtain ⟨s', r, hw, rfl⟩ := fetchOutcome_next ht
    exact (CtrlFrame.walkTag hw).then_chcr rfl
  cases i with
  | refe f => exact htag .refe f h
  | cnt f => exact htag .cnt f h
  | next f => exact htag .next f h
  | ref f => exact htag .ref f h
  | refs f => exact htag .refs f h
  | call f => exact htag .call f h
  | ret f => exact htag .ret f h
  | endTag f => exact htag .endTag f h
  | fifoInit => cases h; exact .of_chcr rfl
  | fifoWrite buf count => exact .of_chcr (congrArg _ (execFifoWrite_ch h))
  | fifoRead b => cases h; exact .of_chcr (congrArg _ (fifoRead_ch b s))
  | dmaStart => exact .of_chcr (congrArg _ (execDmaStart_ch h))
  | handlerEntry =>
    obtain ⟨o, hret, hf⟩ := CtrlFrame.handlerEntry h
    exact hf.mono fun ho => .inr ⟨rfl, o, hret, ho⟩
  | cancel => cases h; exact .cleared (.inl rfl) rfl
  | writerAdvance w => exact .of_chcr (congrArg _ (execWriterAdvance_ch h))
  | snapshot => cases h; exact .of_chcr rfl
  | restore b => cases h; exact .of_chcr rfl

/-- No operation sets STR (10_state.md R21). -/
theorem exec_str_not_set {i : Instr} {s u : State} (h : exec i s = .next u) (hu : u.ch.chcr.str = true) :
    s.ch.chcr.str = true := by
  obtain hf | ⟨w, -, hf⟩ | ⟨b, -, rfl⟩ := exec_frame_cases h
  · exact hf.str hu
  · exact hf.str hu
  · exact hu

end Sys2Proof.Machine

namespace Sys2Proof.Claims

open Sys2Proof.Machine

/-- Settles O48: the frame says that STR is not set, and an operation that does not end the DMA keeps it. -/
theorem strOnlyCleared : Obligations.StrOnlyCleared := by
  intro i s u h
  refine ⟨exec_str_not_set h, fun hs hu => ?_⟩
  have hended : endedBy i u := by
    by_contra hn
    have hkept := (exec_ctrlFrame h).str hn
    simp [hs, hu] at hkept
  obtain hc | ⟨hi, o, hret, ho⟩ := hended
  · exact .inl hc
  · exact .inr ⟨hi, by obtain rfl | rfl := ho <;> simp [hret]⟩

/-- Settles O50: the frame keeps the pointer within its slots, which CALL and RET alone move. -/
theorem stackPointerLegal : Obligations.StackPointerLegal :=
  fun _ _ _ hs h => (exec_ctrlFrame h).asp hs

end Sys2Proof.Claims

/-! PROOFS. Main memory: no operation writes it, and a read that starts mapped and does not resolve to its end is refused
(20_memory.md R43, R46, R48). The coordinator's pass of an entry, tied to its closed form. -/

namespace Sys2Proof.Machine

/-- No operation writes memory. -/
theorem exec_mem {i : Instr} {s u : State} (h : exec i s = .next u) : u.mem = s.mem := by
  obtain hf | ⟨w, -, hf⟩ | ⟨b, -, rfl⟩ := exec_frame_cases h
  · exact hf.mem
  · exact hf.mem
  · rfl

/-! Reads with an unmapped tail (20_memory.md R48). -/

/-- A run of no quadword resolves. -/
theorem State.runMapped_zero (s : State) (a : Addr) : s.runMapped a 0 = true := by
  have := a.isLt
  simp [State.runMapped]
  omega

/-- The refusal of a run whose tail does not resolve. -/
theorem State.run_tail {s : State} {a : Addr} {n : Nat} (h : s.runMapped a n = false) :
    s.run a n = .error (.unmappedRunTail (s.addDiag .unmappedRunTail)) := by
  simp [State.run, h]

/-- The quadwords the sink reads of `n` offered: into the Packet FIFO those that fit, else all (42_transfer.md R96). -/
def State.sinkCount (s : State) (n : Nat) : Nat := if s.fifoEmu then min n (Config.capacity - s.fifo.occ) else n

/-- The sink refuses a run with an unmapped tail, whichever way it goes. -/
theorem sink_tail {s : State} {src : Addr} {n : Nat} {a : Acc} (h : s.runMapped src (s.sinkCount n) = false) :
    sink src n a s = .error (.unmappedRunTail (s.addDiag .unmappedRunTail)) := by
  have hcount : s.sinkCount n ≠ 0 := fun h0 => by simp [h0, State.runMapped_zero] at h
  have hn : n ≠ 0 := by rintro rfl; simp [State.sinkCount] at hcount
  rw [sink, if_neg hn]
  unfold State.sinkCount at h hcount
  cases hemu : s.fifoEmu with
  | true =>
    rw [hemu, if_pos rfl] at h hcount
    simp [sinkFifo, hcount, State.run_tail h]
  | false =>
    rw [hemu, if_neg Bool.false_ne_true] at h
    simp [sinkDirect, State.run_tail h]

@[simp] theorem noteStallMode_ch (s : State) : (noteStallMode s).ch = s.ch := by
  unfold noteStallMode; split <;> rfl
@[simp] theorem noteStallMode_cfg (s : State) : (noteStallMode s).cfg = s.cfg := by
  unfold noteStallMode; split <;> rfl
@[simp] theorem noteStallMode_fifo (s : State) : (noteStallMode s).fifo = s.fifo := by
  unfold noteStallMode; split <;> rfl
@[simp] theorem noteStallMode_fifoEmu (s : State) : (noteStallMode s).fifoEmu = s.fifoEmu := by
  unfold noteStallMode; split <;> rfl

/-- A segment whose start is mapped and whose run has an unmapped tail is refused, its stall mode noted. -/
theorem segmentTransfer_tail {s : State} {a : Acc} (hm : s.mapped s.ch.madr = true)
    (ht : s.runMapped s.ch.madr (s.sinkCount (chunk s.cfg s.ch.qwc.toNat)) = false) :
    segmentTransfer a s = .error (.unmappedRunTail ((noteStallMode s).addDiag .unmappedRunTail)) := by
  have hsink : sink s.ch.madr (chunk s.cfg s.ch.qwc.toNat) a (noteStallMode s) =
      .error (.unmappedRunTail ((noteStallMode s).addDiag .unmappedRunTail)) :=
    sink_tail (by simpa [State.runMapped, State.sinkCount] using ht)
  have hm' : (noteStallMode s).mapped s.ch.madr = true := by simpa [State.mapped] using hm
  simp [segmentTransfer, moveSegment, hm', hsink]

/-- A tag whose quadword starts mapped and has an unmapped tail is refused (log 12). -/
theorem tagFetch_tail {s : State} {a : Acc} (hm : s.mapped s.ch.tadr = true) (ht : s.runMapped s.ch.tadr 1 = false) :
    tagFetch a s = .error (.unmappedRunTail (s.addDiag .unmappedRunTail)) := by
  simp [tagFetch, hm, State.run_tail ht]

/-! An entry that moves a segment. -/

/-- With no tag due the chain loop fetches nothing, whatever its fuel. -/
theorem chainLoop_not_due (a : Acc) (n : Nat) {s : State} (h : s.tagDue = false) : chainLoop a n s = .ok (s, .ok) := by
  cases n <;> simp [chainLoop, h]

/-- With quadwords left and an empty FIFO, an entry whose data do not come from the ring is a segment transfer, in both
variants (45_handler.md R123, R125; 43_mfifo.md R107). -/
theorem variantEntry_segment {s : State} (hf : s.fifo.occ = 0) (hq : s.ch.qwc ≠ 0)
    (hd : (s.routed && s.inWindow s.ch.madr) = false) :
    variantEntry s =
      (segmentTransfer s.variantAcc s).map (afterTransfer s.variantAcc (s.acc s.variantAcc)) := by
  have hz : s.ch.qwc ≠ 0#16 := hq
  have hdue : s.tagDue = false := by simp [State.tagDue, hz]
  cases hr : s.routed with
  | true =>
    have hw : s.inWindow s.ch.madr = false := by simpa [hr] using hd
    rw [State.variantAcc, if_pos hr]
    simp only [variantEntry, hr, mfifoEntry, hf, hdue, mfifoMove, hw, State.acc]
    cases segmentTransfer .mcyc s <;> simp [hz, Except.map]
  | false =>
    rw [State.variantAcc, if_neg (by simp [hr])]
    simp only [variantEntry, hr, directEntry, hf, chainLoop_not_due _ _ hdue, State.acc]
    cases segmentTransfer .cyc s <;> simp [hz, Except.map]

/-- The VIF gate's nudge leaves its decision as it is. -/
theorem vgwDecision_pathNudge (s : State) : (pathNudge s).vgwDecision = s.vgwDecision := by
  unfold pathNudge
  split <;> rfl

/-- A tag whose address field is not a multiple of 16 is refused before its step. -/
theorem walkTag_misaligned {a : Acc} {t : TagType} {f : TagFields} {s : State} (h : aligned f.addr = false) :
    walkTag a t f s = .error (.misalignedTag f.addr) := by
  simp [walkTag_eq, walkWith, h]

end Sys2Proof.Machine

namespace Sys2Proof.Claims

open Sys2Proof.Machine

/-! The coordinator's pre-pass (44_path_coordinator.md R113 to R116). -/

theorem coordinated_eq (s : State) : coordinated s = pathDemote (pathKick s) := rfl

theorem gate_eq (s : State) : gate s = s.vifGated := rfl

theorem passed_eq (s : State) : passed s = pathNudge (coordinated s) := by
  simp only [passed, pathNudge, gate_eq, nudged]
  cases (coordinated s).vifGated <;> cases (coordinated s).vif.pending <;> rfl

theorem goesOn_iff (s : State) : goesOn s = true ↔ (coordinated s).vgwDecision = .go := by
  simp only [goesOn, State.vgwDecision, gate_eq]
  cases (coordinated s).vifGated
  · simp
  cases (coordinated s).cfg.vgwPolicy
  · cases (coordinated s).gif.masked <;> simp
  · simp; split <;> simp

/-- Where an entry goes on, its pre-pass leaves the state the entry's variant starts from. -/
theorem pathCheck_of_enters {s p : State} (h : Enters s p) : pathCheck .pre s = (p, .go) := by
  obtain ⟨-, hgo, rfl⟩ := h
  rw [passed_eq, pathCheck, ← coordinated_eq, vgwDecision_pathNudge, (goesOn_iff s).1 hgo]

theorem directSource_iff (s : State) : directSource s = true ↔ (s.routed && s.inWindow s.ch.madr) = false := by
  rw [directSource, routed_eq, inRing_eq, Bool.not_eq_true']

/-- Settles O32: an entry that goes on with a segment is the segment's transfer, and it and a fetch at TADR read by
`Run`, which refuses the tail with the state it noted it in. -/
theorem runTailRefused : Obligations.RunTailRefused := by
  refine ⟨?run, ?tag⟩
  case run =>
    rintro s p n hs hf hq hd hm rfl ht
    have hcount : p.sinkCount (chunk p.cfg p.ch.qwc.toNat) =
        if p.fifoEmu then min (chunk p.cfg p.ch.qwc.toNat) 16 else chunk p.cfg p.ch.qwc.toNat := by
      simp [State.sinkCount, hf, Config.capacity]
    rw [← hcount, runResolves_eq] at ht
    refine ⟨(noteStallMode p).addDiag .unmappedRunTail, ?_, by simp⟩
    rw [exec_handlerEntry_go hs.1 (pathCheck_of_enters hs), variantEntry_segment hf hq ((directSource_iff p).1 hd),
      segmentTransfer_tail hm ht]
    rfl
  case tag =>
    intro s hw ht hm hr
    have hfetch : tagFetch s.variantAcc s.atFetch =
        .error (.unmappedRunTail (s.atFetch.addDiag .unmappedRunTail)) := by
      -- the address and the map are the same before `Available` and after it
      unfold State.atFetch
      split <;> exact tagFetch_tail hm hr
    have hdiag : (atTag s).diag = s.diag := by unfold atTag; split <;> rfl
    rw [walk_eq s hw, if_neg (by simpa [tagThere_eq] using ht), hfetch, ← atTag_eq s ht, ← hdiag]
    rfl

/-- Settles O46: the block's own work leaves memory alone, and so do the writer's move and a restored block. -/
theorem memoryNeverWritten : Obligations.MemoryNeverWritten := by
  intro i s u h
  have hmem := exec_mem h
  exact ⟨hmem, fun a => by rw [hmem]⟩

/-- Settles O20: a tag's step is within the common fetch, which asks the address field first. -/
theorem misalignedTagRefused : Obligations.MisalignedTagRefused := by
  intro t f s h
  have hf : aligned f.addr = false := by simpa [aligned] using h
  rw [exec_ofTag, walkTag_misaligned hf]
  rfl

end Sys2Proof.Claims

/-! PROOFS. Every operation keeps the addresses multiples of 16 (20_memory.md R46; 10_state.md R32): what moves an address
adds whole quadwords to it, or renormalizes it into a ring whose base and mask are multiples of 16. -/

namespace Sys2Proof.Machine

/-! The multiples of 16. -/

theorem aligned_iff (a : Addr) : aligned a = true ↔ a.toNat % 16 = 0 := by simp [aligned]

theorem aligned_add {a b : Addr} (ha : aligned a = true) (hb : aligned b = true) : aligned (a + b) = true := by
  rw [aligned_iff] at *
  rw [BitVec.toNat_add]
  omega

theorem aligned_sub {a b : Addr} (ha : aligned a = true) (hb : aligned b = true) : aligned (a - b) = true := by
  rw [aligned_iff] at *
  rw [BitVec.toNat_sub]
  omega

/-- A mask without low bits leaves none. -/
theorem aligned_and {a m : Addr} (hm : aligned m = true) : aligned (a &&& m) = true := by
  rw [aligned_iff] at *
  rw [BitVec.toNat_and, show (16 : Nat) = 2 ^ 4 from rfl, Nat.and_mod_two_pow, hm, Nat.and_zero]

/-- A count of quadwords is a whole number of them in bytes. -/
theorem aligned_byteLen (n : Nat) : aligned (byteLen n) = true := by
  rw [aligned_iff, byteLen, BitVec.toNat_shiftLeft, Nat.shiftLeft_eq]
  omega

theorem aligned_zero : aligned (0 : Addr) = true := by decide

theorem aligned_16 : aligned (16 : Addr) = true := by decide

/-! The addresses the machine holds. -/

/-- The channel's addresses are multiples of 16. -/
structure Channel.Aligned (c : Channel) : Prop where
  madr : aligned c.madr = true
  tadr : aligned c.tadr = true
  asr0 : aligned c.asr0 = true
  asr1 : aligned c.asr1 = true

/-- Every address the block uses is a multiple of 16, and so is the ring mask. -/
structure State.Aligned (s : State) : Prop where
  ch    : s.ch.Aligned
  stadr : aligned s.dmac.stadr = true
  rbor  : aligned s.dmac.rbor = true
  rbsr  : aligned s.dmac.rbsr = true
  wcur  : aligned s.wcur = true

namespace State.Aligned

variable {s t u : State}

/-- Of the block's own work, only what it does to the channel matters. -/
theorem frame (hs : s.Aligned) (hf : BlockFrame s t) (hc : t.ch.Aligned) : t.Aligned :=
  ⟨hc, hf.dmac ▸ hs.stadr, hf.dmac ▸ hs.rbor, hf.dmac ▸ hs.rbsr, hf.wcur ▸ hs.wcur⟩

theorem frame_eq (hs : s.Aligned) (hf : BlockFrame s t) (hc : t.ch = s.ch) : t.Aligned := hs.frame hf (hc ▸ hs.ch)

theorem setCh (hs : s.Aligned) {c : Channel} (hc : c.Aligned) : (s.setCh c).Aligned :=
  ⟨hc, hs.stadr, hs.rbor, hs.rbsr, hs.wcur⟩

theorem addDiag (hs : s.Aligned) (k : DiagKind) : (s.addDiag k).Aligned := hs.frame_eq (.addDiag s k) rfl

theorem setEng (hs : s.Aligned) (e : Engine) : (s.setEng e).Aligned := hs.frame_eq (.setEng s e) rfl

/-- Renormalizing aligns any address in a ring that is aligned (43_mfifo.md R103). -/
theorem renorm (hs : s.Aligned) (a : Addr) : aligned (s.renorm a) = true := aligned_add hs.rbor (aligned_and hs.rbsr)

/-! The tags (41_chain_tags.md). -/

theorem loadTag (hs : s.Aligned) (a : Acc) (t : TagType) {f : TagFields} (hf : aligned f.addr = true) :
    (loadTag a t f s).Aligned := by
  refine hs.frame (.loadTag a t f s) ?_
  rw [Machine.loadTag, State.charge_ch]
  exact ⟨hf, hs.ch.tadr, hs.ch.asr0, hs.ch.asr1⟩

/-- The quadword after the tag. -/
theorem afterTag (hs : s.Aligned) : aligned (s.ch.tadr + 16) = true := aligned_add hs.ch.tadr aligned_16

theorem returnAddr (hs : s.Aligned) : aligned s.returnAddr = true := aligned_add hs.afterTag (aligned_byteLen _)

theorem dataAfterTag (hs : s.Aligned) : (dataAfterTag s).Aligned :=
  hs.setCh ⟨hs.afterTag, hs.ch.tadr, hs.ch.asr0, hs.ch.asr1⟩

theorem stepCall (hs : s.Aligned) : (stepCall s).1.Aligned := by
  unfold Machine.stepCall
  split_ifs
  · refine addDiag (hs.dataAfterTag.setCh ?_) _
    exact ⟨hs.afterTag, hs.returnAddr, hs.ch.asr0, hs.ch.asr1⟩
  · exact hs.dataAfterTag.setCh ⟨hs.afterTag, hs.ch.madr, hs.returnAddr, hs.ch.asr1⟩
  · exact hs.dataAfterTag.setCh ⟨hs.afterTag, hs.ch.madr, hs.ch.asr0, hs.returnAddr⟩
  · exact hs.dataAfterTag.addDiag _

theorem stepRet (hs : s.Aligned) : (stepRet s).1.Aligned := by
  unfold Machine.stepRet
  split_ifs
  · exact hs.dataAfterTag.setCh ⟨hs.afterTag, hs.ch.asr1, hs.ch.asr0, aligned_zero⟩
  · exact hs.dataAfterTag.setCh ⟨hs.afterTag, hs.ch.asr0, aligned_zero, hs.ch.asr1⟩
  · exact hs.dataAfterTag

theorem tagStep (hs : s.Aligned) (t : TagType) : (tagStep t s).1.Aligned := by
  cases t with
  | refe | ref | refs => exact hs.setCh ⟨hs.ch.madr, hs.afterTag, hs.ch.asr0, hs.ch.asr1⟩
  | cnt => exact hs.setCh ⟨hs.afterTag, hs.returnAddr, hs.ch.asr0, hs.ch.asr1⟩
  | next => exact hs.setCh ⟨hs.afterTag, hs.ch.madr, hs.ch.asr0, hs.ch.asr1⟩
  | call => exact hs.stepCall
  | ret => exact hs.stepRet
  | endTag => exact hs.dataAfterTag

theorem mfifoClamp (hs : s.Aligned) (t : TagType) : (mfifoClamp t s).Aligned := by
  refine hs.setCh ⟨?_, hs.renorm _, hs.ch.asr0, hs.ch.asr1⟩
  dsimp only
  split
  · exact hs.renorm _
  · exact hs.ch.madr

theorem verdictTag {r : State × Bool} (hs : r.1.Aligned) (t : TagType) : (verdictTag t r).Aligned := by
  unfold Machine.verdictTag
  split
  · exact (hs.setEng _).mfifoClamp t
  · exact hs.setEng _

theorem stall (hs : s.Aligned) (a : Acc) : (stall a s).Aligned := by
  refine hs.frame (.stall a s) ⟨hs.ch.madr, ?_, hs.ch.asr0, hs.ch.asr1⟩
  show aligned (if s.routed then s.renorm (s.ch.tadr - 16) else s.ch.tadr - 16) = true
  split
  · exact hs.renorm _
  · exact aligned_sub hs.ch.tadr aligned_16

theorem settleTag {r : State × Bool} (hs : r.1.Aligned) (a : Acc) (t : TagType) (f : TagFields) :
    (settleTag a t f r).1.Aligned := by
  have hv := hs.verdictTag t
  unfold Machine.settleTag
  split
  · exact (hv.stall a).frame_eq (.setStalled _ _) rfl
  · exact hv.frame_eq ((BlockFrame.tagIrq f _).trans (.setStalled _ _)) (tagIrq_ch f _)

/-- A tag that is not refused has an aligned address field. -/
theorem walkTag (hs : s.Aligned) {a : Acc} {t : TagType} {f : TagFields} {r : FetchResult}
    (h : walkTag a t f s = .ok (u, r)) : u.Aligned := by
  rw [walkTag_eq, walkWith] at h
  split at h
  · rename_i hf
    obtain rfl : (Machine.settleTag a t f (Machine.tagStep t (Machine.loadTag a t f s))).1 = u := by
      injection h with h; rw [h]
    exact ((hs.loadTag a t hf).tagStep t).settleTag a t f
  · cases h

/-- The address past a segment. -/
theorem pastSegment (hs : s.Aligned) : aligned (s.ch.madr + s.segLen) = true :=
  aligned_add hs.ch.madr (aligned_byteLen _)

theorem tagFail (hs : s.Aligned) : (tagFail s).Aligned :=
  hs.frame (.tagFail s) ⟨hs.pastSegment, hs.ch.tadr, hs.ch.asr0, hs.ch.asr1⟩

theorem tagFetch (hs : s.Aligned) {a : Acc} {r : FetchResult} (h : tagFetch a s = .ok (u, r)) : u.Aligned := by
  simp only [Machine.tagFetch] at h
  split at h
  · cases h; exact hs.tagFail
  · split at h
    · cases h
    · split at h
      · exact hs.walkTag h
      · cases h

theorem chainLoop {a : Acc} {r : FetchResult} (n : Nat) :
    ∀ {s : State}, s.Aligned → chainLoop a n s = .ok (u, r) → u.Aligned := by
  induction n with
  | zero =>
    intro s hs h
    simp only [Machine.chainLoop] at h
    split at h
    · cases h
    · cases h; exact hs
  | succ n ih =>
    intro s hs h
    simp only [Machine.chainLoop] at h
    split at h
    · split at h
      · cases h
      · rename_i hf; exact ih (hs.tagFetch hf) h
      · rename_i hf; cases h; exact hs.tagFetch hf
      · rename_i hf; cases h; exact hs.tagFetch hf
    · cases h; exact hs

/-! The transfers (42_transfer.md; 43_mfifo.md). -/

theorem sink (hs : s.Aligned) {src : Addr} {n k : Nat} {a : Acc} (h : sink src n a s = .ok (u, k)) : u.Aligned :=
  hs.frame_eq (.sink _ _ _ h) (sink_ch h)

theorem segUnmapped (hs : s.Aligned) : (segUnmapped s).Aligned :=
  hs.frame (.segUnmapped s) ⟨hs.pastSegment, hs.ch.tadr, hs.ch.asr0, hs.ch.asr1⟩

theorem moveSegment (hs : s.Aligned) {a : Acc} (h : moveSegment a s = .ok u) : u.Aligned := by
  simp only [Machine.moveSegment] at h
  split at h
  · cases h; exact hs.segUnmapped
  · split at h
    · cases h
    · rename_i hk
      cases h
      obtain ⟨hmadr, htadr, hasr0, hasr1⟩ := (hs.sink hk).ch
      exact (hs.sink hk).setCh ⟨aligned_add hmadr (aligned_byteLen _), htadr, hasr0, hasr1⟩

theorem segmentTransfer (hs : s.Aligned) {a : Acc} (h : segmentTransfer a s = .ok u) : u.Aligned :=
  (hs.frame_eq (.noteStallMode s) (noteStallMode_ch s)).moveSegment h

theorem ringLeg (hs : s.Aligned) {src : Addr} {n k : Nat} {a : Acc} (h : ringLeg src n a s = .ok (u, k)) :
    u.Aligned := by
  simp only [Machine.ringLeg] at h
  split at h
  · cases h
  · rename_i hk
    cases h
    obtain ⟨-, htadr, hasr0, hasr1⟩ := (hs.sink hk).ch
    exact (hs.sink hk).setCh ⟨(hs.sink hk).renorm _, htadr, hasr0, hasr1⟩

theorem ringWrap (hs : s.Aligned) {n : Nat} {a : Acc} (h : ringWrap n a s = .ok u) : u.Aligned := by
  simp only [Machine.ringWrap] at h
  split at h
  · cases h; exact hs.segUnmapped
  · split at h
    · cases h
    · rename_i hl; cases h; exact hs.ringLeg hl

theorem ringLegs (hs : s.Aligned) {q : Nat} {a : Acc} (h : ringLegs q a s = .ok u) : u.Aligned := by
  simp only [Machine.ringLegs] at h
  split at h
  · cases h; exact hs.segUnmapped
  · split at h
    · cases h
    · rename_i hl
      split at h
      · exact (hs.ringLeg hl).ringWrap h
      · cases h; exact hs.ringLeg hl

theorem ringOut (hs : s.Aligned) : (ringOut s).Aligned :=
  hs.setCh ⟨hs.renorm _, hs.renorm _, hs.ch.asr0, hs.ch.asr1⟩

theorem available (hs : s.Aligned) (d : Addr) : (available d s).1.Aligned := hs.setEng _

theorem ringTransfer (hs : s.Aligned) {a : Acc} {r : RingResult} (h : ringTransfer a s = .ok (u, r)) : u.Aligned := by
  simp only [Machine.ringTransfer] at h
  split at h
  · cases h; exact hs.available _
  · split at h
    · cases h
    · rename_i hl; cases h; exact ((hs.available _).ringLegs hl).ringOut

/-! The handler entry (45_handler.md). -/

theorem pathCheck (hs : s.Aligned) (p : Pass) : (pathCheck p s).1.Aligned :=
  hs.frame_eq (.pathCheck p s) (pathCheck_ch p s)

theorem postPass (hs : s.Aligned) : (postPass s).Aligned := hs.pathCheck .post

theorem fifoDrain (hs : s.Aligned) (a : Acc) : (fifoDrain a s).Aligned :=
  hs.frame_eq (.fifoDrain a s) (fifoDrain_ch a s)

theorem finalize (hs : s.Aligned) : (finalize s).Aligned :=
  hs.frame (.finalize s) ⟨hs.ch.madr, hs.ch.tadr, hs.ch.asr0, hs.ch.asr1⟩

theorem raise (hs : s.Aligned) (l : IntLine) : (s.raise l).Aligned := hs.frame_eq (.raise s l) rfl

theorem directEntry (hs : s.Aligned) {o : EntryOutcome} (h : directEntry s = .ok (u, o)) : u.Aligned := by
  simp only [Machine.directEntry] at h
  split at h
  · cases h; exact (hs.fifoDrain _).postPass
  · split at h
    · split at h
      · cases h
      · rename_i hf; cases h; exact chainLoop _ hs hf
      · rename_i hf; cases h; exact chainLoop _ hs hf
      · rename_i hf
        have hs' := chainLoop _ hs hf
        split at h
        · split at h
          · cases h
          · rename_i ht; cases h; exact (hs'.segmentTransfer ht).postPass
        · cases h; exact hs'.postPass
    · cases h; exact hs.finalize

theorem mfifoMove (hs : s.Aligned) {n : Nat} {o : EntryOutcome} (h : mfifoMove n s = .ok (u, o)) : u.Aligned := by
  simp only [Machine.mfifoMove] at h
  split at h
  · split at h
    · split at h
      · cases h
      · rename_i hr; cases h; exact (hs.ringTransfer hr).raise _
      · rename_i hr; cases h; exact (hs.ringTransfer hr).postPass
    · split at h
      · cases h
      · rename_i ht; cases h; exact (hs.segmentTransfer ht).postPass
  · split at h
    · cases h; exact hs.finalize
    · cases h; exact hs

theorem mfifoEntry (hs : s.Aligned) {o : EntryOutcome} (h : mfifoEntry s = .ok (u, o)) : u.Aligned := by
  simp only [Machine.mfifoEntry] at h
  split at h
  · cases h; exact (hs.fifoDrain _).postPass
  · split at h
    · split at h
      · cases h; exact (hs.available _).raise _
      · split at h
        · cases h
        · rename_i hf; cases h; exact (hs.available _).tagFetch hf
        · rename_i hf; cases h; exact (hs.available _).tagFetch hf
        · rename_i hf; exact ((hs.available _).tagFetch hf).mfifoMove h
    · exact hs.mfifoMove h

theorem variantEntry (hs : s.Aligned) {o : EntryOutcome} (h : variantEntry s = .ok (u, o)) : u.Aligned := by
  simp only [Machine.variantEntry] at h
  split at h
  · exact hs.mfifoEntry h
  · exact hs.directEntry h

theorem endEntry (hs : s.Aligned) (o : EntryOutcome) : (endEntry (s, o)).Aligned :=
  hs.frame_eq (.endEntry (s, o)) (endEntry_ch s o)

theorem handlerEntry (hs : s.Aligned) (h : exec .handlerEntry s = .next u) : u.Aligned := by
  simp only [exec, execHandlerEntry] at h
  split at h
  · cases h; exact hs.endEntry _
  · have hpre := hs.pathCheck .pre
    split at h
    · rename_i hp
      rw [hp] at hpre
      cases h
      exact hpre.endEntry _
    · rename_i hp
      rw [hp] at hpre
      split at h
      · cases h
      · rename_i r hr
        cases h
        exact (hpre.variantEntry (o := r.2) hr).endEntry _

end State.Aligned

/-! Every operation. -/

/-- An operation that is no tag and no handler entry writes nothing of the channel but STR. -/
theorem exec_operation_ch {i : Instr} {s u : State} (htag : i.tag? = none) (hi : i ≠ .handlerEntry)
    (h : exec i s = .next u) : ∃ b, u.ch = { s.ch with chcr.str := b } := by
  cases i with
  | fifoInit => cases h; exact ⟨s.ch.chcr.str, rfl⟩
  | fifoWrite buf count => exact ⟨s.ch.chcr.str, execFifoWrite_ch h⟩
  | fifoRead b => cases h; exact ⟨s.ch.chcr.str, fifoRead_ch b s⟩
  | dmaStart => exact ⟨s.ch.chcr.str, execDmaStart_ch h⟩
  | handlerEntry => exact absurd rfl hi
  | cancel => cases h; exact ⟨false, rfl⟩
  | writerAdvance w => exact ⟨s.ch.chcr.str, execWriterAdvance_ch h⟩
  | snapshot => cases h; exact ⟨s.ch.chcr.str, rfl⟩
  | restore b => cases h; exact ⟨s.ch.chcr.str, rfl⟩
  | _ => cases htag

theorem exec_ch_aligned {i : Instr} {s u : State} (hs : s.Aligned) (h : exec i s = .next u) : u.ch.Aligned := by
  cases htag : i.tag? with
  | some p =>
    obtain ⟨t, f⟩ := p
    rw [i.eq_ofTag t f htag, exec_ofTag] at h
    obtain ⟨s', r, hw, rfl⟩ := fetchOutcome_next h
    exact (hs.walkTag hw).ch
  | none =>
    by_cases hi : i = .handlerEntry
    · subst hi
      exact (hs.handlerEntry h).ch
    · obtain ⟨b, hc⟩ := exec_operation_ch htag hi h
      rw [hc]
      exact ⟨hs.ch.madr, hs.ch.tadr, hs.ch.asr0, hs.ch.asr1⟩

/-- Every operation keeps the addresses aligned, where the writer's new cursor is. -/
theorem State.Aligned.exec {i : Instr} {s u : State} (hs : s.Aligned)
    (hw : ∀ w, i = .writerAdvance w → aligned w = true) (h : exec i s = .next u) : u.Aligned := by
  have hc := exec_ch_aligned hs h
  obtain hf | ⟨w, hi, hf⟩ | ⟨b, -, rfl⟩ := exec_frame_cases h
  · exact hs.frame hf hc
  · have hmoved : (s.setWcur w).Aligned := ⟨hs.ch, hs.stadr, hs.rbor, hs.rbsr, hw w hi⟩
    exact hmoved.frame hf hc
  · exact ⟨hc, hs.stadr, hs.rbor, hs.rbsr, hs.wcur⟩

end Sys2Proof.Machine

namespace Sys2Proof.Claims

open Sys2Proof.Machine

theorem addressesAligned_iff (s : State) : addressesAligned s = true ↔ s.Aligned := by
  simp only [addressesAligned, Bool.and_eq_true]
  constructor
  · rintro ⟨⟨⟨⟨⟨⟨⟨hmadr, htadr⟩, hasr0⟩, hasr1⟩, hstadr⟩, hrbor⟩, hwcur⟩, hrbsr⟩
    exact ⟨⟨hmadr, htadr, hasr0, hasr1⟩, hstadr, hrbor, hrbsr, hwcur⟩
  · rintro ⟨⟨hmadr, htadr, hasr0, hasr1⟩, hstadr, hrbor, hrbsr, hwcur⟩
    exact ⟨⟨⟨⟨⟨⟨⟨hmadr, htadr⟩, hasr0⟩, hasr1⟩, hstadr⟩, hrbor⟩, hwcur⟩, hrbsr⟩

/-- Settles O51: a tag's address field is asked, the moves are by whole quadwords, and the ring clamp aligns what it
renormalizes. -/
theorem alignmentKept : Obligations.AlignmentKept := by
  intro i s u hs hw h
  rw [addressesAligned_iff] at hs ⊢
  exact hs.exec hw h

end Sys2Proof.Claims

/-! PROOFS. Encodings: a tag and its sixteen bytes are one another's image (30_encoding.md R58 to R63, R68), and the channel
control word (R64). -/

namespace Sys2Proof

/-! The type numbers (30_encoding.md R61, R62). -/

/-- The eight numbers of a well-formed map are different values of three bits, so they are all of them. -/
theorem TagIdMap.exists_idOf_eq (m : TagIdMap) (h : m.wellFormed = true) (id : BitVec 3) : ∃ t, m.idOf t = id := by
  simp only [TagIdMap.wellFormed, Bool.and_eq_true, decide_eq_true_eq] at h
  obtain ⟨hnodup, -⟩ := h
  have hmem : id ∈ [TagType.refe, .cnt, .next, .ref, .refs, .call, .ret, .endTag].map m.idOf := by
    by_contra hnot
    have hcard := (List.nodup_cons.2 ⟨hnot, hnodup⟩).length_le_card
    rw [← FinEnum.card_eq_fintypeCard, FinEnum.card_bitVec] at hcard
    exact absurd hcard (by simp)
  obtain ⟨t, -, ht⟩ := List.mem_map.1 hmem
  exact ⟨t, ht⟩

/-! One tag as a quadword (30_encoding.md R59, R63). -/

@[simp] theorem encode_ofTag (m : TagIdMap) (t : TagType) (f : TagFields) :
    encode m (Instr.ofTag t f) = some (encodeTag m t f) := by
  simp [encode]

/-- What has an encoding is a tag. -/
theorem encode_eq_some_iff {m : TagIdMap} {i : Instr} {q : Quad} :
    encode m i = some q ↔ ∃ t f, i = Instr.ofTag t f ∧ encodeTag m t f = q := by
  constructor
  · intro h
    cases htag : i.tag? with
    | none => simp [encode, htag] at h
    | some tf =>
      obtain ⟨t, f⟩ := tf
      obtain rfl := i.eq_ofTag t f htag
      exact ⟨t, f, rfl, by simpa using h⟩
  · rintro ⟨t, f, rfl, rfl⟩
    exact encode_ofTag m t f

/-- A quadword decodes to the tag whose type its ID selects and whose fields it holds. -/
theorem decodeTag_eq_ok_iff {m : TagIdMap} {T : Quad} {i : Instr} :
    decodeTag m T = .ok i ↔ ∃ t, m.typeOf (tagIdOf T) = some t ∧ i = Instr.ofTag t (tagFieldsOf T) := by
  cases ht : m.typeOf (tagIdOf T) <;> simp [decodeTag, tagOfQuad, ht, eq_comm]

theorem decodeTag_encodeTag (m : TagIdMap) (h : m.wellFormed = true) (t : TagType) (f : TagFields) :
    decodeTag m (encodeTag m t f) = .ok (Instr.ofTag t f) :=
  decodeTag_eq_ok_iff.2 ⟨t, by rw [tagIdOf_encodeTag, m.typeOf_idOf h], by rw [tagFieldsOf_encodeTag]⟩

/-- The ID and the fields are all the bits there are: a type with a quadword's ID encodes its fields to it. -/
theorem encodeTag_tagFieldsOf (m : TagIdMap) (t : TagType) (T : Quad) (h : m.idOf t = tagIdOf T) :
    encodeTag m t (tagFieldsOf T) = T := by
  apply BitVec.eq_of_getLsbD_eq
  intro j hj
  simp only [encodeTag, tagHi16, tagFieldsOf, h, tagIdOf, BitVec.getLsbD_append, BitVec.getLsbD_extractLsb']
  interval_cases j <;> simp

theorem encode_of_decodeTag {m : TagIdMap} {T : Quad} {i : Instr} (h : decodeTag m T = .ok i) : encode m i = some T := by
  obtain ⟨t, ht, rfl⟩ := decodeTag_eq_ok_iff.1 h
  rw [encode_ofTag, encodeTag_tagFieldsOf m t T (m.idOf_of_typeOf _ t ht)]

/-- Every quadword is a tag under a well-formed map (30_encoding.md R62). -/
theorem exists_decodeTag (m : TagIdMap) (h : m.wellFormed = true) (T : Quad) :
    ∃ t f, decodeTag m T = .ok (Instr.ofTag t f) := by
  obtain ⟨t, ht⟩ := m.exists_idOf_eq h (tagIdOf T)
  exact ⟨t, tagFieldsOf T, decodeTag_eq_ok_iff.2 ⟨t, ht ▸ m.typeOf_idOf h t, rfl⟩⟩

/-! The sixteen bytes (30_encoding.md R68). -/

@[simp] theorem bytesOfQuad_length (q : Quad) : (bytesOfQuad q).length = 16 := leBytes_length 16 q.toNat

theorem decode_short (m : TagIdMap) {bytes : List Byte} (h : bytes.length < 16) : decode m bytes = .error .short := by
  simp [decode, h]

/-- A quadword's bytes, whatever follows, decode as the quadword does. -/
theorem decode_bytesOfQuad_append (m : TagIdMap) (q : Quad) (rest : List Byte) :
    decode m (bytesOfQuad q ++ rest) = (decodeTag m q).map (·, rest) := by
  have htake : (bytesOfQuad q ++ rest).take 16 = bytesOfQuad q := List.take_left' (bytesOfQuad_length q)
  have hdrop : (bytesOfQuad q ++ rest).drop 16 = rest := List.drop_left' (bytesOfQuad_length q)
  simp only [decode, List.length_append, bytesOfQuad_length, htake, hdrop, quadOfBytes_bytesOfQuad]
  cases decodeTag m q <;> simp [Except.map]

/-- At least sixteen bytes begin with the bytes of the quadword they hold. -/
theorem eq_bytesOfQuad_append_drop {bytes : List Byte} (h : 16 ≤ bytes.length) :
    bytes = bytesOfQuad (quadOfBytes (bytes.take 16)) ++ bytes.drop 16 := by
  rw [bytesOfQuad_quadOfBytes _ (by simp [h]), List.take_append_drop]

/-- What decodes: the sixteen bytes of a quadword that is a tag, and what follows them. -/
theorem decode_eq_ok_iff {m : TagIdMap} {bytes rest : List Byte} {i : Instr} :
    decode m bytes = .ok (i, rest) ↔ ∃ q, decodeTag m q = .ok i ∧ bytes = bytesOfQuad q ++ rest := by
  constructor
  · intro h
    obtain hlen | hlen := Nat.lt_or_ge bytes.length 16
    · rw [decode_short m hlen] at h; cases h
    · have hb := eq_bytesOfQuad_append_drop hlen
      rw [hb, decode_bytesOfQuad_append] at h
      cases hq : decodeTag m (quadOfBytes (bytes.take 16)) with
      | error e => rw [hq] at h; cases h
      | ok j =>
        rw [hq] at h
        cases h
        exact ⟨_, hq, hb⟩
  · rintro ⟨q, hq, rfl⟩
    rw [decode_bytesOfQuad_append, hq]
    rfl

/-! The words of a tag (30_encoding.md R63). -/

/-- With the unused bits clear a tag is the quadword of three parts, `lo32` its low word. -/
theorem encodeTag_clear (m : TagIdMap) (t : TagType) (q : BitVec 16) (i : Bool) (a : Addr) :
    encodeTag m t { qwc := q, spare := 0, pce := 0, irq := i, addr := a, upper := 0 } =
      (0 : BitVec 64) ++ a ++
        (((BitVec.ofBool i).setWidth 32 <<< 31) ||| ((m.idOf t).setWidth 32 <<< 28) ||| q.setWidth 32) := by
  apply BitVec.eq_of_getLsbD_eq
  intro j hj
  simp only [encodeTag, tagHi16, BitVec.getLsbD_append, BitVec.getLsbD_or, BitVec.getLsbD_shiftLeft,
    BitVec.getLsbD_setWidth]
  interval_cases j <;> simp

end Sys2Proof

namespace Sys2Proof.Claims

open Sys2Proof.Machine

/-! The bytes of words, as the statements write them (30_encoding.md R63; 60_exceptions.md R136). -/

theorem leNat_wordBytes (w : Word) : leNat (wordBytes w) = w.toNat := by
  have hw := w.isLt
  simp only [wordBytes, leNat, BitVec.extractLsb'_toNat, Nat.shiftRight_eq_div_pow]
  omega

theorem leNat_wordBytes_append (w : Word) (bs : List Byte) : leNat (wordBytes w ++ bs) = w.toNat + 2 ^ 32 * leNat bs := by
  have hlen : (wordBytes w).length = 4 := rfl
  norm_num [leNat_append, leNat_wordBytes, hlen]

theorem toNat_append_word {n : Nat} (x : BitVec n) (w : Word) : (x ++ w).toNat = w.toNat + 2 ^ 32 * x.toNat := by
  rw [BitVec.toNat_append, ← Nat.shiftLeft_add_eq_or_of_lt w.isLt, Nat.shiftLeft_eq, Nat.mul_comm, Nat.add_comm]

/-- A quadword's bytes are its words' bytes, low word first. -/
theorem bytesOfQuad_words (w₃ w₂ w₁ w₀ : Word) :
    bytesOfQuad (w₃ ++ w₂ ++ w₁ ++ w₀) = wordBytes w₀ ++ wordBytes w₁ ++ wordBytes w₂ ++ wordBytes w₃ := by
  have hnat : leNat (wordBytes w₀ ++ wordBytes w₁ ++ wordBytes w₂ ++ wordBytes w₃) = (w₃ ++ w₂ ++ w₁ ++ w₀).toNat := by
    simp only [List.append_assoc, leNat_wordBytes_append, leNat_wordBytes, toNat_append_word]
  rw [bytesOfQuad, ← hnat]
  exact leBytes_leNat (wordBytes w₀ ++ wordBytes w₁ ++ wordBytes w₂ ++ wordBytes w₃)

/-! The channel control word (30_encoding.md R64). -/

/-- The fields of a control word do not overlap. -/
theorem unpackChcr_packChcr (c : Chcr) : unpackChcr (packChcr c) = c := by
  obtain ⟨dir, mod, asp, tte, tie, str, tag⟩ := c
  simp only [unpackChcr, packChcr, Chcr.mk.injEq]
  refine ⟨?dir, ?mod, ?asp, ?tte, ?tie, ?str, ?tag⟩
  case mod | asp | tag =>
    apply BitVec.eq_of_getLsbD_eq
    intro j hj
    simp only [BitVec.getLsbD_extractLsb', BitVec.getLsbD_append]
    interval_cases j <;> simp
  case dir | tte | tie | str =>
    simp only [BitVec.getLsbD_append]
    simp

/-- A write of the control word is no breach, and writes CHCR alone. -/
theorem runEvent_writeChcr (s : State) (w : Word) :
    runEvent (.writeReg .chcr w) s = .next { s with ch.chcr := unpackChcr w } := by
  have hb : writeBreach .chcr w s = none := rfl
  simp only [runEvent, hb]
  rfl

/-- Settles O53: an instruction with an encoding is a tag, and an encoded tag decodes to itself. -/
theorem decodeEncode : Obligations.DecodeEncode := by
  intro m i q rest hm hq
  obtain ⟨t, f, rfl, rfl⟩ := encode_eq_some_iff.1 hq
  exact decode_eq_ok_iff.2 ⟨_, decodeTag_encodeTag m hm t f, rfl⟩

/-- Settles O54: what decodes begins with the bytes of a quadword, and the quadword is the encoding of its tag. -/
theorem encodeDecode : Obligations.EncodeDecode := by
  intro m bytes rest i h
  obtain ⟨q, hq, hbytes⟩ := decode_eq_ok_iff.1 h
  exact ⟨q, encode_of_decodeTag hq, hbytes⟩

/-- Settles O55: a well-formed map gives every ID a type, so the only bytes that do not decode are too few. -/
theorem everyTagDecodes : Obligations.EveryTagDecodes := by
  refine fun m bytes hm => ⟨fun hlen => ?_, decode_short m⟩
  obtain ⟨t, f, hT⟩ := exists_decodeTag m hm (quadOfBytes (bytes.take 16))
  exact ⟨t, f, decode_eq_ok_iff.2 ⟨_, hT, eq_bytesOfQuad_append_drop hlen⟩⟩

/-- Settles O56: `lo32` is the three fields side by side, and the quadword is four words of which two are 0. -/
theorem encodingLayout : Obligations.EncodingLayout := by
  rintro m t q i a lo rfl
  have hclear := encodeTag_clear m t q i a
  exact ⟨_, encode_ofTag m t _, hclear, hclear ▸ bytesOfQuad_words 0 0 a _⟩

/-- Settles O58: a write of the control word unpacks it, and what is packed is unpacked. -/
theorem controlWordFields : Obligations.ControlWordFields :=
  ⟨fun w s hd => (step_first _ hd).trans (runEvent_writeChcr s w), unpackChcr_packChcr⟩

end Sys2Proof.Claims

/-! PROOFS. The Packet FIFO: its operations tied to their closed forms, the queue of quadwords it is (10_state.md R28, R29;
40_packet_fifo.md R70 to R78), and the entry that moves a segment into it (42_transfer.md R96 to R98). -/

namespace Sys2Proof

/-- A word's bytes are the same in either writing. -/
theorem bytesOfWord_eq (w : Word) : bytesOfWord w = Claims.wordBytes w := by
  rw [bytesOfWord, ← Claims.leNat_wordBytes]
  exact leBytes_leNat (Claims.wordBytes w)

/-- The words of a quadword side by side are the quadword. -/
theorem quadWord_append (q : Quad) : quadWord q 3 ++ quadWord q 2 ++ quadWord q 1 ++ quadWord q 0 = q := by
  apply BitVec.eq_of_getLsbD_eq
  intro j hj
  simp only [quadWord, BitVec.getLsbD_append, BitVec.getLsbD_extractLsb']
  interval_cases j <;> simp

theorem PacketFifo.ext {f g : PacketFifo} (hdata : f.data = g.data) (hstage : f.stage = g.stage) (hrd : f.rd = g.rd)
    (hwr : f.wr = g.wr) (hocc : f.occ = g.occ) (hstatus : f.status = g.status) : f = g := by
  cases f; cases g; congr

/-- A byte list given by index, as a number (20_memory.md R45). -/
theorem leNat_map_range (n : Nat) (g : Nat → Byte) :
    leNat ((List.range n).map g) = ((List.range n).map fun i => (g i).toNat * 2 ^ (8 * i)).sum := by
  induction n with
  | zero => rfl
  | succ n ih =>
    have hweight : 256 ^ n = 2 ^ (8 * n) := by rw [Nat.pow_mul]
    simp [List.range_succ, leNat_append, leNat, ih, hweight, Nat.mul_comm]

end Sys2Proof

namespace Sys2Proof.Machine

open Claims

/-! The storage: what a word holds, by its distance from an index. -/

/-- The words from index `r` on to storage word `w`, around the storage (10_state.md R28). -/
def wordsPast (r : BitVec 6) (w : Nat) : Nat := (w + 64 - r.toNat) % 64

theorem wordsPast_lt (r : BitVec 6) (w : Nat) : wordsPast r w < 64 := Nat.mod_lt _ (by decide)

theorem wordsPast_add_one (r : BitVec 6) (w : Nat) : wordsPast (r + 1) w = (wordsPast r w + 63) % 64 := by
  simp only [wordsPast, BitVec.ofNat_eq_ofNat, BitVec.toNat_add, BitVec.toNat_ofNat]
  omega

theorem wordsPast_eq_zero_iff (r : BitVec 6) {w : Nat} (hw : w < 64) : wordsPast r w = 0 ↔ r.toNat = w := by
  unfold wordsPast
  omega

/-- A word written stands at the write index. -/
theorem pushWord_data (f : PacketFifo) (x : Word) (w : Nat) (hw : w < 64) :
    (pushWord f x).data[w] = if wordsPast f.wr w = 0 then x else f.data[w] := by
  simp only [pushWord, Vector.getElem_set, wordsPast_eq_zero_iff _ hw]

@[simp] theorem pushWord_wr (f : PacketFifo) (x : Word) : (pushWord f x).wr = f.wr + 1 := rfl

/-- A quadword written: its words stand in order from the write index on. -/
theorem pushQuad_data (f : PacketFifo) (q : Quad) (w : Nat) (hw : w < 64) :
    (pushQuad f q).data[w] = if wordsPast f.wr w < 4 then quadWord q (wordsPast f.wr w) else f.data[w] := by
  have hlt := wordsPast_lt f.wr w
  simp only [pushQuad, pushWord_data, pushWord_wr, wordsPast_add_one]
  generalize wordsPast f.wr w = d at *
  obtain hd | hd := Nat.lt_or_ge d 4
  · interval_cases d <;> rfl
  · rw [if_neg (by omega), if_neg (by omega), if_neg (by omega), if_neg (by omega), if_neg (by omega)]

/-- At most sixteen quadwords written: their words stand in order from the write index on, the others are kept. -/
theorem foldl_pushQuad_data (l : List Quad) (w : Nat) (hw : w < 64) : ∀ f : PacketFifo, l.length ≤ 16 →
    (l.foldl pushQuad f).data[w] =
      if wordsPast f.wr w < 4 * l.length then quadWord (l.getD (wordsPast f.wr w / 4) 0) (wordsPast f.wr w % 4)
      else f.data[w] := by
  induction l with
  | nil => intro f _; simp
  | cons q l ih =>
    intro f hl
    have hlt := wordsPast_lt f.wr w
    rw [List.length_cons] at hl
    have hpast : wordsPast (pushQuad f q).wr w = (wordsPast f.wr w + 60) % 64 := by
      simp only [pushQuad, pushWord_wr, wordsPast_add_one]
      omega
    rw [List.foldl_cons, ih _ (by omega), hpast, pushQuad_data, List.length_cons]
    generalize wordsPast f.wr w = d at *
    obtain hd | hd := Nat.lt_or_ge d 4
    · rw [if_neg (by omega), if_pos hd, if_pos (by omega), Nat.div_eq_of_lt hd, Nat.mod_eq_of_lt hd]
      rfl
    · obtain ⟨e, rfl⟩ := Nat.exists_eq_add_of_le' hd
      have he : (e + 4 + 60) % 64 = e := by omega
      rw [he, if_neg (by omega : ¬ e + 4 < 4), Nat.add_div_right _ (by decide), Nat.add_mod_right, Nat.mul_succ]
      simp only [Nat.add_lt_add_iff_right]
      rfl

/-! The staging area: what a read offers. -/

/-- Word `i` from the read index once the index has moved by `k` words. -/
theorem heldWord_congr_add {f g : PacketFifo} (k i : Nat) (hd : g.data = f.data) (hr : g.rd = f.rd + BitVec.ofNat 6 k) :
    heldWord g i = heldWord f (k + i) := by
  unfold heldWord
  simp only [hd, hr, BitVec.toNat_add, BitVec.toNat_ofNat]
  congr 1
  omega

/-- A word is staged from the read index. -/
theorem stageWord_stage (k : Nat) (f : PacketFifo) (i : Nat) (hi : i < 64) :
    (stageWord k f).stage[i] = if i = k then heldWord f 0 else f.stage[i] := by
  have h0 : f.data.get ⟨f.rd.toNat, f.rd.isLt⟩ = heldWord f 0 := by
    unfold heldWord
    simp only [Nat.add_zero, Nat.mod_eq_of_lt f.rd.isLt]
    rfl
  simp only [stageWord, h0, Vector.getElem_setIfInBounds, eq_comm]

theorem heldWord_stageWord (k : Nat) (f : PacketFifo) (i : Nat) : heldWord (stageWord k f) i = heldWord f (1 + i) :=
  heldWord_congr_add 1 i rfl rfl

/-- One quadword from the storage into staging entry `j`. -/
def stageQuad (j : Nat) (f : PacketFifo) : PacketFifo :=
  stageWord (4 * j + 3) (stageWord (4 * j + 2) (stageWord (4 * j + 1) (stageWord (4 * j) f)))

theorem stageQuads_succ (n j : Nat) (f : PacketFifo) :
    stageQuads (n + 1) j f = stageQuads n (j + 1) (stageQuad j f) := rfl

/-- A quadword is staged from the read index, its words in order. -/
theorem stageQuad_stage (j : Nat) (f : PacketFifo) (i : Nat) (hi : i < 64) :
    (stageQuad j f).stage[i] = if 4 * j ≤ i ∧ i < 4 * j + 4 then heldWord f (i - 4 * j) else f.stage[i] := by
  simp only [stageQuad, stageWord_stage, heldWord_stageWord]
  by_cases h : 4 * j ≤ i ∧ i < 4 * j + 4
  · obtain ⟨d, rfl⟩ := Nat.exists_eq_add_of_le h.1
    have hd : d < 4 := by omega
    rw [if_pos h, Nat.add_sub_cancel_left]
    interval_cases d <;> simp
  · rw [if_neg h, if_neg (by omega), if_neg (by omega), if_neg (by omega), if_neg (by omega)]

theorem heldWord_stageQuad (j : Nat) (f : PacketFifo) (i : Nat) : heldWord (stageQuad j f) i = heldWord f (4 + i) := by
  simp only [stageQuad, heldWord_stageWord]
  congr 1
  omega

/-- `n` entries staged: their words stand in order from staging entry `j` on, the others are kept. -/
theorem stageQuads_stage (n i : Nat) (hi : i < 64) : ∀ (j : Nat) (f : PacketFifo),
    (stageQuads n j f).stage[i] =
      if 4 * j ≤ i ∧ i < 4 * (j + n) then heldWord f (i - 4 * j) else f.stage[i] := by
  induction n with
  | zero => intro j f; rw [if_neg (by omega)]; rfl
  | succ n ih =>
    intro j f
    rw [stageQuads_succ, ih, heldWord_stageQuad, stageQuad_stage]
    by_cases hlater : 4 * (j + 1) ≤ i ∧ i < 4 * (j + 1 + n)
    · rw [if_pos hlater, if_pos (by omega)]
      congr 1
      omega
    · rw [if_neg hlater]
      congr 1
      simp only [eq_iff_iff]
      omega

/-- A word of a comparison vector is the one its index gives. -/
@[simp] theorem getElem_words (g : Fin 64 → Word) (i : Nat) (hi : i < 64) : (words g)[i] = g ⟨i, hi⟩ := by
  simp [words]

/-- A write is its closed form: the accepted quadwords stand from the write index on (40_packet_fifo.md R72). -/
theorem fifoWrite_eq_written (f : PacketFifo) (buf : List Quad) (count : Nat) (hb : count ≤ buf.length) :
    fifoWrite f buf count = (written f buf count, min count (16 - f.occ)) := by
  have hn : min count (16 - f.occ) ≤ buf.length ∧ min count (16 - f.occ) ≤ 16 := by omega
  simp only [fifoWrite, written, Config.capacity]
  generalize min count (16 - f.occ) = n at hn
  have hlen : (buf.take n).length = n := List.length_take_of_le hn.1
  obtain ⟨hwr, hrd, hocc, hstage, -⟩ := foldl_pushQuad (buf.take n) f
  rw [hlen] at hwr
  refine congrArg (·, n) (PacketFifo.ext ?data hstage hrd hwr (congrArg (· + n) hocc) (hocc ▸ rfl))
  ext w hw : 1
  have hdata := foldl_pushQuad_data (buf.take n) w hw f (by omega)
  rw [hlen] at hdata
  rw [hdata, getElem_words]
  refine if_ctx_congr Iff.rfl (fun hd => ?_) fun _ => rfl
  have htake : wordsPast f.wr w / 4 < n := Nat.div_lt_of_lt_mul hd
  rw [List.getD_eq_getElem?_getD, List.getElem?_take_of_lt htake, ← List.getD_eq_getElem?_getD]
  rfl

/-- A call that offers `n` quadwords, and what is noted of its answer (40_packet_fifo.md R76; 60_exceptions.md R136). -/
theorem offered_eq (s : State) (bytes : List Byte) (n : Nat) :
    (if 16 * n < s.nextAnswer.consumed then (s.callReceiver (.transfer .dma bytes (16 * n))).addDiag .consumerOverrun
      else s.callReceiver (.transfer .dma bytes (16 * n))) = offered s bytes n := by
  by_cases h : 16 * n < s.nextAnswer.consumed
  · simp only [h, offered, overrun, if_true]
    rfl
  · simp only [h, offered, overrun, if_false]
    rfl

/-- The bytes staged are those of the entries from the read index, in order. -/
theorem stagedBytes_stageQuads (f : PacketFifo) (n : Nat) (hn : n ≤ 16) :
    stagedBytes (stageQuads n 0 f) n = heldBytes f n := by
  have hwords : (stageQuads n 0 f).stage.toList.take (4 * n) = (List.range (4 * n)).map (heldWord f) := by
    apply List.ext_getElem
    · simp; omega
    · intro i h1 h2
      have hi : i < 4 * n := by simpa using h2
      simp [stageQuads_stage n i (by omega), hi]
  simp only [stagedBytes, heldBytes, hwords, List.flatMap_map, bytesOfWord_eq]

/-- What an offer leaves is its closed form (40_packet_fifo.md R74, R76). -/
theorem fifoOffer_eq_afterRead (b : Bool) (s : State) (hidle : readIdle s = false) (hocc : s.fifo.occ ≤ 16) :
    (fifoOffer s).returning (.count (fifoOffer s).fifo.occ) = afterRead b s := by
  obtain ⟨hrd, hocc', hwr, hdata, hstage, hstatus⟩ := fifoOffer_fifo s
  have hfifo : (fifoOffer s).fifo = (afterRead b s).fifo := by
    simp only [afterRead, hidle]
    refine PacketFifo.ext hdata ?stage hrd hwr hocc' hstatus
    ext i hi : 1
    rw [hstage, stageQuads_stage _ i hi]
    simp
  rw [fifoOffer_state, offered_eq, stagedBytes_stageQuads _ _ hocc, hfifo]
  simp only [afterRead, hidle]
  rfl

theorem exec_fifoRead (b : Bool) (s : State) :
    exec (.fifoRead b) s = .next ((fifoRead b s).1.returning (.count (fifoRead b s).2)) := rfl

theorem readIdle_iff (s : State) : readIdle s = true ↔ s.fifo.occ = 0 ∨ s.gif.canAccept = false := by
  simp [readIdle]

/-- The machine asks what the closed form asks. -/
theorem readIdle_eq (s : State) : (decide (s.fifo.occ = 0) || !s.gif.canAccept) = readIdle s := rfl

/-- A read that is not idle offers what is held (40_packet_fifo.md R74). -/
theorem fifoRead_offers (b : Bool) {s : State} (h : readIdle s = false) :
    fifoRead b s = (fifoOffer s, (fifoOffer s).fifo.occ) := by
  rw [fifoRead, readIdle_eq, h]
  rfl

/-- A read asks for no retry from a handler entry, nor of an empty FIFO (40_packet_fifo.md R75). -/
theorem no_retry {b : Bool} {s : State} (h : b = true ∨ s.fifo.occ = 0) :
    (!b && decide (0 < s.fifo.occ)) = false := by
  obtain rfl | hocc := h
  · rfl
  · simp [hocc]

/-- A read with nothing to move writes the status alone (40_packet_fifo.md R74). -/
theorem fifoRead_idle {b : Bool} {s : State} (h : readIdle s = true) (hretry : b = true ∨ s.fifo.occ = 0) :
    fifoRead b s = (s.setFifo (mirrorStatus s.fifo), 0) := by
  rw [fifoRead, readIdle_eq, h, no_retry hretry]
  rfl

/-- A refused read that is not a handler entry's asks for a retry (40_packet_fifo.md R75). -/
theorem fifoRead_refused {s : State} (h : readIdle s = true) (hocc : 0 < s.fifo.occ) :
    fifoRead false s = ((s.request s.cfg.minDelay s.chan).setFifo (mirrorStatus s.fifo), 0) := by
  rw [fifoRead, readIdle_eq, h]
  simp [hocc]

/-- A read is its closed form (40_packet_fifo.md R74, R75). -/
theorem fifoRead_eq_afterRead (b : Bool) {s : State} (hocc : s.fifo.occ ≤ 16) :
    (fifoRead b s).1.returning (.count (fifoRead b s).2) = afterRead b s := by
  cases hidle : readIdle s with
  | false => rw [fifoRead_offers b hidle, ← fifoOffer_eq_afterRead b s hidle hocc]
  | true =>
    by_cases hretry : b = true ∨ s.fifo.occ = 0
    · rw [fifoRead_idle hidle hretry]
      simp only [afterRead, hidle, no_retry hretry]
      rfl
    · obtain ⟨rfl, hpos⟩ : b = false ∧ 0 < s.fifo.occ := by simpa [Nat.pos_iff_ne_zero] using hretry
      rw [fifoRead_refused hidle hpos]
      simp only [afterRead, hidle, hpos]
      rfl

/-- A read calls the consumer at most, unless it was refused and asks for a retry (40_packet_fifo.md R75). -/
theorem fifoRead_silent {b : Bool} {s : State} (h : b = true ∨ s.fifo.occ = 0 ∨ s.gif.canAccept = true) :
    Silent s (fifoRead b s).1 ∧ (fifoRead b s).1.sched = s.sched := by
  have hsame : fifoRead b s = fifoRead true s := by
    cases hidle : readIdle s with
    | false => rw [fifoRead_offers b hidle, fifoRead_offers true hidle]
    | true =>
      have hocc : b = true ∨ s.fifo.occ = 0 := by
        refine h.imp_right fun h => h.elim id fun hgif => ?_
        simpa [hgif] using (readIdle_iff s).1 hidle
      rw [fifoRead_idle hidle hocc, fifoRead_idle hidle (.inl rfl)]
  rw [hsame]
  refine ⟨Silent.fifoRead s, ?_⟩
  cases hidle : readIdle s with
  | false =>
    rw [fifoRead_offers true hidle]
    dsimp only
    rw [fifoOffer_state, offered_eq]
    rfl
  | true => rw [fifoRead_idle hidle (.inl rfl)]; rfl

/-! The FIFO as a queue of quadwords (40_packet_fifo.md R78). -/

@[simp] theorem held_length (f : PacketFifo) : (held f).length = f.occ := by simp [held]

theorem heldQuad_bytes (f : PacketFifo) (j : Nat) :
    bytesOfQuad (heldQuad f j) = [4 * j, 4 * j + 1, 4 * j + 2, 4 * j + 3].flatMap fun i => wordBytes (heldWord f i) := by
  simp only [heldQuad, bytesOfQuad_words]
  rfl

/-- The bytes of the entries held are their quadwords' bytes. -/
theorem heldBytes_eq (f : PacketFifo) (n : Nat) :
    heldBytes f n = ((List.range n).map (heldQuad f)).flatMap bytesOfQuad := by
  induction n with
  | zero => rfl
  | succ n ih =>
    have hlast : List.range (4 * (n + 1)) = List.range (4 * n) ++ [4 * n, 4 * n + 1, 4 * n + 2, 4 * n + 3] := by
      simp [Nat.mul_succ, List.range_succ]
    rw [heldBytes] at ih
    rw [heldBytes, hlast, List.flatMap_append, ih, List.range_succ, List.map_append, List.flatMap_append,
      List.map_singleton, List.flatMap_singleton, heldQuad_bytes]

/-- The word `i` past the read index, by its distance from the write index: `4 * f.occ` words less. -/
theorem wordsPast_wr {f : PacketFifo} (hwr : f.wr = f.rd + BitVec.ofNat 6 (4 * f.occ)) (i : Nat) :
    wordsPast f.wr ((f.rd.toNat + i) % 64) = (i + 60 * f.occ) % 64 := by
  simp only [wordsPast, hwr, BitVec.toNat_add, BitVec.toNat_ofNat]
  omega

theorem written_data (f : PacketFifo) (buf : List Quad) (count w : Nat) (hw : w < 64) :
    (written f buf count).data[w] = if wordsPast f.wr w < 4 * min count (16 - f.occ) then
      quadWord (buf.getD (wordsPast f.wr w / 4) 0) (wordsPast f.wr w % 4) else f.data[w] := by
  simp only [written, getElem_words]
  rfl

section

variable {f : PacketFifo} {buf : List Quad} {count : Nat}

/-- A write leaves the words held before it. -/
theorem heldWord_written_old (hinv : fifoInv f = true) {i : Nat} (hi : i < 4 * f.occ) :
    heldWord (written f buf count) i = heldWord f i := by
  obtain ⟨hocc, hwr, -, -⟩ := (fifoInv_iff f).1 hinv
  have hpast := wordsPast_wr hwr i
  rw [heldWord, written_data]
  exact if_neg (by simp only [written]; omega)

/-- The words after those held are the buffer's, in order. -/
theorem heldWord_written_new (hinv : fifoInv f = true) {j k : Nat} (hj : j < min count (16 - f.occ)) (hk : k < 4) :
    heldWord (written f buf count) (4 * (f.occ + j) + k) = quadWord (buf.getD j 0) k := by
  obtain ⟨hocc, hwr, -, -⟩ := (fifoInv_iff f).1 hinv
  have hpast : wordsPast f.wr ((f.rd.toNat + (4 * (f.occ + j) + k)) % 64) = 4 * j + k := by
    rw [wordsPast_wr hwr]
    omega
  rw [heldWord, written_data]
  simp only [written, hpast]
  rw [if_pos (by omega), Nat.mul_add_mod, Nat.mod_eq_of_lt hk, Nat.mul_add_div (by decide), Nat.div_eq_of_lt hk,
    Nat.add_zero]

theorem heldQuad_written_old (hinv : fifoInv f = true) {j : Nat} (hj : j < f.occ) :
    heldQuad (written f buf count) j = heldQuad f j := by
  have hword : ∀ k < 4, heldWord (written f buf count) (4 * j + k) = heldWord f (4 * j + k) :=
    fun k hk => heldWord_written_old hinv (by omega)
  rw [heldQuad, hword 3 (by decide), hword 2 (by decide), hword 1 (by decide), ← Nat.add_zero (4 * j),
    hword 0 (by decide)]
  rfl

theorem heldQuad_written_new (hinv : fifoInv f = true) {j : Nat} (hj : j < min count (16 - f.occ)) :
    heldQuad (written f buf count) (f.occ + j) = buf.getD j 0 := by
  have hword := fun k => heldWord_written_new (buf := buf) (k := k) hinv hj
  rw [heldQuad, hword 3 (by decide), hword 2 (by decide), hword 1 (by decide), ← Nat.add_zero (4 * (f.occ + j)),
    hword 0 (by decide), quadWord_append]

/-- A write appends what it accepts (40_packet_fifo.md R78 (b)). -/
theorem held_written (hinv : fifoInv f = true) (hb : count ≤ buf.length) :
    held (written f buf count) = held f ++ buf.take (min count (16 - f.occ)) := by
  have hocc : (written f buf count).occ = f.occ + min count (16 - f.occ) := rfl
  have hold : ∀ j ∈ List.range f.occ, heldQuad (written f buf count) j = heldQuad f j :=
    fun j hj => heldQuad_written_old hinv (List.mem_range.1 hj)
  rw [held, hocc, List.range_add, List.map_append, List.map_congr_left hold, List.map_map, held]
  congr 1
  apply List.ext_getElem
  · simp only [List.length_map, List.length_range, List.length_take]; omega
  · intro j h1 h2
    have hj : j < min count (16 - f.occ) := by simpa using h1
    have hlen : j < buf.length := by omega
    simp [heldQuad_written_new hinv hj, hlen]

/-- A write into an empty FIFO that it does not overfill leaves what was written. -/
theorem held_written_empty (hinv : fifoInv f = true) (hocc : f.occ = 0) (hlen : buf.length ≤ 16) :
    held (written f buf buf.length) = buf := by
  rw [held_written hinv le_rfl, hocc, Nat.min_eq_left hlen, List.take_length, held, hocc]
  rfl

end

/-- Entries taken from the front: what is then held are the ones from there on (40_packet_fifo.md R78 (c)). -/
theorem held_dropped {f g : PacketFifo} {k : Nat} (hdata : g.data = f.data) (hrd : g.rd = f.rd + BitVec.ofNat 6 (4 * k))
    (hocc : g.occ = f.occ - k) : held g = (held f).drop k := by
  have hword := fun i => heldWord_congr_add (4 * k) i hdata hrd
  have hquad : ∀ j, heldQuad g j = heldQuad f (k + j) := by
    intro j
    simp only [heldQuad, hword, Nat.mul_add, Nat.add_assoc]
  apply List.ext_getElem
  · simp [hocc]
  · intro j h1 h2
    simp [held, hquad]

/-! A segment into the Packet FIFO (42_transfer.md R96 to R98). -/

theorem byteLen_eq (n : Nat) : byteLen n = BitVec.ofNat 32 (16 * n) := by
  apply BitVec.eq_of_toNat_eq
  simp only [byteLen, BitVec.toNat_shiftLeft, BitVec.toNat_ofNat, Nat.shiftLeft_eq]
  omega

theorem quadAt_eq (s : State) (a : Nat) :
    quadAt s a = quadOfBytes ((List.range 16).map fun i => s.mem.read (a + i)) := by
  rw [quadOfBytes, leNat_map_range, quadAt]

/-- The quadwords of bytes given by index: each is made of its sixteen. -/
theorem quadsOfBytes_map_range (n : Nat) : ∀ g : Nat → Byte,
    quadsOfBytes n ((List.range (16 * n)).map g) =
      (List.range n).map fun j => quadOfBytes ((List.range 16).map fun i => g (16 * j + i)) := by
  induction n with
  | zero => intro g; rfl
  | succ n ih =>
    intro g
    have hsplit : (List.range (16 * (n + 1))).map g =
        (List.range 16).map g ++ (List.range (16 * n)).map fun i => g (16 + i) := by
      rw [Nat.mul_succ, Nat.add_comm, List.range_add, List.map_append, List.map_map]
      rfl
    have hlen : ((List.range 16).map g).length = 16 := by simp
    have hrange : List.range (n + 1) = 0 :: (List.range n).map Nat.succ := List.range_succ_eq_map
    rw [quadsOfBytes, hsplit, List.take_left' hlen, List.drop_left' hlen, ih, hrange, List.map_cons, List.map_map]
    simp only [Function.comp_def, Nat.mul_succ, Nat.mul_zero, Nat.add_comm, Nat.add_left_comm, Nat.add_zero]

/-- The quadwords of a run are those at its addresses (20_memory.md R45, R48). -/
theorem quadsOfBytes_runBytes (s : State) (a : Addr) (n : Nat) :
    quadsOfBytes n (s.runBytes a n) = (List.range n).map fun j => quadAt s (a.toNat + 16 * j) := by
  simp only [State.runBytes, quadsOfBytes_map_range, quadAt_eq, Nat.add_assoc]

theorem State.run_mapped {s : State} {a : Addr} {n : Nat} (h : s.runMapped a n = true) :
    s.run a n = .ok (s.runBytes a n) := if_pos h

/-- A run that resolves and is not empty starts mapped (20_memory.md R48). -/
theorem State.mapped_of_runMapped {s : State} {a : Addr} {n : Nat} (hn : n ≠ 0) (h : s.runMapped a n = true) :
    s.mapped a = true := by
  simp only [State.runMapped, Bool.and_eq_true, List.all_eq_true, List.mem_range] at h
  exact h.2 0 (by omega)

/-- The part of a segment offered is not empty (42_transfer.md R99). -/
theorem chunk_pos (cfg : Config) {q : Nat} (hq : 1 ≤ q) : 1 ≤ chunk cfg q := by
  unfold chunk
  split
  · split <;> omega
  · exact hq

theorem charge_variantAcc (s : State) (n : Nat) : s.charge s.variantAcc n = { s with eng := charged s n } := by
  rw [State.variantAcc, charged, routed_eq]
  cases s.routed <;> rfl

theorem noteStallMode_eq (s : State) : noteStallMode s = { s with diag := stallModeNoted s } := by
  have hmode : (s.stallOn && !s.chainMode) = (stallOn s && s.ch.chcr.mod != 1) := rfl
  rw [noteStallMode, stallModeNoted, hmode]
  split <;> rfl

theorem afterSink_intoFifo {s : State} {src : Addr} {n : Nat} (hemu : s.fifoEmu = true) (h0 : sunk s n ≠ 0) :
    afterSink s src n =
      { s with
        fifo := written s.fifo ((List.range (sunk s n)).map fun j => quadAt s (src.toNat + 16 * j)) (sunk s n)
        eng := charged s (s.cfg.cycPerQw * sunk s n) } := by
  rw [afterSink, if_pos hemu, if_neg h0]

/-- The sink into the Packet FIFO is its closed form (42_transfer.md R96, R97). -/
theorem sink_intoFifo {s : State} {src : Addr} {n : Nat} (hemu : s.fifoEmu = true) (hr : sinkReads s src n = true) :
    sink src n s.variantAcc s = .ok (afterSink s src n, sunk s n) := by
  have hsunk : min n (Config.capacity - s.fifo.occ) = sunk s n := by rw [sunk, if_pos hemu]; rfl
  have hread : s.run src (sunk s n) = .ok (s.runBytes src (sunk s n)) := by
    rw [sinkReads, if_pos hemu, runResolves_eq] at hr
    exact State.run_mapped hr
  obtain rfl | hn := Nat.eq_zero_or_pos n
  · simp [sink, afterSink, sunk, hemu]
  have hfit : sunk s n ≤ 16 - s.fifo.occ := hsunk ▸ Nat.min_le_right _ _
  rw [sink, if_neg hn.ne', if_pos hemu, sinkFifo, hsunk, afterSink, if_pos hemu]
  by_cases h0 : sunk s n = 0
  · simp [h0]
  · have hwrite : fifoWrite s.fifo ((List.range (sunk s n)).map fun j => quadAt s (src.toNat + 16 * j)) (sunk s n) =
        (written s.fifo ((List.range (sunk s n)).map fun j => quadAt s (src.toNat + 16 * j)) (sunk s n), sunk s n) := by
      rw [fifoWrite_eq_written _ _ _ (by simp), Nat.min_eq_left hfit]
    have hcharge : ∀ f k, (s.setFifo f).charge s.variantAcc k = { s with fifo := f, eng := charged s k } :=
      fun f k => charge_variantAcc (s.setFifo f) k
    simp only [h0, hread, hwrite, hcharge, quadsOfBytes_runBytes, if_false]

/-- A segment moved into the Packet FIFO is its closed form (42_transfer.md R98, R101). -/
theorem segmentTransfer_intoFifo {s : State} (hemu : s.fifoEmu = true) (hm : s.mapped s.ch.madr = true)
    (hr : segmentReads s = true) : segmentTransfer s.variantAcc s = .ok (segmentMoved s) := by
  have hreads : sinkReads s s.ch.madr (chunk s.cfg s.ch.qwc.toNat) = true := by simpa [segmentReads, hm] using hr
  -- the stall mode noted touches nothing that the sink asks
  have hsink := sink_intoFifo (s := { s with diag := stallModeNoted s }) hemu hreads
  have hch := sink_ch hsink
  have hm' : State.mapped { s with diag := stallModeNoted s } s.ch.madr = true := hm
  have hacc : s.variantAcc = State.variantAcc { s with diag := stallModeNoted s } := rfl
  rw [segmentTransfer, noteStallMode_eq, moveSegment, hm', segmentMoved, if_pos hm]
  dsimp only at hsink hch ⊢
  rw [hacc, hsink]
  simp only [hch, byteLen_eq]
  rfl

/-- What a segment moved into the Packet FIFO leaves where the FIFO takes something. -/
theorem segmentMoved_intoFifo {s : State} {m : Nat} (hemu : s.fifoEmu = true) (hm : s.mapped s.ch.madr = true)
    (hsunk : sunk s (chunk s.cfg s.ch.qwc.toNat) = m) (hpos : m ≠ 0) :
    segmentMoved s = { s with
      ch := { s.ch with madr := s.ch.madr + BitVec.ofNat 32 (16 * m), qwc := s.ch.qwc - BitVec.ofNat 16 m }
      eng := charged s (s.cfg.cycPerQw * m)
      fifo := written s.fifo ((List.range m).map fun j => quadAt s (s.ch.madr.toNat + 16 * j)) m
      diag := stallModeNoted s } := by
  have hsink := afterSink_intoFifo (s := { s with diag := stallModeNoted s }) (src := s.ch.madr) hemu
    (hsunk.trans_ne hpos)
  rw [← hsunk]
  simp only [segmentMoved, hm, hsink, if_true]
  rfl

/-! The entry. -/

/-- The post-pass is its closed form (44_path_coordinator.md R116). -/
theorem postPass_eq (s : State) : postPass s = passed s := by
  rw [passed_eq, coordinated_eq]
  rfl

end Sys2Proof.Machine

namespace Sys2Proof.Claims

open Sys2Proof.Machine

/-- Settles O3: what `FifoInit` writes does not depend on what it finds in those fields. -/
theorem fifoInitEffect : Obligations.FifoInitEffect := by
  intro s
  refine ⟨rfl, fun t h => ?_⟩
  cases h
  rfl

/-- Settles O4: a buffer of at least the count is no breach, and the write is its closed form. -/
theorem fifoWriteEffect : Obligations.FifoWriteEffect := by
  intro buf count s hb
  have hexec : exec (.fifoWrite buf count) s =
    .next ((s.setFifo (fifoWrite s.fifo buf count.toNat).1).returning (.count (fifoWrite s.fifo buf count.toNat).2)) :=
    if_neg (Nat.not_lt.2 hb)
  rw [hexec, fifoWrite_eq_written _ _ _ hb]
  rfl

/-- Settles O5: the length of the buffer is asked first. -/
theorem fifoWriteShortBuffer : Obligations.FifoWriteShortBuffer := fun _ _ _ h => if_pos h

/-- Settles O6: the read is its closed form, and what it returns is put in `ret`. -/
theorem fifoReadEffect : Obligations.FifoReadEffect :=
  fun b _ hocc => congrArg _ (fifoRead_eq_afterRead b hocc)

/-- A read that asks for no retry, by what it outputs and schedules. -/
theorem exec_fifoRead_silent {b : Bool} {s : State} (h : b = true ∨ s.fifo.occ = 0 ∨ s.gif.canAccept = true) :
    ∃ t new, exec (.fifoRead b) s = .next t ∧ t.out = s.out ++ new ∧ new.filter isRequest = [] ∧
      t.sched = s.sched := by
  obtain ⟨⟨⟨new, hout, hcalls⟩, -⟩, hsched⟩ := fifoRead_silent h
  refine ⟨_, new, exec_fifoRead b s, hout, ?_, hsched⟩
  rw [List.filter_eq_nil_iff]
  intro o ho hreq
  have hcall := hcalls o ho
  cases o <;> simp [isRequest, Output.isCall] at hreq hcall

/-- Settles O7: a refused read asks for the retry, and every other read is silent. -/
theorem fifoReadRetry : Obligations.FifoReadRetry := by
  intro s
  refine ⟨?refused, ?empty, ?accepted, exec_fifoRead_silent (.inl rfl)⟩
  case refused =>
    intro hocc hgif
    refine ⟨_, exec_fifoRead false s, ?_⟩
    rw [fifoRead_refused (by simp [readIdle, hgif]) hocc]
    exact ⟨rfl, rfl⟩
  case empty =>
    intro hocc b
    refine ⟨_, exec_fifoRead b s, ?_⟩
    rw [fifoRead_idle (by simp [readIdle, hocc]) (.inr hocc)]
    exact ⟨rfl, rfl⟩
  case accepted => exact fun hgif b => exec_fifoRead_silent (.inr (.inr hgif))

/-- A read that offers hands the consumer the quadwords held, oldest first. -/
theorem afterRead_out (b : Bool) {s : State} (hidle : readIdle s = false) :
    (afterRead b s).out = s.out ++ [.transfer .dma ((held s.fifo).flatMap bytesOfQuad) (16 * s.fifo.occ)] := by
  simp only [afterRead, hidle, held, ← heldBytes_eq]
  rfl

/-- A read that offers leaves the quadwords held from the first not taken on. -/
theorem held_afterRead (b : Bool) {s : State} (hidle : readIdle s = false) :
    held (afterRead b s).fifo = (held s.fifo).drop (taken s s.fifo.occ) := by
  simp only [afterRead, hidle]
  exact held_dropped rfl rfl rfl

/-- A read whose consumer takes all leaves the FIFO empty and returns 0. -/
theorem afterRead_all_taken (b : Bool) {s : State} (hidle : readIdle s = false) (h : taken s s.fifo.occ = s.fifo.occ) :
    (afterRead b s).fifo.occ = 0 ∧ (afterRead b s).fifo.status = .empty ∧ (afterRead b s).ret = .count 0 := by
  simp [afterRead, hidle, h, status]

/-- Settles O8: the closed forms of the write and the read, by the quadwords held. -/
theorem fifoKeepsOrder : Obligations.FifoKeepsOrder := by
  refine ⟨?write, ?read⟩
  case write => exact fun buf count s hinv hb => ⟨_, fifoWriteEffect buf count s hb, held_written hinv hb⟩
  case read =>
    intro b s hinv hidle
    obtain ⟨hocc, -⟩ := (fifoInv_iff _).1 hinv
    exact ⟨_, fifoReadEffect b s hocc, held_afterRead b hidle, afterRead_out b hidle⟩

/-- Settles O9: after the write the FIFO holds the buffer, and the read hands over what it holds. -/
theorem fifoHandsOverInOrder : Obligations.FifoHandsOverInOrder := by
  intro buf b s hinv hocc hgif hpos hlen htake
  have hcount : (BitVec.ofNat 16 buf.length).toNat = buf.length := by
    rw [BitVec.toNat_ofNat]
    omega
  have hwrite := fifoWriteEffect buf (BitVec.ofNat 16 buf.length) s (by omega)
  rw [hcount, hocc, Nat.min_eq_left hlen] at hwrite
  generalize ht : ({ s with fifo := written s.fifo buf buf.length, ret := .count buf.length } : State) = t at hwrite
  have hocc_t : t.fifo.occ = buf.length := by simp [← ht, written, hocc, hlen]
  have hheld : held t.fifo = buf := by rw [← ht]; exact held_written_empty hinv hocc hlen
  have hgif_t : t.gif = s.gif := by rw [← ht]
  have hidle : readIdle t = false := by
    simp [readIdle, hocc_t, hgif_t, hgif, List.ne_nil_of_length_pos hpos]
  have htaken : taken t t.fifo.occ = t.fifo.occ := by
    have hans : t.nextAnswer = s.nextAnswer := by rw [← ht]; rfl
    rw [taken, hans, hocc_t]
    omega
  have hout := afterRead_out b hidle
  rw [hheld, hocc_t] at hout
  refine ⟨t, _, hwrite, by rw [← ht], fifoReadEffect b t (by omega), ?_, afterRead_all_taken b hidle htaken⟩
  rw [hout, ← ht]

/-- An entry that moves a segment: the transfer, the post-pass, and the reschedule for its work. -/
theorem exec_handlerEntry_segment {s p u : State} (h : Enters s p) (hocc : p.fifo.occ = 0) (hq : p.ch.qwc ≠ 0)
    (hd : directSource p = true) {n : Nat} (hu : segmentTransfer p.variantAcc p = .ok u) (he : u.eng = charged p n) :
    exec .handlerEntry s = .next (rescheduled (delay p n) (passed u)) := by
  have hresched : (passed u).resched p.variantAcc (p.acc p.variantAcc) =
      .reschedule (delay p n) (channel (passed u)) := by
    have heng : (passed u).eng = charged p n := by rw [← postPass_eq, postPass, pathCheck_eng, he]
    have hcfg : (passed u).cfg = p.cfg := by
      rw [← postPass_eq]
      exact (BlockFrame.pathCheck .post u).cfg.trans (BlockFrame.segmentTransfer _ hu).cfg
    have hwork : (passed u).acc p.variantAcc - p.acc p.variantAcc = n := by
      unfold State.acc State.variantAcc
      rw [heng, charged, routed_eq]
      cases p.routed <;> simp
    rw [State.resched, hwork, hcfg, delay]
    obtain rfl | hn := Nat.eq_zero_or_pos n
    · rfl
    · rw [if_neg hn.ne', if_pos hn]
      rfl
  rw [exec_handlerEntry_go h.1 (pathCheck_of_enters h), variantEntry_segment hocc hq ((directSource_iff p).1 hd), hu]
  simp only [Except.map, afterTransfer, postPass_eq, hresched]
  rfl

/-- Settles O28: the entry is a segment transfer, whose sink takes what fits in the empty FIFO. -/
theorem fifoTransferEntry : Obligations.FifoTransferEntry := by
  intro s p m hs hocc hq hd hemu hmin hr
  have hsunk : sunk p (chunk p.cfg p.ch.qwc.toNat) = m := by simp [sunk, hemu, hocc, hmin]
  have hpos : m ≠ 0 := by
    have hqwc : 1 ≤ p.ch.qwc.toNat := by bv_omega
    have hchunk := chunk_pos p.cfg hqwc
    omega
  have hm : p.mapped p.ch.madr = true := State.mapped_of_runMapped hpos hr
  have hreads : segmentReads p = true := by simpa [segmentReads, hm, sinkReads, hemu, hsunk] using hr
  have hmoved := segmentMoved_intoFifo hemu hm hsunk hpos
  rw [← hmoved]
  exact exec_handlerEntry_segment hs hocc hq hd (segmentTransfer_intoFifo hemu hm hreads) (by rw [hmoved])

end Sys2Proof.Claims

/-! PROOFS. The descriptor tags (41_chain_tags.md R79 to R95): what a tag loads and where its step goes, in the closed
form of the statements; what the common fetch makes of it where the tag stalls and where it does not; the fetch at
TADR. -/

namespace Sys2Proof.Claims

open Sys2Proof.Machine

/-! The load and the step of each type (41_chain_tags.md R79, R81 to R89). -/

theorem byteLen_toNat (q : BitVec 16) : byteLen q.toNat = len q := by
  rw [byteLen, len, BitVec.ofNat_toNat]

/-- The state after a tag's load and its type's step, which go to the given MADR and TADR: QWC and CHCR.TAG come from
the tag, and its cost is charged. -/
def stepped (s : State) (t : TagType) (f : TagFields) (madr tadr : Addr) : State :=
  { s with
    ch := { s.ch with madr := madr, tadr := tadr, qwc := f.qwc, chcr.tag := tagHi16 s.cfg.tagIds t f }
    eng := charged s s.cfg.cycPerTag }

theorem stepped_segLen (s : State) (t : TagType) (f : TagFields) (madr tadr : Addr) :
    (stepped s t f madr tadr).segLen = len f.qwc := byteLen_toNat f.qwc

/-- The load alone leaves MADR at the tag's address and TADR at the tag. -/
theorem loadTag_eq (s : State) (t : TagType) (f : TagFields) :
    loadTag s.variantAcc t f s = stepped s t f f.addr s.ch.tadr := charge_variantAcc (s.setCh _) s.cfg.cycPerTag

/-- The reference tags' data are at the tag's address, and the next tag follows the tag; REFE alone is terminal. -/
theorem tagStep_reference {t : TagType} (ht : clampsMadr t = false) (s : State) (f : TagFields) :
    tagStep t (stepped s t f f.addr s.ch.tadr) = (stepped s t f f.addr (s.ch.tadr + 16), t == .refe) := by
  cases t with
  | refe | ref | refs => rfl
  | cnt | next | call | ret | endTag => cases ht

theorem stepCnt_stepped (s : State) (f : TagFields) :
    stepCnt (stepped s .cnt f f.addr s.ch.tadr) =
      (stepped s .cnt f (s.ch.tadr + 16) (s.ch.tadr + 16 + len f.qwc), false) := by
  rw [stepCnt, stepped_segLen]
  rfl

/-- CALL, by the tag's address and the stack (41_chain_tags.md R87). -/
theorem stepCall_stepped (s : State) (f : TagFields) :
    stepCall (stepped s .call f f.addr s.ch.tadr) =
      if f.addr = 0 then
        (stepped { s with diag := { s.diag with callAddrZero := true } } .call f (s.ch.tadr + 16)
          (s.ch.tadr + 16 + len f.qwc), false)
      else if s.ch.chcr.asp = 0 then
        (stepped { s with ch.asr0 := s.ch.tadr + 16 + len f.qwc, ch.chcr.asp := 1 } .call f (s.ch.tadr + 16) f.addr,
          false)
      else if s.ch.chcr.asp = 1 then
        (stepped { s with ch.asr1 := s.ch.tadr + 16 + len f.qwc, ch.chcr.asp := 2 } .call f (s.ch.tadr + 16) f.addr,
          false)
      else
        (stepped { s with diag := { s.diag with callStackOverflow := true } } .call f (s.ch.tadr + 16) s.ch.tadr,
          true) := by
  have hreturn : (stepped s .call f f.addr s.ch.tadr).returnAddr = s.ch.tadr + 16 + len f.qwc := by
    rw [State.returnAddr, stepped_segLen]
    rfl
  rw [stepCall, hreturn]
  rfl

/-- RET, by the stack (41_chain_tags.md R88). -/
theorem stepRet_stepped (s : State) (f : TagFields) :
    stepRet (stepped s .ret f f.addr s.ch.tadr) =
      if s.ch.chcr.asp = 2 then
        (stepped { s with ch.asr1 := 0, ch.chcr.asp := 1 } .ret f (s.ch.tadr + 16) s.ch.asr1, false)
      else if s.ch.chcr.asp = 1 then
        (stepped { s with ch.asr0 := 0, ch.chcr.asp := 0 } .ret f (s.ch.tadr + 16) s.ch.asr0, false)
      else (stepped s .ret f (s.ch.tadr + 16) s.ch.tadr, true) := rfl

/-- No type's step raises a line, changes the configuration, or writes CHCR.TAG. -/
theorem tagStep_keeps (t : TagType) (s : State) :
    (tagStep t s).1.out = s.out ∧ (tagStep t s).1.cfg = s.cfg ∧ (tagStep t s).1.ch.chcr.tag = s.ch.chcr.tag := by
  cases t with
  | call => simp only [tagStep, stepCall]; split_ifs <;> exact ⟨rfl, rfl, rfl⟩
  | ret => simp only [tagStep, stepRet]; split_ifs <;> exact ⟨rfl, rfl, rfl⟩
  | refe | cnt | next | ref | refs | endTag => exact ⟨rfl, rfl, rfl⟩

/-! The common fetch around the step (41_chain_tags.md R90 to R92; 43_mfifo.md R109). -/

/-- A tag with an aligned address is what the common fetch makes of its step. -/
theorem exec_tag {t : TagType} {f : TagFields} {s : State} (hf : aligned f.addr = true) :
    exec (Instr.ofTag t f) s =
      fetchOutcome (.ok (settleTag s.variantAcc t f (tagStep t (stepped s t f f.addr s.ch.tadr)))) := by
  rw [exec_ofTag, walkTag_eq, walkWith, if_pos hf, loadTag_eq]

/-- The verdict of a tag, and its clamp. -/
theorem verdictTag_stepped (t : TagType) (f : TagFields) (s : State) (madr tadr : Addr) (last : Bool) :
    verdictTag t (stepped s t f madr tadr, last) =
      { stepped s t f (if clampsMadr t then clamped s madr else madr) (clamped s tadr) with
        eng := { charged s s.cfg.cycPerTag with done := last } } := by
  have hr : (stepped s t f madr tadr).routed = routed s := rfl
  simp only [verdictTag, hr, clamped, mfifoClamp]
  cases routed s <;> cases clampsMadr t <;> rfl

/-- The common fetch of a tag that does not stall: both addresses are clamped where they are the ring's. -/
theorem settleTag_stepped {t : TagType} {f : TagFields} {s : State} {madr tadr : Addr} {last : Bool} (a : Acc)
    (h : (verdictTag t (stepped s t f madr tadr, last)).stallDue t = false) :
    fetchOutcome (.ok (settleTag a t f (stepped s t f madr tadr, last))) =
      .next (fetched s t f (if clampsMadr t then clamped s madr else madr) tadr last) := by
  have hr : (stepped s t f madr tadr).routed = routed s := rfl
  rw [settleTag_pass a t f _ h]
  simp only [hr, fetched, clamped]
  cases routed s <;> cases clampsMadr t <;> rfl

/-- A tag outside STALL_IDS, by where its step goes: a tag whose data follow it has MADR clamped with TADR. -/
theorem exec_unstallable {t : TagType} {f : TagFields} {s b : State} {madr tadr : Addr} {last : Bool}
    (hf : aligned f.addr = true) (hstep : tagStep t (stepped s t f f.addr s.ch.tadr) = (stepped b t f madr tadr, last))
    (ht : t ∉ b.cfg.stallIds) :
    exec (Instr.ofTag t f) s = .next (fetched b t f (if clampsMadr t then clamped b madr else madr) tadr last) := by
  rw [exec_tag hf, hstep, settleTag_stepped _ (verdictTag_stallDue t _ ht)]

/-- A reference tag's verdict and clamp leave MADR at the tag's address, where the stall check finds it. -/
theorem stallDue_verdictTag {t : TagType} (ht : clampsMadr t = false) (s : State) (f : TagFields) (tadr : Addr)
    (last : Bool) : (verdictTag t (stepped s t f f.addr tadr, last)).stallDue t = stalls s t f := by
  rw [verdictTag_stepped, ht]
  simp only [State.stallDue, State.segLen, stepped, byteLen_toNat]
  rfl

/-- What a stall leaves, with the accumulator of the variant in use (41_chain_tags.md R92). -/
theorem stall_eq (s : State) : stall s.variantAcc s =
    { s with
      ch := { s.ch with tadr := clamped s (s.ch.tadr - 16), qwc := 0 }
      eng := { s.eng with done := false, prev := accumulated s.eng s }
      out := s.out ++ [.line .stall] } := by
  rw [stall, State.variantAcc, clamped, accumulated, routed_eq]
  cases s.routed <;> rfl

/-- The common fetch of a reference tag that stalls. -/
theorem settleTag_stalls {t : TagType} {f : TagFields} {s : State} {last : Bool} (ht : clampsMadr t = false)
    (h : stalls s t f = true) :
    fetchOutcome (.ok (settleTag s.variantAcc t f (stepped s t f f.addr (s.ch.tadr + 16), last))) =
      .next (stalledAt s t f) := by
  have hstall := stall_eq (verdictTag t (stepped s t f f.addr (s.ch.tadr + 16), last))
  rw [verdictTag_stepped, ht] at hstall
  rw [settleTag, if_pos (by rw [stallDue_verdictTag ht, h]), verdictTag_stepped, ht]
  exact congrArg (fun u : State => Host.Outcome.next ((u.setStalled true).returning (.fetch .stalled))) hstall

/-- A reference tag, whether it stalls or not. -/
theorem exec_reference {t : TagType} {f : TagFields} {s : State} (ht : clampsMadr t = false)
    (hf : aligned f.addr = true) :
    exec (Instr.ofTag t f) s = .next
      (if stalls s t f then stalledAt s t f else fetched s t f f.addr (s.ch.tadr + 16) (t == .refe)) := by
  rw [exec_tag hf, tagStep_reference ht]
  split
  case isTrue h => exact settleTag_stalls ht h
  case isFalse h =>
    rw [settleTag_stepped _ (by simpa [stallDue_verdictTag ht] using h), ht]
    rfl

/-! The eight types (41_chain_tags.md R82 to R89). -/

/-- Settles O10: a reference tag that does not stall has its data at the tag's address, and REFE is the terminal one. -/
theorem refeEffect : Obligations.RefeEffect := by
  intro f s hf hs
  have h := exec_reference (t := .refe) (s := s) rfl hf
  rwa [hs] at h

/-- Settles O11: CNT's step goes to the quadword after the tag, and past the data. -/
theorem cntEffect : Obligations.CntEffect :=
  fun f s hf ht => exec_unstallable (t := .cnt) hf (stepCnt_stepped s f) ht

/-- Settles O12: NEXT's step goes to the quadword after the tag, and to the tag's address. -/
theorem nextEffect : Obligations.NextEffect :=
  fun _ s hf ht => exec_unstallable (t := .next) (s := s) (b := s) (madr := s.ch.tadr + 16) hf rfl ht

/-- Settles O13: a reference tag that does not stall, and REF is not terminal. -/
theorem refEffect : Obligations.RefEffect := by
  intro f s hf hs
  have h := exec_reference (t := .ref) (s := s) rfl hf
  rwa [hs] at h

/-- Settles O14: a reference tag, in both branches of the stall check. -/
theorem refsEffect : Obligations.RefsEffect := fun _ _ hf => exec_reference (t := .refs) rfl hf

/-- Settles O15: in each case of CALL's step the fetch is that of a state whose stack or diagnostic set the step has
written. -/
theorem callEffect : Obligations.CallEffect := by
  intro f s hf ht
  have hstep := stepCall_stepped s f
  split_ifs at hstep ⊢
  all_goals exact (exec_unstallable (t := .call) hf hstep ht :)

/-- Settles O16: in each case of RET's step the fetch is that of a state whose stack the step has popped. -/
theorem retEffect : Obligations.RetEffect := by
  intro f s hf ht
  have hstep := stepRet_stepped s f
  split_ifs at hstep ⊢
  all_goals exact (exec_unstallable (t := .ret) hf hstep ht :)

/-- Settles O17: END's step goes to the quadword after the tag, and leaves TADR. -/
theorem endEffect : Obligations.EndEffect :=
  fun _ s hf ht => exec_unstallable (t := .endTag) (s := s) (b := s) (madr := s.ch.tadr + 16) hf rfl ht

/-! The stall (41_chain_tags.md R92 to R94). -/

/-- A tag that does not stall returns Ok and raises no line, whatever its type. -/
theorem exec_passes {t : TagType} {f : TagFields} {s : State} (hf : aligned f.addr = true)
    (h : (verdictTag t (tagStep t (stepped s t f f.addr s.ch.tadr))).stallDue t = false) :
    ∃ u, exec (Instr.ofTag t f) s = .next u ∧ u.ret = .fetch .ok ∧ u.out = s.out := by
  rw [exec_tag hf, settleTag_pass _ _ _ _ h]
  exact ⟨_, rfl, rfl, (tagStep_keeps t _).1⟩

/-- The types R93 lets STALL_IDS hold are those whose data do not follow the tag. -/
theorem clampsMadr_eq_false_iff (t : TagType) : clampsMadr t = false ↔ t = .ref ∨ t = .refs ∨ t = .refe := by
  cases t <;> decide

/-- Settles O18: for a reference tag the check after the clamp is the condition on the tag's address, and no other
type is in STALL_IDS. -/
theorem stallCheck : Obligations.StallCheck := by
  intro t f s hf hids
  by_cases ht : clampsMadr t = false
  · -- a reference tag
    cases hs : stalls s t f with
    | true => exact ⟨stalledAt s t f, by rw [exec_reference ht hf, hs]; rfl, fun _ => rfl, nofun⟩
    | false =>
      obtain ⟨u, hu, hpass⟩ := exec_passes hf (by rw [tagStep_reference ht, stallDue_verdictTag ht, hs])
      exact ⟨u, hu, nofun, fun _ => hpass⟩
  · -- a tag of another type is not in STALL_IDS
    have hout : t ∉ s.cfg.stallIds := fun hmem => ht ((clampsMadr_eq_false_iff t).2 (hids t hmem))
    obtain ⟨-, hcfg, -⟩ := tagStep_keeps t (stepped s t f f.addr s.ch.tadr)
    obtain ⟨u, hu, hpass⟩ := exec_passes (s := s) hf (verdictTag_stallDue t _ (hcfg ▸ hout))
    exact ⟨u, hu, fun hs => absurd hs (by simp [stalls, hout]), fun _ => hpass⟩

theorem add_16_modEq {w : Nat} (hw : w ∣ 2 ^ 32) (a : Addr) : (a + 16).toNat ≡ a.toNat + 16 [MOD w] := by
  rw [BitVec.toNat_add]
  exact (Nat.mod_modEq _ _).of_dvd hw

/-- On a well-formed ring, renormalizing after a quadword forward and again after a quadword back is no move, the ring's
top included (43_mfifo.md R103, R109). -/
theorem renorm_forward_back {s : State} {a : Addr} (hring : s.ringWellFormed = true) (hin : inRing s a = true)
    (ha : aligned a = true) : renorm s (renorm s (a + 16) - 16) = a := by
  obtain ⟨j, hj, hmask, hbase, htop⟩ := s.ring_numbers hring
  have hw : 16 * 2 ^ j ∣ 2 ^ 32 := by
    rw [show 16 * 2 ^ j = 2 ^ (4 + j) by rw [Nat.pow_add]]
    exact pow_dvd_pow 2 (by omega)
  have h16 : ∀ x : Addr, aligned x = true → x.toNat % (16 * 2 ^ j) % 16 = 0 := fun x hx => by
    rw [Nat.mod_mul_right_mod]
    exact (aligned_iff x).1 hx
  have hfwd : (s.renorm (a + 16)).toNat = s.dmac.rbor.toNat + (a + 16).toNat % (16 * 2 ^ j) :=
    s.renorm_offset (a + 16) j hmask htop _ rfl (h16 _ (aligned_add ha aligned_16))
  have hback : (s.renorm (a + 16) - 16).toNat ≡ a.toNat [MOD 16 * 2 ^ j] := by
    refine Nat.ModEq.add_right_cancel' 16 ?_
    calc (s.renorm (a + 16) - 16).toNat + 16
        ≡ (s.renorm (a + 16) - 16 + 16).toNat [MOD 16 * 2 ^ j] := (add_16_modEq hw _).symm
      _ = s.dmac.rbor.toNat + (a + 16).toNat % (16 * 2 ^ j) := by rw [BitVec.sub_add_cancel, hfwd]
      _ ≡ 0 + (a + 16).toNat [MOD 16 * 2 ^ j] :=
        Nat.ModEq.add (Nat.modEq_zero_iff_dvd.2 (Nat.dvd_of_mod_eq_zero hbase)) (Nat.mod_modEq _ _)
      _ ≡ a.toNat + 16 [MOD 16 * 2 ^ j] := by rw [Nat.zero_add]; exact add_16_modEq hw a
  have hoffset : a.toNat = s.dmac.rbor.toNat + a.toNat % (16 * 2 ^ j) := by
    simp only [inRing, Bool.and_eq_true, decide_eq_true_eq, BitVec.toNat_add, hmask] at hin
    obtain ⟨d, hd⟩ := Nat.dvd_of_mod_eq_zero hbase
    obtain ⟨x, hx⟩ := Nat.exists_eq_add_of_le hin.1
    have hpos : 0 < 2 ^ j := Nat.two_pow_pos j
    rw [hx, hd, Nat.mul_add_mod, Nat.mod_eq_of_lt (by omega)]
  apply BitVec.eq_of_toNat_eq
  rw [hoffset]
  exact s.renorm_offset _ j hmask htop _ hback (h16 a ha)

theorem clamped_forward_back {s : State} {a : Addr}
    (h : routed s = true → s.ringWellFormed = true ∧ inRing s a = true ∧ aligned a = true) :
    clamped s (clamped s (a + 16) - 16) = a := by
  unfold clamped
  cases hr : routed s with
  | true => obtain ⟨hring, hin, ha⟩ := h hr; exact renorm_forward_back hring hin ha
  | false => exact BitVec.add_sub_cancel a 16

theorem stalls_chainMode {s : State} {t : TagType} {f : TagFields} (h : stalls s t f = true) : s.ch.chcr.mod = 1 := by
  simp only [stalls, Bool.and_eq_true, beq_iff_eq] at h
  obtain ⟨⟨⟨-, hmod⟩, -⟩, -⟩ := h
  exact hmod

/-- Settles O19: the stall takes back the quadword that the step advanced TADR by, and QWC and done are what a wanted
tag asks. -/
theorem stallRewindsToTag : Obligations.StallRewindsToTag := by
  intro t f s ht hf hs hring
  have hexec := exec_reference (s := s) ((clampsMadr_eq_false_iff t).2 ht) hf
  rw [if_pos hs] at hexec
  exact ⟨_, hexec, clamped_forward_back hring, by simp [tagWanted, stalledAt, stalls_chainMode hs]⟩

/-! The tag that is read (41_chain_tags.md R79, R81). What the fetch reads is the same before `Available` and after
it. -/

theorem atFetch_mapped (s : State) : s.atFetch.mapped s.atFetch.ch.tadr = s.mapped s.ch.tadr := by
  unfold State.atFetch
  split <;> rfl

theorem atFetch_quad (s : State) : quadAt s.atFetch s.atFetch.ch.tadr.toNat = quadAt s s.ch.tadr.toNat := by
  unfold State.atFetch
  split <;> rfl

/-- A tag that has been read is in CHCR.TAG, stalled or not. -/
theorem walkTag_tag {a : Acc} {t : TagType} {f : TagFields} {s u : State} {r : FetchResult}
    (h : walkTag a t f s = .ok (u, r)) : u.ch.chcr.tag = tagHi16 s.cfg.tagIds t f := by
  rw [walkTag_eq, walkWith] at h
  split at h
  · obtain rfl : (settleTag a t f (tagStep t (loadTag a t f s))).1 = u := by injection h with h; rw [h]
    obtain ⟨-, -, htag⟩ := tagStep_keeps t (loadTag a t f s)
    rw [settleTag_chcr, htag, loadTag, State.charge_ch]
    rfl
  · cases h

/-- Bits 31:16 of an encoded tag are those the fetch copies (30_encoding.md R59). -/
theorem encodeTag_hi16 (m : TagIdMap) (t : TagType) (f : TagFields) :
    (encodeTag m t f).extractLsb' 16 16 = tagHi16 m t f := by
  rw [encodeTag, BitVec.extractLsb'_append_eq_of_le (Nat.le_refl 16)]
  exact BitVec.extractLsb'_append_eq_right

/-- A fetch that reads the tag at TADR leaves its bits 31:16 in CHCR.TAG. -/
theorem tagFetch_tag {a : Acc} {s u : State} {r : FetchResult} (hm : s.mapped s.ch.tadr = true)
    (h : tagFetch a s = .ok (u, r)) : u.ch.chcr.tag = (quadAt s s.ch.tadr.toNat).extractLsb' 16 16 := by
  have hquad : quadAt s s.ch.tadr.toNat = quadOfBytes (s.runBytes s.ch.tadr 1) := quadAt_eq s _
  rw [hquad]
  simp only [tagFetch, hm, State.run] at h
  cases hr : s.runMapped s.ch.tadr 1 with
  | false => simp [hr] at h
  | true =>
    simp only [hr, tagOfQuad, Bool.not_true, Bool.false_eq_true, if_false, if_true] at h
    cases ht : s.cfg.tagIds.typeOf (tagIdOf (quadOfBytes (s.runBytes s.ch.tadr 1))) with
    | none => simp [ht] at h
    | some t =>
      rw [ht] at h
      rw [walkTag_tag h, ← encodeTag_hi16, encodeTag_tagFieldsOf _ _ _ (s.cfg.tagIds.idOf_of_typeOf _ t ht)]

/-- Settles O21: the quadword at TADR is the encoding of the tag that was read, and that tag is in CHCR.TAG. -/
theorem fetchCopiesTag : Obligations.FetchCopiesTag := by
  intro s u hw hm ht h
  rw [walk_eq s hw, if_neg (by simpa [tagThere_eq] using ht)] at h
  obtain ⟨v, r, hfetch, rfl⟩ := fetchOutcome_next h
  rw [State.returning_ch, tagFetch_tag (by rwa [atFetch_mapped]) hfetch, atFetch_quad]

/-! The tag that is not there (41_chain_tags.md R95). -/

theorem tagFail_eq (s : State) : tagFail s = tagFailed s := by
  rw [tagFail, State.segLen, byteLen_toNat]
  rfl

theorem tagFetch_unmapped {s : State} (a : Acc) (h : s.mapped s.ch.tadr = false) :
    tagFetch a s = .ok (tagFailed s, .fail) := by
  simp [tagFetch, h, tagFail_eq]

theorem loopFuel_pos {cfg : Config} (h : cfg.loopFuel ≠ some 0) : 0 < loopFuel cfg := by
  unfold loopFuel
  cases hfuel : cfg.loopFuel with
  | none => exact Nat.two_pow_pos 98
  | some n => exact Nat.pos_of_ne_zero fun hn => h (hfuel.trans (congrArg some hn))

/-- With a tag due at an unmapped TADR the chain loop ends with its first fetch. -/
theorem chainLoop_unmapped {s : State} (a : Acc) {n : Nat} (hn : 0 < n) (hw : tagWanted s = true)
    (hm : s.mapped s.ch.tadr = false) : chainLoop a n s = .ok (tagFailed s, .fail) := by
  obtain ⟨n, rfl⟩ := Nat.exists_eq_succ_of_ne_zero hn.ne'
  rw [tagWanted_eq] at hw
  simp [chainLoop, hw, tagFetch_unmapped a hm]

/-- With a tag due at an unmapped TADR, which in MFIFO mode the ring has, either variant takes the recovery. -/
theorem variantEntry_unmapped {p : State} (hw : tagWanted p = true) (hm : p.mapped p.ch.tadr = false)
    (hocc : p.fifo.occ = 0) (hfuel : p.cfg.loopFuel ≠ some 0) (ht : tagThere p = true) :
    variantEntry p = .ok (tagFailed (atTag p), .abort .unmappedTag) := by
  have hnone : p.tagMissing = false := by simpa [tagThere_eq] using ht
  rw [atTag_eq p ht]
  cases hr : p.routed with
  | true =>
    have havail : (available p.ch.tadr p).2 ≠ 0 := by simpa [State.tagMissing, hr, available] using hnone
    have hfetch : tagFetch .mcyc (available p.ch.tadr p).1 = .ok (tagFailed (available p.ch.tadr p).1, .fail) :=
      tagFetch_unmapped .mcyc hm
    rw [tagWanted_eq] at hw
    simp [variantEntry, State.atFetch, hr, mfifoEntry, hocc, hw, havail, hfetch]
  | false =>
    have hdone : p.eng.done = false := by
      simp only [tagWanted, Bool.and_eq_true, Bool.not_eq_true'] at hw
      exact hw.2
    simp [variantEntry, State.atFetch, hr, directEntry, hocc, hdone,
      chainLoop_unmapped .cyc (loopFuel_pos hfuel) hw hm]

/-- Settles O22: the fetch and either variant of the entry come to R95's recovery, in the state the tag is
fetched in. -/
theorem unmappedTagAborts : Obligations.UnmappedTagAborts := by
  intro s
  refine ⟨fun hw hm ht => ?fetch, fun p hp hw hm hocc hfuel ht => ?entry⟩
  case fetch =>
    rw [walk_eq s hw, if_neg (by simpa [tagThere_eq] using ht), tagFetch_unmapped _ (by rwa [atFetch_mapped]),
      atTag_eq s ht]
    rfl
  case entry =>
    rw [exec_handlerEntry_go hp.1 (pathCheck_of_enters hp), variantEntry_unmapped hw hm hocc hfuel ht]
    rfl

end Sys2Proof.Claims

/-! PROOFS. An entry after the chain has ended (45_handler.md R129): with done true no tag is fetched, and of the
channel the transfers move MADR and QWC alone, the ring's end apart, which renormalizes TADR too
(43_mfifo.md R106). -/

namespace Sys2Proof.Machine

/-! The transfers. -/

/-- `t` may follow `s` by a transfer of data: of the channel MADR and QWC alone move, and done stays. -/
structure DataMoved (s t : State) : Prop where
  ch   : t.ch = { s.ch with madr := t.ch.madr, qwc := t.ch.qwc }
  done : t.eng.done = s.eng.done

namespace DataMoved

variable {s t u : State}

theorem of_ch (h : t.ch = s.ch) (hd : t.eng.done = s.eng.done) : DataMoved s t := ⟨by rw [h], hd⟩

theorem trans (h : DataMoved s t) (k : DataMoved t u) : DataMoved s u :=
  ⟨by rw [k.ch, h.ch], k.done.trans h.done⟩

theorem tadr (h : DataMoved s t) : t.ch.tadr = s.ch.tadr := by rw [h.ch]

/-- An advance of MADR and QWC. -/
theorem advanced (h : DataMoved s t) (a : Addr) (n : BitVec 16) :
    DataMoved s (t.setCh { t.ch with madr := a, qwc := n }) :=
  h.trans ⟨rfl, rfl⟩

theorem sink {src : Addr} {n k : Nat} {a : Acc} (h : sink src n a s = .ok (u, k)) : DataMoved s u := by
  refine of_ch (sink_ch h) ?_
  simp only [Machine.sink] at h
  split at h
  · cases h; rfl
  · split at h
    · simp only [sinkFifo] at h
      split at h
      · cases h; rfl
      · split at h
        · cases h
        · cases h; simp only [State.charge_done, State.setFifo_eng]
    · simp only [sinkDirect, State.callConsumer_eq] at h
      split at h
      · cases h
      · cases h; simp only [State.consumed, State.charge_done]; split <;> rfl

theorem segUnmapped (s : State) : DataMoved s (segUnmapped s) := ⟨rfl, rfl⟩

theorem segmentTransfer {a : Acc} (h : segmentTransfer a s = .ok u) : DataMoved s u := by
  have hnote : DataMoved s (noteStallMode s) := of_ch (noteStallMode_ch s) (by unfold noteStallMode; split <;> rfl)
  refine hnote.trans ?_
  simp only [Machine.segmentTransfer, moveSegment] at h
  split at h
  · cases h; exact segUnmapped _
  · split at h
    · cases h
    · rename_i hs; cases h; exact (DataMoved.sink hs).advanced _ _

theorem ringLeg {src : Addr} {n k : Nat} {a : Acc} (h : ringLeg src n a s = .ok (u, k)) : DataMoved s u := by
  simp only [Machine.ringLeg] at h
  split at h
  · cases h
  · rename_i hs; cases h; exact (DataMoved.sink hs).advanced _ _

theorem ringWrap {n : Nat} {a : Acc} (h : ringWrap n a s = .ok u) : DataMoved s u := by
  simp only [Machine.ringWrap] at h
  split at h
  · cases h; exact segUnmapped s
  · split at h
    · cases h
    · rename_i hl; cases h; exact .ringLeg hl

theorem ringLegs {q : Nat} {a : Acc} (h : ringLegs q a s = .ok u) : DataMoved s u := by
  simp only [Machine.ringLegs] at h
  split at h
  · cases h; exact segUnmapped s
  · split at h
    · cases h
    · rename_i hl
      split at h
      · exact (DataMoved.ringLeg hl).trans (.ringWrap h)
      · cases h; exact .ringLeg hl

end DataMoved

/-! The entry. -/

/-- `t` may follow `s` by work that fetches no tag: done, CHCR.TAG and the stack stay, and TADR does, or the ring has
renormalized it (43_mfifo.md R106). -/
structure FetchFree (s t : State) : Prop where
  done : t.eng.done = s.eng.done
  tag  : t.ch.chcr.tag = s.ch.chcr.tag
  asp  : t.ch.chcr.asp = s.ch.chcr.asp
  asr0 : t.ch.asr0 = s.ch.asr0
  asr1 : t.ch.asr1 = s.ch.asr1
  tadr : t.ch.tadr = s.ch.tadr ∨ s.routed = true ∧ t.ch.tadr = s.renorm s.ch.tadr

namespace FetchFree

variable {s t u : State}

theorem of_moved (h : DataMoved s t) : FetchFree s t :=
  ⟨h.done, by rw [h.ch], by rw [h.ch], by rw [h.ch], by rw [h.ch], .inl h.tadr⟩

theorem of_ch (h : t.ch = s.ch) (hd : t.eng.done = s.eng.done) : FetchFree s t := of_moved (.of_ch h hd)

theorem then_ch (h : FetchFree s t) (hc : u.ch = t.ch) (hd : u.eng.done = t.eng.done) : FetchFree s u :=
  ⟨hd.trans h.done, by rw [hc, h.tag], by rw [hc, h.asp], by rw [hc, h.asr0], by rw [hc, h.asr1],
    by rw [hc]; exact h.tadr⟩

theorem postPass (h : FetchFree s t) : FetchFree s (postPass t) :=
  h.then_ch (pathCheck_ch .post t) (congrArg _ (pathCheck_eng .post t))

theorem endEntry (h : FetchFree s t) (o : EntryOutcome) : FetchFree s (endEntry (t, o)) :=
  h.then_ch (endEntry_ch t o) (congrArg _ (endEntry_eng t o))

theorem fifoDrain (a : Acc) (s : State) : FetchFree s (fifoDrain a s) :=
  of_ch (fifoDrain_ch a s) (by rw [Machine.fifoDrain, State.charge_done, fifoRead_eng])

theorem finalize (s : State) : FetchFree s (finalize s) := ⟨rfl, rfl, rfl, rfl, rfl, .inl rfl⟩

/-- A ring transfer is the routed block's. -/
theorem ringTransfer {a : Acc} {r : RingResult} (hr : s.routed = true) (h : ringTransfer a s = .ok (u, r)) :
    FetchFree s u := by
  simp only [Machine.ringTransfer] at h
  split at h
  · cases h; exact of_ch rfl rfl
  · split at h
    · cases h
    · rename_i v hl
      cases h
      have havail : DataMoved s (available s.ch.madr s).1 := .of_ch rfl rfl
      have hm : DataMoved s v := havail.trans (.ringLegs hl)
      have hdmac : v.dmac = s.dmac := (BlockFrame.ringLegs _ _ hl).dmac
      obtain ⟨hdone, htag, hasp, hasr0, hasr1, -⟩ := of_moved hm
      refine ⟨hdone, htag, hasp, hasr0, hasr1, .inr ⟨hr, ?_⟩⟩
      simp only [ringOut, State.setCh_ch, State.renorm, hdmac, hm.tadr]

theorem directEntry {o : EntryOutcome} (hd : s.eng.done = true) (h : directEntry s = .ok (u, o)) : FetchFree s u := by
  have hdue : s.tagDue = false := by simp [State.tagDue, hd]
  simp only [Machine.directEntry, chainLoop_not_due _ _ hdue] at h
  split at h
  · cases h; exact (FetchFree.fifoDrain _ s).postPass
  · split at h
    · split at h
      · split at h
        · cases h
        · rename_i hs; cases h; exact (of_moved (.segmentTransfer hs)).postPass
      · cases h; exact (of_ch rfl rfl : FetchFree s s).postPass
    · cases h; exact finalize s

theorem mfifoEntry {o : EntryOutcome} (hr : s.routed = true) (hd : s.eng.done = true) (h : mfifoEntry s = .ok (u, o)) :
    FetchFree s u := by
  have hdue : s.tagDue = false := by simp [State.tagDue, hd]
  simp only [Machine.mfifoEntry, mfifoMove, hdue, hd, Bool.false_eq_true, if_false, if_true] at h
  split at h
  · cases h; exact (FetchFree.fifoDrain _ s).postPass
  · split at h
    · split at h
      · split at h
        · cases h
        · rename_i ht; cases h; exact (FetchFree.ringTransfer hr ht).then_ch rfl rfl
        · rename_i ht; cases h; exact (FetchFree.ringTransfer hr ht).postPass
      · split at h
        · cases h
        · rename_i hs; cases h; exact (of_moved (.segmentTransfer hs)).postPass
    · cases h; exact finalize s

theorem variantEntry {o : EntryOutcome} (hd : s.eng.done = true) (h : variantEntry s = .ok (u, o)) : FetchFree s u := by
  simp only [Machine.variantEntry] at h
  split at h
  · rename_i hr; exact mfifoEntry hr hd h
  · exact directEntry hd h

/-- What fetches no tag from the state a pre-pass leaves, fetches none from the state before it. -/
theorem of_pathCheck {p : Pass} (h : FetchFree (pathCheck p s).1 u) : FetchFree s u := by
  have hdmac : (pathCheck p s).1.dmac = s.dmac := (BlockFrame.pathCheck p s).dmac
  obtain ⟨hdone, htag, hasp, hasr0, hasr1, htadr⟩ := h
  simp only [pathCheck_ch, pathCheck_eng, State.routed, State.renorm, hdmac] at hdone htag hasp hasr0 hasr1 htadr
  exact ⟨hdone, htag, hasp, hasr0, hasr1, htadr⟩

/-- Once done is true a handler entry fetches no tag. -/
theorem handlerEntry (hd : s.eng.done = true) (h : exec .handlerEntry s = .next u) : FetchFree s u := by
  have hpre : FetchFree (pathCheck .pre s).1 (pathCheck .pre s).1 := of_ch rfl rfl
  have hdone : (pathCheck .pre s).1.eng.done = true := by rw [pathCheck_eng, hd]
  simp only [Machine.exec, execHandlerEntry] at h
  split at h
  · cases h; exact (of_ch rfl rfl : FetchFree s s).endEntry _
  · split at h
    · rename_i v o hv
      cases h
      rw [hv] at hpre
      exact of_pathCheck (p := .pre) (by rw [hv]; exact hpre.endEntry o)
    · rename_i v hv
      rw [hv] at hdone
      split at h
      · cases h
      · rename_i r hr
        cases h
        exact of_pathCheck (p := .pre) (by rw [hv]; exact (variantEntry (o := r.2) hdone hr).endEntry r.2)

end FetchFree

end Sys2Proof.Machine

namespace Sys2Proof.Claims

open Sys2Proof.Machine

/-- Settles O34: with done true no tag is due, and what is left of an entry transfers data or finalizes. -/
theorem doneMeansNoFetch : Obligations.DoneMeansNoFetch := by
  intro s u hd h
  obtain ⟨hdone, htag, hasp, hasr0, hasr1, htadr⟩ := FetchFree.handlerEntry hd h
  exact ⟨hdone.trans hd, htag, hasp, hasr0, hasr1, htadr⟩

end Sys2Proof.Claims

/-! PROOFS. What an entry moves (42_transfer.md): the part of a segment offered, a segment handed to the consumer or skipped,
and the drain of the Packet FIFO; the end that every such entry has. -/

namespace Sys2Proof.Machine

open Claims

/-! The part of a segment offered (42_transfer.md R99). -/

theorem chunk_le (cfg : Config) (q : Nat) : chunk cfg q ≤ q := by
  unfold chunk
  split
  · split <;> omega
  · exact le_rfl

theorem chunk_of_no_chunks {cfg : Config} (h : cfg.chunks = []) (q : Nat) : chunk cfg q = q := by
  rw [chunk, h]
  rfl

/-! A segment moved (42_transfer.md R96 to R98, R100, R101). -/

/-- A charge after work that leaves the engine and the routing alone. -/
theorem charge_of_frame {s u : State} (heng : u.eng = s.eng) (hdmac : u.dmac = s.dmac) (n : Nat) :
    u.charge s.variantAcc n = { u with eng := charged s n } := by
  have hcharge := charge_variantAcc u n
  simp only [State.variantAcc, State.routed, charged, routed, heng, hdmac] at hcharge ⊢
  exact hcharge

theorem afterSink_toConsumer {s : State} {src : Addr} {n : Nat} (hemu : s.fifoEmu = false) (hn : n ≠ 0) :
    afterSink s src n =
      { offered s (bytesAt s src (16 * n)) n with eng := charged s (s.cfg.cycPerQw * sunk s n) } := by
  rw [afterSink, hemu, if_neg Bool.false_ne_true, if_neg hn]

theorem sunk_toConsumer {s : State} {n : Nat} (hemu : s.fifoEmu = false) (hn : n ≠ 0) : sunk s n = taken s n := by
  rw [sunk, hemu, if_neg Bool.false_ne_true, if_neg hn]

/-- The sink straight to the consumer is its closed form (42_transfer.md R96, R97). -/
theorem sink_toConsumer {s : State} {src : Addr} {n : Nat} (hemu : s.fifoEmu = false) (hr : sinkReads s src n = true) :
    sink src n s.variantAcc s = .ok (afterSink s src n, sunk s n) := by
  obtain rfl | hn := Nat.eq_zero_or_pos n
  · simp [sink, afterSink, sunk, hemu]
  have hread : s.run src n = .ok (bytesAt s src (16 * n)) := by
    rw [sinkReads, hemu, if_neg Bool.false_ne_true, runResolves_eq] at hr
    exact State.run_mapped hr
  have hcall : ((s.callConsumer (bytesAt s src (16 * n)) (16 * n)).1.consumed s.nextAnswer.consumed n).1 =
      offered s (bytesAt s src (16 * n)) n := offered_eq s _ n
  have hcharge : (offered s (bytesAt s src (16 * n)) n).charge s.variantAcc (s.cfg.cycPerQw * taken s n) =
      { offered s (bytesAt s src (16 * n)) n with eng := charged s (s.cfg.cycPerQw * taken s n) } :=
    charge_of_frame rfl rfl _
  rw [sink, if_neg hn.ne', hemu, if_neg Bool.false_ne_true, sinkDirect, hread, afterSink_toConsumer hemu hn.ne',
    sunk_toConsumer hemu hn.ne', ← hcharge, ← hcall]
  rfl

/-- The sink is its closed form, whichever way it goes (42_transfer.md R96, R97). -/
theorem sink_eq_afterSink {s : State} {src : Addr} {n : Nat} (hr : sinkReads s src n = true) :
    sink src n s.variantAcc s = .ok (afterSink s src n, sunk s n) := by
  cases hemu : s.fifoEmu with
  | true => exact sink_intoFifo hemu hr
  | false => exact sink_toConsumer hemu hr

theorem segUnmapped_eq (s : State) : segUnmapped s = skipped s := by
  rw [segUnmapped, State.segLen, byteLen_toNat]
  rfl

/-- A segment transfer whose reads resolve, or whose start does not, is its closed form (42_transfer.md R98, R100, R101). -/
theorem segmentTransfer_eq_segmentMoved {s : State} (hr : segmentReads s = true) :
    segmentTransfer s.variantAcc s = .ok (segmentMoved s) := by
  -- the stall mode noted touches nothing that the transfer asks
  generalize hu : ({ s with diag := stallModeNoted s } : State) = u
  have hmapped : u.mapped u.ch.madr = s.mapped s.ch.madr := by rw [← hu]; rfl
  rw [segmentTransfer, noteStallMode_eq, hu, moveSegment, segmentMoved, hmapped]
  cases hm : s.mapped s.ch.madr with
  | false => simp [hu, segUnmapped_eq]
  | true =>
    have hreads : sinkReads u u.ch.madr (chunk u.cfg u.ch.qwc.toNat) = true := by
      rw [segmentReads, hm] at hr
      rw [← hu]
      exact hr
    have hsink := sink_eq_afterSink hreads
    have hch := sink_ch hsink
    have hacc : u.variantAcc = s.variantAcc := by rw [← hu]; rfl
    rw [hacc] at hsink
    simp only [hsink, hch, byteLen_eq]
    rw [← hu]
    rfl

/-- What a segment handed to the consumer leaves. -/
theorem segmentMoved_toConsumer {s : State} {n : Nat} (hemu : s.fifoEmu = false) (hm : s.mapped s.ch.madr = true)
    (hchunk : n = chunk s.cfg s.ch.qwc.toNat) (hn : n ≠ 0) :
    segmentMoved s = { offered s (bytesAt s s.ch.madr (16 * n)) n with
      ch := { s.ch with madr := s.ch.madr + BitVec.ofNat 32 (16 * taken s n)
                        qwc := s.ch.qwc - BitVec.ofNat 16 (taken s n) }
      eng := charged s (s.cfg.cycPerQw * taken s n)
      diag := overrun s n (stallModeNoted s) } := by
  have hsink := afterSink_toConsumer (s := { s with diag := stallModeNoted s }) (src := s.ch.madr) hemu hn
  have hsunk : sunk { s with diag := stallModeNoted s } n = taken s n := sunk_toConsumer hemu hn
  simp only [segmentMoved, hm, ← hchunk, hsink, hsunk, sunk_toConsumer hemu hn, if_true]
  rfl

/-- A segment that starts unmapped is skipped. -/
theorem segmentMoved_unmapped {s : State} (hm : s.mapped s.ch.madr = false) :
    segmentMoved s = skipped { s with diag := stallModeNoted s } := by
  rw [segmentMoved, hm, if_neg Bool.false_ne_true]

/-! The FIFO drained (45_handler.md R123, R125). -/

/-- A drain is the read's closed form with its charge, but for the value that a read returns. -/
theorem fifoDrain_eq_afterRead {s : State} (hocc : s.fifo.occ ≤ 16) :
    (fifoDrain s.variantAcc s).returning (.count (fifoRead true s).2) =
      { afterRead true s with
        eng := charged s (s.cfg.cycPerQw * (s.fifo.occ - (afterRead true s).fifo.occ)) } := by
  have hframe := BlockFrame.fifoRead true s
  rw [← fifoRead_eq_afterRead true hocc, fifoDrain, charge_of_frame (fifoRead_eng true s) hframe.dmac]
  rfl

/-- While the FIFO holds anything, an entry of either variant drains it (45_handler.md R123, R125). -/
theorem variantEntry_drain {s : State} (h : 0 < s.fifo.occ) :
    variantEntry s = .ok (afterTransfer s.variantAcc (s.acc s.variantAcc) (fifoDrain s.variantAcc s)) := by
  rw [variantEntry, directEntry, mfifoEntry, if_pos h, if_pos h, State.variantAcc]
  cases s.routed <;> rfl

/-! The end of such an entry (45_handler.md R119, R120; 44_path_coordinator.md R116). -/

/-- A reschedule for `n` cycles charged in the entry. -/
theorem resched_charged {s u : State} {n : Nat} (heng : u.eng = charged s n) (hcfg : u.cfg = s.cfg) :
    u.resched s.variantAcc (s.acc s.variantAcc) = .reschedule (delay s n) (channel u) := by
  have hwork : u.acc s.variantAcc - s.acc s.variantAcc = n := by
    unfold State.acc State.variantAcc
    rw [heng, charged, routed_eq]
    cases s.routed <;> simp
  rw [State.resched, hwork, hcfg, delay]
  obtain rfl | hn := Nat.eq_zero_or_pos n
  · rfl
  · rw [if_neg hn.ne', if_pos hn]
    rfl

/-- The end of an entry that asks for another on the channel of the variant in use. -/
theorem endEntry_reschedule (s : State) (d : Nat) :
    endEntry (s, .reschedule d (channel s)) = rescheduled d s := rfl

/-- A transfer that charged `n` cycles ends its entry with the post-pass and a reschedule. -/
theorem endEntry_afterTransfer {s u : State} {n : Nat} (heng : u.eng = charged s n) (hcfg : u.cfg = s.cfg) :
    endEntry (afterTransfer s.variantAcc (s.acc s.variantAcc) u) = rescheduled (delay s n) (passed u) := by
  have heng' : (postPass u).eng = charged s n := (pathCheck_eng .post u).trans heng
  have hcfg' : (postPass u).cfg = s.cfg := (BlockFrame.pathCheck .post u).cfg.trans hcfg
  rw [afterTransfer, resched_charged heng' hcfg', endEntry_reschedule, postPass_eq]

/-- A pass neither asks nor writes the value an operation returns. -/
theorem passed_returning (s : State) (r : Returned) : passed (s.returning r) = (passed s).returning r := by
  have hkick : kicked (s.returning r) = (kicked s).returning r := by
    simp only [kicked, apply_ite (State.returning · r)]
    rfl
  have hcoord : coordinated (s.returning r) = (coordinated s).returning r := by
    simp only [coordinated, hkick, apply_ite (State.returning · r)]
    rfl
  simp only [passed, nudged, hcoord, apply_ite (State.returning · r)]
  rfl

/-- The end of an entry writes the value returned anew. -/
theorem rescheduled_returning (d : Nat) (s : State) (r : Returned) :
    rescheduled d (s.returning r) = rescheduled d s := rfl

end Sys2Proof.Machine

namespace Sys2Proof.Claims

open Sys2Proof.Machine

/-- Settles O27: the entry is a segment transfer, and its sink offers the chunk to the consumer. -/
theorem consumerTransferEntry : Obligations.ConsumerTransferEntry := by
  intro s p n t hs hocc hq hd hemu hchunk hr ht
  have hn : n ≠ 0 := by
    have hqwc : 1 ≤ p.ch.qwc.toNat := by bv_omega
    have hpos := chunk_pos p.cfg hqwc
    omega
  have hm : p.mapped p.ch.madr = true := State.mapped_of_runMapped hn hr
  have hreads : segmentReads p = true := by simpa [segmentReads, hm, sinkReads, hemu, ← hchunk] using hr
  have hmoved := segmentMoved_toConsumer hemu hm hchunk hn
  rw [ht, ← hmoved]
  exact exec_handlerEntry_segment hs hocc hq hd (segmentTransfer_eq_segmentMoved hreads) (by rw [hmoved])

/-- Settles O30: either variant asks the FIFO first, and the drain's charge is the work of the entry. -/
theorem fifoDrainEntry : Obligations.FifoDrainEntry := by
  intro s p n hs hpos hocc hn
  have hdrain := fifoDrain_eq_afterRead hocc
  rw [← hn] at hdrain
  have heng : (fifoDrain p.variantAcc p).eng = charged p n := by simpa using congrArg State.eng hdrain
  rw [exec_handlerEntry_go hs.1 (pathCheck_of_enters hs), variantEntry_drain hpos, ← hdrain, passed_returning,
    rescheduled_returning, ← endEntry_afterTransfer heng (BlockFrame.fifoDrain _ p).cfg]

/-- Settles O31: the entry is a segment transfer that reads nothing, and no work is rescheduled as MIN_DELAY. -/
theorem unmappedDataSkipped : Obligations.UnmappedDataSkipped := by
  intro s p hs hocc hq hd hm
  have hreads : segmentReads p = true := by simp [segmentReads, hm]
  have hmoved := segmentMoved_unmapped hm
  have heng : (segmentMoved p).eng = charged p 0 := by
    rw [hmoved, charged]
    cases routed p <;> rfl
  have hdelay : p.cfg.minDelay.val = delay p 0 := rfl
  rw [← hmoved, hdelay]
  exact exec_handlerEntry_segment hs hocc hq hd (segmentTransfer_eq_segmentMoved hreads) heng

/-- Settles O29: a configured chunk is taken only where it lies in range. -/
theorem chunkInRange : Obligations.ChunkInRange :=
  fun cfg q hq => ⟨chunk_pos cfg hq, chunk_le cfg q, fun h => chunk_of_no_chunks h q⟩

end Sys2Proof.Claims

/-! PROOFS. The ring in numbers (43_mfifo.md R102 to R105, R108, R110): a window of `ringSize` bytes, a multiple of 16 on a
multiple of itself; renormalization by the offset in it, the count of `Available` as a distance around it; the writer's
move, and the entry that finds the ring empty. -/

namespace Sys2Proof.Claims

open Sys2Proof.Machine

/-! The window (10_state.md R32; 43_mfifo.md R102). -/

/-- The bytes of the ring's window: from the base to the limit (43_mfifo.md R102). -/
def ringSize (s : State) : Nat := s.dmac.rbsr.toNat + 16

/-- The window of a well-formed ring is made of whole quadwords, divides the address space, stands on a multiple of its
size, and does not pass the end of the address space. -/
theorem ringSize_window {s : State} (h : s.ringWellFormed = true) :
    16 ∣ ringSize s ∧ ringSize s ∣ 2 ^ 32 ∧ ringSize s ∣ s.dmac.rbor.toNat ∧
      s.dmac.rbor.toNat + ringSize s ≤ 2 ^ 32 := by
  obtain ⟨j, hj, hmask, hbase, htop⟩ := s.ring_numbers h
  have hpos := Nat.two_pow_pos j
  have hsize : ringSize s = 16 * 2 ^ j := by rw [ringSize, hmask]; omega
  rw [hsize]
  refine ⟨dvd_mul_right 16 _, ?_, Nat.dvd_of_mod_eq_zero hbase, htop⟩
  rw [show 16 * 2 ^ j = 2 ^ (4 + j) by rw [Nat.pow_add]]
  exact pow_dvd_pow 2 (by omega)

theorem ringSize_ge (s : State) : 16 ≤ ringSize s := Nat.le_add_left 16 _

theorem renorm_toNat {s : State} (h : s.ringWellFormed = true) (a : Addr) :
    (s.renorm a).toNat = s.dmac.rbor.toNat + a.toNat % ringSize s / 16 * 16 := by
  obtain ⟨j, -, hmask, -, htop⟩ := s.ring_numbers h
  have hpos := Nat.two_pow_pos j
  rw [s.renorm_toNat a j hmask htop, ringSize, hmask, show 16 * (2 ^ j - 1) + 16 = 16 * 2 ^ j by omega]

/-- The window of a well-formed ring does not wrap: an address is in it by its number. -/
theorem inRing_iff {s : State} (h : s.ringWellFormed = true) (a : Addr) :
    inRing s a = true ↔ s.dmac.rbor.toNat ≤ a.toNat ∧ a.toNat + 16 ≤ s.dmac.rbor.toNat + ringSize s := by
  obtain ⟨-, -, -, htop⟩ := ringSize_window h
  rw [ringSize] at htop ⊢
  simp only [inRing, Bool.and_eq_true, decide_eq_true_eq, BitVec.toNat_add]
  omega

/-! Renormalization (43_mfifo.md R103). -/

/-- An address that lies in the window, up to whole turns of the ring, is renormalized to its place there. -/
theorem renorm_eq_of_modEq {s : State} {a b : Addr} (h : s.ringWellFormed = true) (hb : inRing s b = true)
    (halign : aligned b = true) (hab : a.toNat ≡ b.toNat [MOD ringSize s]) : s.renorm a = b := by
  obtain ⟨h16, -, hbase, -⟩ := ringSize_window h
  obtain ⟨hlo, hhi⟩ := (inRing_iff h b).1 hb
  have hoffset : b.toNat % ringSize s = b.toNat - s.dmac.rbor.toNat := by
    obtain ⟨x, hx⟩ := Nat.exists_eq_add_of_le hlo
    obtain ⟨c, hc⟩ := hbase
    rw [hx, hc, Nat.mul_add_mod, Nat.mod_eq_of_lt (by omega)]
    omega
  have halign' := (aligned_iff b).1 halign
  have hbase' := Nat.mod_eq_zero_of_dvd (h16.trans hbase)
  apply BitVec.eq_of_toNat_eq
  rw [renorm_toNat h, hab, hoffset]
  omega

theorem renorm_of_inRing {s : State} {a : Addr} (h : s.ringWellFormed = true) (ha : inRing s a = true)
    (halign : aligned a = true) : s.renorm a = a := renorm_eq_of_modEq h ha halign rfl

theorem inRing_rbor {s : State} (h : s.ringWellFormed = true) : inRing s s.dmac.rbor = true :=
  (inRing_iff h _).2 ⟨le_rfl, Nat.add_le_add_left (ringSize_ge s) _⟩

theorem aligned_rbor {s : State} (h : s.ringWellFormed = true) : aligned s.dmac.rbor = true := by
  obtain ⟨h16, -, hbase, -⟩ := ringSize_window h
  exact (aligned_iff _).2 (Nat.mod_eq_zero_of_dvd (h16.trans hbase))

theorem limit_toNat (s : State) : (limit s).toNat = (s.dmac.rbor.toNat + ringSize s) % 2 ^ 32 := by
  rw [limit, BitVec.add_assoc, BitVec.toNat_add, BitVec.toNat_add, Nat.add_mod_mod]
  rfl

theorem renorm_limit {s : State} (h : s.ringWellFormed = true) : s.renorm (limit s) = s.dmac.rbor := by
  obtain ⟨-, hspace, -, -⟩ := ringSize_window h
  refine renorm_eq_of_modEq h (inRing_rbor h) (aligned_rbor h) ?_
  rw [limit_toNat]
  exact ((Nat.mod_modEq _ _).of_dvd hspace).trans Nat.add_modEq_right

theorem inRing_renorm {s : State} (h : s.ringWellFormed = true) (a : Addr) : inRing s (s.renorm a) = true := by
  obtain ⟨h16, -, -, -⟩ := ringSize_window h
  have hlt := Nat.mod_lt a.toNat (Nat.lt_of_lt_of_le (by decide) (ringSize_ge s))
  rw [inRing_iff h, renorm_toNat h]
  omega

theorem aligned_rbsr {s : State} (h : s.ringWellFormed = true) : aligned s.dmac.rbsr = true := by
  simp only [State.ringWellFormed, Bool.and_eq_true] at h
  exact h.1.1

theorem aligned_renorm {s : State} (h : s.ringWellFormed = true) (a : Addr) : aligned (s.renorm a) = true :=
  aligned_add (aligned_rbor h) (aligned_and (aligned_rbsr h))

/-! The count of `Available` (43_mfifo.md R104). -/

theorem availableAt_of_le {s : State} {d : Addr} (h : d.toNat ≤ s.wcur.toNat) :
    availableAt s d = (s.wcur.toNat - d.toNat) / 16 := by
  rw [availableAt, if_pos h, BitVec.toNat_sub_of_le (BitVec.le_def.2 h)]

/-- From an address past the base the ring's top is the rest of the window. -/
theorem toNat_limit_sub {s : State} {d : Addr} (h : s.ringWellFormed = true) (hd : inRing s d = true)
    (hpast : s.dmac.rbor.toNat < d.toNat) : (limit s - d).toNat = s.dmac.rbor.toNat + ringSize s - d.toNat := by
  obtain ⟨-, -, -, htop⟩ := ringSize_window h
  obtain ⟨-, hhi⟩ := (inRing_iff h d).1 hd
  have hlt := d.isLt
  rw [BitVec.toNat_sub, limit_toNat]
  omega

/-- With the cursor behind it, an address has the rest of the window before it and the window up to the cursor. -/
theorem availableAt_of_lt {s : State} {d : Addr} (h : s.ringWellFormed = true) (hd : inRing s d = true)
    (hw : inRing s s.wcur = true) (hlt : s.wcur.toNat < d.toNat) :
    availableAt s d = (s.wcur.toNat + ringSize s - d.toNat) / 16 := by
  obtain ⟨-, -, -, htop⟩ := ringSize_window h
  obtain ⟨hlo, -⟩ := (inRing_iff h _).1 hw
  have hbase : (s.wcur - s.dmac.rbor).toNat = s.wcur.toNat - s.dmac.rbor.toNat :=
    BitVec.toNat_sub_of_le (BitVec.le_def.2 hlo)
  have hsum : s.wcur.toNat - s.dmac.rbor.toNat + (s.dmac.rbor.toNat + ringSize s - d.toNat) =
      s.wcur.toNat + ringSize s - d.toNat := by
    obtain ⟨-, hhi⟩ := (inRing_iff h d).1 hd
    omega
  rw [availableAt, if_neg (by omega), BitVec.toNat_add, hbase, toNat_limit_sub h hd (by omega), hsum,
    Nat.mod_eq_of_lt (by omega)]

/-- Advancing by whole quadwords, in numbers, up to whole turns of the ring. -/
theorem toNat_add_quads_modEq {s : State} (h : s.ringWellFormed = true) (d : Addr) (n : Nat) :
    (d + BitVec.ofNat 32 (16 * n)).toNat ≡ d.toNat + 16 * n [MOD ringSize s] := by
  obtain ⟨-, hspace, -, -⟩ := ringSize_window h
  rw [BitVec.toNat_add, BitVec.toNat_ofNat, Nat.add_mod_mod]
  exact (Nat.mod_modEq _ _).of_dvd hspace

/-- Whole quadwords on, renormalized, where they lead up to whole turns of the ring. -/
theorem renorm_add_quads {s : State} {d b : Addr} {n : Nat} (h : s.ringWellFormed = true) (hb : inRing s b = true)
    (halign : aligned b = true) (hd : d.toNat + 16 * n ≡ b.toNat [MOD ringSize s]) :
    s.renorm (d + BitVec.ofNat 32 (16 * n)) = b :=
  renorm_eq_of_modEq h hb halign ((toNat_add_quads_modEq h d n).trans hd)

/-- The count is the distance to the cursor: it is short of a whole turn, and takes the address to the cursor, in the same
turn or the next. -/
theorem available_distance {s : State} {d : Addr} (h : s.ringWellFormed = true) (hd16 : aligned d = true)
    (hw16 : aligned s.wcur = true) (hd : inRing s d = true) (hw : inRing s s.wcur = true) :
    16 * availableAt s d < ringSize s ∧
      (d.toNat + 16 * availableAt s d = s.wcur.toNat ∨
        availableAt s d ≠ 0 ∧ d.toNat + 16 * availableAt s d = s.wcur.toNat + ringSize s) := by
  obtain ⟨h16, -, -, -⟩ := ringSize_window h
  obtain ⟨hdlo, hdhi⟩ := (inRing_iff h _).1 hd
  obtain ⟨hwlo, hwhi⟩ := (inRing_iff h _).1 hw
  rw [aligned_iff] at hd16 hw16
  obtain hle | hlt := le_or_gt d.toNat s.wcur.toNat
  · rw [availableAt_of_le hle]
    omega
  · rw [availableAt_of_lt h hd hw hlt]
    omega

/-! The entry that finds the ring empty (43_mfifo.md R105, R108). -/

theorem available_empty {s : State} {d : Addr} (h : availableAt s d = 0) :
    available d s = (s.setEng { s.eng with state := .empty }, 0) := by
  rw [available, ← availableAt_eq, if_pos h, h]

theorem endEntry_ringEmptied (s : State) :
    endEntry ((s.setEng { s.eng with state := .empty }).raise .mfifoEmpty, .idle) = ringEmptied s := rfl

/-- With quadwords left no tag is due (41_chain_tags.md R79). -/
theorem tagDue_of_qwc {s : State} (h : s.ch.qwc ≠ 0) : s.tagDue = false := by
  have hz : s.ch.qwc ≠ 0#16 := h
  simp [State.tagDue, hz]

/-- With data of the ring to move, a routed entry is a ring transfer and what follows its answer
(45_handler.md R125; 43_mfifo.md R105). -/
theorem variantEntry_ring {s : State} (hr : routed s = true) (hf : s.fifo.occ = 0) (hq : s.ch.qwc ≠ 0)
    (hin : inRing s s.ch.madr = true) :
    variantEntry s = (ringTransfer .mcyc s).map fun
      | (u, .empty) => (u.raise .mfifoEmpty, .idle)
      | (u, .moved) => afterTransfer .mcyc s.eng.mcyc u := by
  have hz : s.ch.qwc ≠ 0#16 := hq
  rw [routed_eq] at hr
  rw [inRing_eq] at hin
  simp only [variantEntry, hr, mfifoEntry, hf, tagDue_of_qwc hq, mfifoMove, hin]
  cases ringTransfer .mcyc s with
  | error r => simp [hz, Except.map]
  | ok v => obtain ⟨u, _ | _⟩ := v <;> simp [hz, Except.map]

theorem ringTransfer_empty {s : State} (a : Acc) (h : availableAt s s.ch.madr = 0) :
    ringTransfer a s = .ok (s.setEng { s.eng with state := .empty }, .empty) := by
  simp [ringTransfer, available_empty h]

/-- With a tag due that the ring does not have, a routed entry raises MFIFO_EMPTY and reads nothing. -/
theorem variantEntry_tagMissing {s : State} (hr : routed s = true) (hf : s.fifo.occ = 0) (hw : tagWanted s = true)
    (h : availableAt s s.ch.tadr = 0) :
    variantEntry s = .ok ((s.setEng { s.eng with state := .empty }).raise .mfifoEmpty, .idle) := by
  rw [routed_eq] at hr
  rw [tagWanted_eq] at hw
  simp [variantEntry, hr, mfifoEntry, hf, hw, available_empty h]

/-! The statements. -/

/-- Settles O44: only a running channel is woken, and in one the lead is kept. -/
theorem writerAdvanceEffect : Obligations.WriterAdvanceEffect := by
  intro w s
  have hwake : (s.routed && s.ch.chcr.str && s.eng.state == .empty) =
      (routed s && s.ch.chcr.str && s.eng.state == .empty) := rfl
  simp only [exec, execWriterAdvance, hwake]
  split
  case isTrue h =>
    have hstr : s.ch.chcr.str = true := by simp only [Bool.and_eq_true] at h; exact h.1.2
    simp [State.setWcur, State.request, State.emit, State.returning, hstr]
  case isFalse => rfl

/-- Settles O40: renormalization is the base and an offset in the window, which the limit has none of. -/
theorem renormIntoWindow : Obligations.RenormIntoWindow :=
  fun _ a h => ⟨rfl, inRing_renorm h a, renorm_limit h, fun _ => aligned_renorm h a,
    fun halign ha => renorm_of_inRing h ha halign⟩

/-- Settles O41: the count is the distance from the address to the cursor, a whole turn of the ring apart where the cursor
is behind. -/
theorem availableIsDistance : Obligations.AvailableIsDistance := by
  intro s d h hd16 hw16 hd hw
  obtain ⟨hshort, hreach⟩ := available_distance h hd16 hw16 hd hw
  rw [← availableAt_eq]
  refine ⟨?bound, ?zero, ?reaches⟩
  case bound =>
    obtain ⟨h16, -, -, -⟩ := ringSize_window h
    change _ < ringSize s / 16
    omega
  case zero => rw [← BitVec.toNat_inj]; omega
  case reaches =>
    refine renorm_add_quads h hw hw16 ?_
    obtain hsame | ⟨-, hnext⟩ := hreach
    · rw [hsame]
    · rw [hnext]; exact Nat.add_modEq_right

/-- Settles O43: the variant, or the fetch as a step, asks `Available` before it reads. -/
theorem ringEmptyIdles : Obligations.RingEmptyIdles := by
  refine ⟨fun s p hp hr hf h => ?entry, fun s hw ht => ?fetch⟩
  case entry =>
    rw [exec_handlerEntry_go hp.1 (pathCheck_of_enters hp)]
    obtain ⟨hw, hnone⟩ | ⟨hq, hin, hnone⟩ := h
    · rw [variantEntry_tagMissing hr hf hw hnone, ← endEntry_ringEmptied]
    · rw [variantEntry_ring hr hf hq hin, ringTransfer_empty .mcyc hnone, ← endEntry_ringEmptied]
      rfl
  case fetch =>
    have hmiss : s.tagMissing = true := by simpa [tagThere_eq] using ht
    obtain ⟨hr, hnone⟩ : s.routed = true ∧ availableAt s s.ch.tadr = 0 := by
      simpa [State.tagMissing, availableAt_eq] using hmiss
    rw [walk_eq s hw, if_pos hmiss, State.atFetch, if_pos hr, available_empty hnone]
    rfl

end Sys2Proof.Claims

/-! PROOFS. The ring transfer (43_mfifo.md R106, R112): each leg and the whole are their closed forms; the entry that makes
one; and the transfer that crosses the limit, which a consumer that takes everything brings to the write cursor. -/

namespace Sys2Proof.Claims

open Sys2Proof.Machine

/-! The legs (43_mfifo.md R106). -/

/-- A leg whose reads resolve is its closed form. -/
theorem ringLeg_eq_ringLegMoved {s : State} {src : Addr} {n : Nat} (h : sinkReads s src n = true) :
    ringLeg src n s.variantAcc s = .ok (ringLegMoved s src n, sunk s n) := by
  have hsink := sink_eq_afterSink h
  have hch := sink_ch hsink
  have hdmac := (BlockFrame.sink _ _ _ hsink).dmac
  simp only [ringLeg, hsink, byteLen_eq, State.renorm, hch, hdmac]
  rfl

/-- What a leg leaves alone, in its closed form. -/
theorem frame_ringLegMoved {s : State} {src : Addr} {n : Nat} (h : sinkReads s src n = true) :
    BlockFrame s (ringLegMoved s src n) := .ringLeg _ _ _ (ringLeg_eq_ringLegMoved h)

theorem variantAcc_of_dmac {s u : State} (h : u.dmac = s.dmac) : u.variantAcc = s.variantAcc := by
  rw [State.variantAcc, State.routed, h]
  rfl

/-- The second leg, from the ring's base: moved where the base is mapped, else skipped. -/
theorem ringWrap_eq {s : State} {n : Nat} (h : s.mapped s.dmac.rbor = true → sinkReads s s.dmac.rbor n = true) :
    ringWrap n s.variantAcc s =
      .ok (if s.mapped s.dmac.rbor then ringLegMoved s s.dmac.rbor n else skipped s) := by
  cases hm : s.mapped s.dmac.rbor with
  | false => simp [ringWrap, hm, segUnmapped_eq]
  | true => simp [ringWrap, hm, ringLeg_eq_ringLegMoved (h hm)]

theorem ringOut_eq_ringEnded (s : State) : ringOut s = ringEnded s := rfl

theorem untilEnd_eq_ringTop (s : State) : s.untilEnd = ringTop s := by
  rw [State.untilEnd, BitVec.toNat_ushiftRight, Nat.shiftRight_eq_div_pow]
  rfl

theorem leg1_eq_min (s : State) (q : Nat) : s.leg1 q = min (ringTop s) q := by
  rw [State.leg1, untilEnd_eq_ringTop]
  split <;> omega

/-- Marking an engine READY that is READY changes nothing. -/
theorem eng_ready {s : State} (h : s.eng.state = .ready) : ({ s with eng.state := .ready } : State) = s := by
  rw [← h]

/-- The first leg starts unmapped and asks for something, so that the whole transfer is skipped (43_mfifo.md R100, R106). -/
def ringSkips (s : State) : Prop := min (ringTop s) (ringAsked s) ≠ 0 ∧ s.mapped s.ch.madr = false

/-- Where the transfer is not skipped, the reads of both its legs resolve. -/
theorem sinkReads_of_ringReads {s : State} (h : ringReads s = true) (hskip : ¬ ringSkips s) :
    sinkReads s s.ch.madr (min (ringTop s) (ringAsked s)) = true ∧
      (ringWraps s = true → s.mapped s.dmac.rbor = true →
        sinkReads (ringFirst s) s.dmac.rbor (ringAsked s - ringTop s) = true) := by
  simp only [ringReads, ringSkips] at h hskip
  simp only [Bool.or_eq_true, Bool.and_eq_true, bne_iff_ne, Bool.not_eq_true', hskip, false_or] at h
  obtain ⟨hfirst, hsecond⟩ := h
  refine ⟨hfirst, fun hwrap hm => ?_⟩
  simpa [hwrap, hm] using hsecond

theorem ringWraps_iff (s : State) : ringWraps s = true ↔
    ringTop s < ringAsked s ∧ sunk s (min (ringTop s) (ringAsked s)) = ringTop s := by
  simp [ringWraps]

/-! What a ring transfer leaves, case by case (43_mfifo.md R106). -/

theorem ringMoved_skips {s : State} (h : ringSkips s) : ringMoved s = ringEnded (skipped { s with eng.state := .ready }) :=
  if_pos h

theorem ringMoved_within {s : State} (h : ¬ ringSkips s) (hwrap : ringWraps s = false) :
    ringMoved s = ringEnded (ringFirst s) := by
  rw [ringMoved, hwrap]
  exact if_neg h

theorem ringMoved_wraps {s : State} (h : ¬ ringSkips s) (hwrap : ringWraps s = true) :
    ringMoved s = ringEnded (if s.mapped s.dmac.rbor then ringLegMoved (ringFirst s) s.dmac.rbor (ringAsked s - ringTop s)
      else skipped (ringFirst s)) := by
  rw [ringMoved, hwrap, apply_ite ringEnded]
  exact if_neg h

/-- A transfer that is not skipped is its first leg, then, where it crosses the top, the second. -/
theorem ringLegs_of_not_skips {s : State} (hready : s.eng.state = .ready) (hskip : ¬ ringSkips s)
    (h : sinkReads s s.ch.madr (min (ringTop s) (ringAsked s)) = true) :
    ringLegs (ringAsked s) s.variantAcc s =
      if ringWraps s then ringWrap (ringAsked s - ringTop s) s.variantAcc (ringFirst s) else .ok (ringFirst s) := by
  have hgo : (decide (0 < min (ringTop s) (ringAsked s)) && !s.mapped s.ch.madr) = false := by
    simpa [ringSkips, Nat.pos_iff_ne_zero] using hskip
  have hleg := ringLeg_eq_ringLegMoved h
  simp only [ringLegs, leg1_eq_min, hgo, hleg, untilEnd_eq_ringTop, ringWraps_iff, ringFirst, eng_ready hready,
    Bool.false_eq_true, if_false]

/-- The legs of a transfer in a ring that is READY, and the end after them, come to the closed form. -/
theorem ringLegs_eq {s : State} (hready : s.eng.state = .ready) (h : ringReads s = true) :
    ∃ u, ringLegs (ringAsked s) s.variantAcc s = .ok u ∧ ringEnded u = ringMoved s := by
  by_cases hskip : ringSkips s
  · refine ⟨skipped s, ?_, by rw [ringMoved_skips hskip, eng_ready hready]⟩
    simp [ringLegs, leg1_eq_min, Nat.pos_of_ne_zero hskip.1, hskip.2, segUnmapped_eq]
  obtain ⟨hfirst, hsecond⟩ := sinkReads_of_ringReads h hskip
  rw [ringLegs_of_not_skips hready hskip hfirst]
  cases hwrap : ringWraps s with
  | false => exact ⟨_, rfl, (ringMoved_within hskip hwrap).symm⟩
  | true =>
    have hframe : BlockFrame s (ringFirst s) := by
      rw [ringFirst, eng_ready hready]
      exact frame_ringLegMoved hfirst
    have hmapped : (ringFirst s).mapped (ringFirst s).dmac.rbor = s.mapped s.dmac.rbor := by
      rw [State.mapped, hframe.cfg, hframe.dmac]
      rfl
    have hwrapped := ringWrap_eq (s := ringFirst s) (n := ringAsked s - ringTop s)
      (by rw [hmapped, hframe.dmac]; exact hsecond hwrap)
    rw [variantAcc_of_dmac hframe.dmac, hmapped, hframe.dmac] at hwrapped
    exact ⟨_, hwrapped, (ringMoved_wraps hskip hwrap).symm⟩

/-- A ring transfer that finds something available is its closed form. -/
theorem ringTransfer_eq_ringMoved {s : State} (hq : s.ch.qwc ≠ 0) (hav : availableAt s s.ch.madr ≠ 0)
    (h : ringReads s = true) : ringTransfer s.variantAcc s = .ok (ringMoved s, .moved) := by
  obtain ⟨u, hu, hout⟩ := ringLegs_eq (s := s.setEng { s.eng with state := .ready }) rfl h
  have hq' : s.ch.qwc.toNat ≠ 0 := by bv_omega
  have hav' : available s.ch.madr s = (s.setEng { s.eng with state := .ready }, availableAt s s.ch.madr) := by
    rw [available, ← availableAt_eq, if_neg hav]
  have hlegs : ringLegs (min (availableAt s s.ch.madr) s.ch.qwc.toNat) s.variantAcc
      (s.setEng { s.eng with state := .ready }) = .ok u := hu
  have hend : ringEnded u = ringMoved s := hout
  simp [ringTransfer, hav', hq', hav, hlegs, ringOut_eq_ringEnded, hend]

/-! The entry (45_handler.md R120, R125). -/

/-- The end of an entry that has transferred: the post-pass, and a reschedule for the work since `n` cycles. -/
theorem endEntry_transferred (a : Acc) (n : Nat) (s : State) :
    endEntry (afterTransfer a n s) = rescheduled (delay s (s.acc a - n)) (passed s) := by
  have hacc : (passed s).acc a = s.acc a := by
    rw [← postPass_eq]
    unfold State.acc
    rw [postPass, pathCheck_eng]
  have hcfg : (passed s).cfg = s.cfg := by
    rw [← postPass_eq]
    exact (BlockFrame.pathCheck .post s).cfg
  have hwork : (passed s).resched a n = .reschedule (delay s (s.acc a - n)) (channel (passed s)) := by
    rw [State.resched, hacc, hcfg, delay]
    obtain hz | hpos := Nat.eq_zero_or_pos (s.acc a - n)
    · rw [hz]; rfl
    · rw [if_neg hpos.ne', if_pos hpos]; rfl
  rw [afterTransfer, postPass_eq, hwork, endEntry_reschedule]

/-- An entry with ring data to move and something available is the ring transfer. -/
theorem exec_handlerEntry_ring {s p : State} (h : Enters s p) (hr : routed p = true) (hf : p.fifo.occ = 0)
    (hq : p.ch.qwc ≠ 0) (hin : inRing p p.ch.madr = true) (hav : availableAt p p.ch.madr ≠ 0)
    (hreads : ringReads p = true) :
    exec .handlerEntry s =
      .next (rescheduled (delay p ((ringMoved p).eng.mcyc - p.eng.mcyc)) (passed (ringMoved p))) := by
  have hacc : p.variantAcc = .mcyc := if_pos hr
  have hmoved := ringTransfer_eq_ringMoved hq hav hreads
  rw [hacc] at hmoved
  have hcfg : (ringMoved p).cfg = p.cfg := (BlockFrame.ringTransfer _ hmoved).cfg
  rw [exec_handlerEntry_go h.1 (pathCheck_of_enters h), variantEntry_ring hr hf hq hin, hmoved]
  simp only [Except.map, endEntry_transferred, delay, hcfg]
  rfl

/-! The transfer that crosses the limit (43_mfifo.md R112). -/

/-- What one leg of `n` quadwords from `src` leaves where the consumer answers `a` and takes them all (43_mfifo.md R106). -/
structure LegTaken (s : State) (src : Addr) (n : Nat) (a : Answer) (rest : List Answer) (u : State) : Prop where
  frame : BlockFrame s u
  ch : u.ch = { s.ch with madr := s.renorm (s.ch.madr + BitVec.ofNat 32 (16 * n)), qwc := s.ch.qwc - BitVec.ofNat 16 n }
  eng : u.eng = charged s (s.cfg.cycPerQw * n)
  out : u.out = s.out ++ [.transfer .dma (bytesAt s src (16 * n)) (16 * n)]
  gif : u.gif = a.after
  script : u.script = rest

/-- A consumer that takes `n` quadwords and more takes all that is offered. -/
theorem sunk_all {s : State} {n : Nat} {a : Answer} {rest : List Answer} (hemu : s.fifoEmu = false)
    (hscript : s.script = a :: rest) (ha : 16 * n ≤ a.consumed) : sunk s n = n := by
  obtain rfl | hn := Nat.eq_zero_or_pos n
  · simp [sunk, hemu]
  · rw [sunk_toConsumer hemu hn.ne', taken, State.nextAnswer, hscript]
    exact Nat.min_eq_right (by dsimp only; omega)

theorem sinkReads_toConsumer {s : State} (hemu : s.fifoEmu = false) (src : Addr) (n : Nat) :
    sinkReads s src n = runResolves s src n := by
  rw [sinkReads, hemu, if_neg Bool.false_ne_true]

theorem legTaken_ringLegMoved {s : State} {src : Addr} {n : Nat} {a : Answer} {rest : List Answer}
    (hemu : s.fifoEmu = false) (hn : n ≠ 0) (hscript : s.script = a :: rest) (ha : 16 * n ≤ a.consumed)
    (hr : runResolves s src n = true) : LegTaken s src n a rest (ringLegMoved s src n) := by
  have hframe := frame_ringLegMoved ((sinkReads_toConsumer hemu src n).trans hr)
  have hanswer : s.nextAnswer = a := by rw [State.nextAnswer, hscript]
  have hsunk := sunk_all hemu hscript ha
  have hafter := afterSink_toConsumer (src := src) hemu hn
  rw [hsunk] at hafter
  rw [ringLegMoved, hafter, hsunk] at hframe ⊢
  exact ⟨hframe, rfl, rfl, rfl, congrArg Answer.after hanswer, congrArg List.tail hscript⟩

/-- Two legs taken in an MFIFO entry, together. -/
theorem LegTaken.both {s u v : State} {src src' : Addr} {n k : Nat} {a b : Answer} {rest rest' : List Answer}
    (hr : routed s = true) (hu : LegTaken s src n a rest u) (hv : LegTaken u src' k b rest' v) :
    v.ch = { s.ch with
        madr := s.renorm (s.renorm (s.ch.madr + BitVec.ofNat 32 (16 * n)) + BitVec.ofNat 32 (16 * k))
        qwc := s.ch.qwc - BitVec.ofNat 16 (n + k) } ∧
      v.eng = { s.eng with mcyc := s.eng.mcyc + s.cfg.cycPerQw * (n + k) } ∧
      v.out = s.out ++ [.transfer .dma (bytesAt s src (16 * n)) (16 * n),
        .transfer .dma (bytesAt s src' (16 * k)) (16 * k)] := by
  have hmcyc : ∀ {x : State} (m : Nat), routed x = true → charged x m = { x.eng with mcyc := x.eng.mcyc + m } :=
    fun _ h => if_pos h
  have hr' : routed u = true := by rw [routed, hu.frame.dmac]; exact hr
  refine ⟨?ch, ?eng, ?out⟩
  case ch =>
    rw [hv.ch, hu.ch, State.renorm, State.renorm, hu.frame.dmac, BitVec.ofNat_add, BitVec.sub_sub]
    rfl
  case eng => rw [hv.eng, hmcyc _ hr', hu.eng, hmcyc _ hr, hu.frame.cfg, Nat.mul_add, Nat.add_assoc]
  case out =>
    rw [hv.out, hu.out, List.append_assoc, bytesAt, bytesAt, bytesAt, hu.frame.mem]
    rfl

/-- A transfer that crosses the top, of which the consumer takes everything, is two legs (43_mfifo.md R106). -/
theorem ringMoved_taken {s : State} {a b : Answer} {rest : List Answer} (hemu : s.fifoEmu = false)
    (hscript : s.script = a :: b :: rest) (htop : ringTop s ≠ 0) (hcross : ringTop s < ringAsked s)
    (ha : 16 * ringTop s ≤ a.consumed) (hb : 16 * (ringAsked s - ringTop s) ≤ b.consumed)
    (hfirst : runResolves s s.ch.madr (ringTop s) = true)
    (hsecond : runResolves s s.dmac.rbor (ringAsked s - ringTop s) = true) :
    ringReads s = true ∧ ∃ u v, LegTaken { s with eng.state := .ready } s.ch.madr (ringTop s) a (b :: rest) u ∧
      LegTaken u s.dmac.rbor (ringAsked s - ringTop s) b rest v ∧ ringMoved s = ringEnded v := by
  have hmin : min (ringTop s) (ringAsked s) = ringTop s := Nat.min_eq_left hcross.le
  have hleg : LegTaken { s with eng.state := .ready } s.ch.madr (ringTop s) a (b :: rest) (ringFirst s) := by
    rw [ringFirst, hmin]
    exact legTaken_ringLegMoved hemu htop hscript ha hfirst
  have hemu' : (ringFirst s).fifoEmu = false := hleg.frame.fifoEmu.trans hemu
  have hresolves : ∀ src n, runResolves (ringFirst s) src n = runResolves s src n := fun src n => by
    rw [runResolves, hleg.frame.cfg]
    rfl
  have hleg' := legTaken_ringLegMoved (src := s.dmac.rbor) hemu' (Nat.sub_ne_zero_of_lt hcross) hleg.script hb
    ((hresolves _ _).trans hsecond)
  have hwrap : ringWraps s = true := (ringWraps_iff s).2 ⟨hcross, by rw [hmin]; exact sunk_all hemu hscript ha⟩
  have hskip : ¬ ringSkips s := fun hs => by
    have hmapped := State.mapped_of_runMapped htop hfirst
    exact Bool.false_ne_true (hs.2.symm.trans hmapped)
  have hbase := State.mapped_of_runMapped (Nat.sub_ne_zero_of_lt hcross) hsecond
  refine ⟨?_, _, _, hleg, hleg', by rw [ringMoved_wraps hskip hwrap, if_pos hbase]⟩
  simp only [ringReads, hmin, sinkReads_toConsumer hemu, sinkReads_toConsumer hemu', hresolves, hfirst, hsecond,
    Bool.or_true, Bool.and_true]

/-- With the cursor behind MADR and past the base, the way to it leads over the top: the rest of the window, then from the
base on. -/
theorem ringTop_distance {s : State} (h : s.ringWellFormed = true) (hd16 : aligned s.ch.madr = true)
    (hw16 : aligned s.wcur = true) (hd : inRing s s.ch.madr = true) (hw : inRing s s.wcur = true)
    (hlt : s.wcur.toNat < s.ch.madr.toNat) (hpast : s.dmac.rbor.toNat < s.wcur.toNat) :
    ringTop s ≠ 0 ∧ ringTop s < availableAt s s.ch.madr ∧
      s.ch.madr.toNat + 16 * ringTop s = s.dmac.rbor.toNat + ringSize s ∧
      s.dmac.rbor.toNat + 16 * (availableAt s s.ch.madr - ringTop s) = s.wcur.toNat := by
  obtain ⟨h16, -, -, -⟩ := ringSize_window h
  obtain ⟨-, hreach⟩ := available_distance h hd16 hw16 hd hw
  obtain ⟨-, hhi⟩ := (inRing_iff h _).1 hd
  have htop : ringTop s = (s.dmac.rbor.toNat + ringSize s - s.ch.madr.toNat) / 16 := by
    rw [ringTop, toNat_limit_sub h hd (hpast.trans hlt)]
  have hbase := (aligned_iff _).1 (aligned_rbor h)
  rw [aligned_iff] at hd16 hw16
  omega

/-- Two legs of which the first ends at the limit and the second at the cursor leave MADR at the cursor. -/
theorem ringEnded_ch_of_legs {s u v : State} {src src' : Addr} {n k : Nat} {a b : Answer} {rest rest' : List Answer}
    (hring : s.ringWellFormed = true) (hw : inRing s s.wcur = true) (hw16 : aligned s.wcur = true)
    (hlimit : s.ch.madr.toNat + 16 * n = s.dmac.rbor.toNat + ringSize s)
    (hcursor : s.dmac.rbor.toNat + 16 * k = s.wcur.toNat) (hr : routed s = true) (hu : LegTaken s src n a rest u)
    (hv : LegTaken u src' k b rest' v) :
    (ringEnded v).ch = { s.ch with
      madr := s.wcur, tadr := renorm s s.ch.tadr, qwc := s.ch.qwc - BitVec.ofNat 16 (n + k) } := by
  have hbase : s.renorm (s.ch.madr + BitVec.ofNat 32 (16 * n)) = s.dmac.rbor :=
    renorm_add_quads hring (inRing_rbor hring) (aligned_rbor hring) (by rw [hlimit]; exact Nat.add_modEq_right)
  have hmadr : s.renorm (s.dmac.rbor + BitVec.ofNat 32 (16 * k)) = s.wcur :=
    renorm_add_quads hring hw hw16 (by rw [hcursor])
  have hrenorm : ∀ x, renorm v x = s.renorm x := fun x => by rw [renorm, hv.frame.dmac, hu.frame.dmac]; rfl
  obtain ⟨hch, -, -⟩ := hu.both hr hv
  simp only [ringEnded, hch, hbase, hmadr, hrenorm, renorm_of_inRing hring hw hw16]
  rfl

theorem passed_quiet {s : State} (h : quiet s.gif s.vif = true) : passed s = s := by
  rw [← postPass_eq, postPass, pathCheck_quiet .post s h]

/-- Settles O42: the entry is the ring transfer; across the limit it is two legs, to the limit and to the cursor. -/
theorem ringTransferMovesAvailable : Obligations.RingTransferMovesAvailable := by
  refine ⟨fun s p m hp hr hf hq hin hav hreads hm => hm ▸ exec_handlerEntry_ring hp hr hf hq hin hav hreads, ?_⟩
  intro s p av untilEnd a b rest hp hr hring hf hemu hd16 hw16 hd hw hlt hpast hav hasked huntil hfirst hsecond hscript
    ha hb hquiet
  obtain rfl : untilEnd = ringTop p := huntil
  obtain rfl : av = ringAsked p := by rw [ringAsked, ← hav, Nat.min_eq_left hasked.le]
  obtain ⟨htop, hcross, hlimit, hcursor⟩ := ringTop_distance hring hd16 hw16 hd hw hlt hpast
  rw [← hav] at hcross hcursor
  obtain ⟨hreads, u, v, hu, hv, hmoved⟩ := ringMoved_taken hemu hscript htop hcross ha hb hfirst hsecond
  have hch := ringEnded_ch_of_legs (s := { p with eng.state := .ready }) hring hw hw16 hlimit hcursor hr hu hv
  obtain ⟨-, heng, hout⟩ := hu.both (s := { p with eng.state := .ready }) hr hv
  have hframe := hu.frame.trans hv.frame
  have hpass : passed (ringEnded v) = ringEnded v :=
    passed_quiet (by rw [← hv.gif, ← hframe.vif] at hquiet; exact hquiet)
  have hentry := exec_handlerEntry_ring hp hr hf (by bv_omega) hd (by omega) hreads
  rw [Nat.add_sub_cancel' hcross.le] at hch heng
  rw [hmoved, hpass] at hentry
  have hmcyc : v.eng.mcyc = p.eng.mcyc + p.cfg.cycPerQw * ringAsked p := by rw [heng]
  have hchannel : channel v = .mfifo := by rw [channel, routed, hframe.dmac]; exact if_pos hr
  refine ⟨hcross, _, hentry, congrArg Channel.qwc hch, congrArg Channel.madr hch, congrArg Channel.tadr hch, hmcyc,
    ?cyc, ?out⟩
  case cyc => change v.eng.cyc = _; rw [heng]
  case out =>
    change v.out ++ [.reschedule (delay p (v.eng.mcyc - p.eng.mcyc)) (channel v)] = _
    rw [hout, hmcyc, Nat.add_sub_cancel_left, hchannel, List.append_assoc]
    rfl

end Sys2Proof.Claims

/-! PROOFS. The path coordinator (44_path_coordinator.md R113 to R118): a receiving unit with nothing to kick and nothing to
demote, the decision of the VIF gate under each policy, and the entry that each decision leads to. -/

namespace Sys2Proof.Claims

open Sys2Proof.Machine

/-! The kick and the demotion (44_path_coordinator.md R113, R114). -/

/-- With no completed transfer and no WAIT there is nothing to kick and nothing to demote. -/
theorem coordinated_of_settled {s : State} (hapath : s.gif.apath ≠ 3) (hwait : s.gif.p3 ≠ .wait) : coordinated s = s := by
  have hkick : kicked s = s := if_neg hapath
  rw [coordinated, hkick, if_neg hwait]

/-- The demotion leaves no WAIT, whatever the receiving unit answered to the kick. -/
theorem coordinated_not_wait (s : State) : (coordinated s).gif.p3 ≠ .wait := by
  unfold coordinated
  split
  · simp
  · assumption

/-- The kick and the demotion are done once, unless a completed transfer shows again. -/
theorem coordinated_idem {s : State} (h : (coordinated s).gif.apath ≠ 3) : coordinated (coordinated s) = coordinated s :=
  coordinated_of_settled h (coordinated_not_wait s)

@[simp] theorem coordinated_ch (s : State) : (coordinated s).ch = s.ch := by
  unfold coordinated kicked
  split_ifs <;> rfl

/-! The pre-pass (44_path_coordinator.md R115, R116). -/

/-- The pre-pass ends in the state of a whole pass, and decides on what the kick and the demotion leave. -/
theorem pathCheck_pre (s : State) : pathCheck .pre s = (passed s, (coordinated s).vgwDecision) := by
  rw [passed_eq, ← vgwDecision_pathNudge]
  rfl

/-- The pre-pass asks the state only through the kick and the demotion. -/
theorem pathCheck_pre_congr {s t : State} (h : coordinated s = coordinated t) : pathCheck .pre s = pathCheck .pre t := by
  rw [pathCheck_pre, pathCheck_pre, passed_eq, passed_eq, h]

/-- Two running channels that the kick and the demotion bring to the same state have the same entry. -/
theorem exec_handlerEntry_congr {s t : State} (hs : s.ch.chcr.str = true) (ht : t.ch.chcr.str = true)
    (h : coordinated s = coordinated t) : exec .handlerEntry s = exec .handlerEntry t := by
  simp [exec, execHandlerEntry, hs, ht, pathCheck_pre_congr h]

/-- An entry that the pre-pass suppresses ends there, with the outcome the gate gives it. -/
theorem exec_handlerEntry_suppressed {s : State} {o : EntryOutcome} (hstr : s.ch.chcr.str = true)
    (h : (coordinated s).vgwDecision = .suppress o) : exec .handlerEntry s = .next (endEntry (passed s, o)) := by
  simp only [exec, execHandlerEntry, hstr, pathCheck_pre, h]
  rfl

/-- Settles O39: the kick and the demotion change nothing of a state they have left, so the two pre-passes agree. -/
theorem coordinatorPass : Obligations.CoordinatorPass := by
  intro s hstr hapath
  exact exec_handlerEntry_congr hstr (by rwa [coordinated_ch]) (coordinated_idem hapath).symm

/-! The gate's decision (44_path_coordinator.md R115). -/

theorem vgwDecision_doc {s : State} (hgate : s.vifGated = true) (hpolicy : s.cfg.vgwPolicy = .doc) :
    s.vgwDecision = if s.gif.masked = true ∧ s.ch.qwc ≠ 0 then .suppress .idle else .go := by
  simp [State.vgwDecision, hgate, hpolicy]

theorem vgwDecision_yield {s : State} (hgate : s.vifGated = true) (hpolicy : s.cfg.vgwPolicy = .yield) :
    s.vgwDecision = if s.gif.masked = false ∨ s.ch.qwc = 0 then .suppress (.reschedule s.cfg.vgwDelay.val (channel s))
      else .suppress .idle := by
  simp [State.vgwDecision, hgate, hpolicy]
  rfl

/-! What the nudge leaves unchanged (44_path_coordinator.md R115). -/

@[simp] theorem nudged_ch (s : State) : (nudged s).ch = s.ch := by unfold nudged; split <;> rfl
@[simp] theorem nudged_eng (s : State) : (nudged s).eng = s.eng := by unfold nudged; split <;> rfl
@[simp] theorem nudged_fifo (s : State) : (nudged s).fifo = s.fifo := by unfold nudged; split <;> rfl
@[simp] theorem nudged_dmac (s : State) : (nudged s).dmac = s.dmac := by unfold nudged; split <;> rfl
@[simp] theorem nudged_cfg (s : State) : (nudged s).cfg = s.cfg := by unfold nudged; split <;> rfl

@[simp] theorem routed_nudged (s : State) : routed (nudged s) = routed s := by simp [routed]

@[simp] theorem channel_nudged (s : State) : channel (nudged s) = channel s := by simp [channel]

@[simp] theorem delay_nudged (s : State) (n : Nat) : delay (nudged s) n = delay s n := by simp [delay]

@[simp] theorem accumulated_nudged (e : Engine) (s : State) : accumulated e (nudged s) = accumulated e s := by
  simp [accumulated]

@[simp] theorem directSource_nudged (s : State) : directSource (nudged s) = directSource s := by
  simp [directSource, inRing]

/-! The entries that go on (45_handler.md R123, R125, R126). -/

theorem acc_variantAcc (s t : State) : t.acc s.variantAcc = accumulated t.eng s := by
  rw [accumulated, State.variantAcc, routed_eq]
  cases s.routed <;> rfl

/-- An entry that moves a segment, rescheduled for what it charged. -/
theorem exec_handlerEntry_segmentMoved {s p : State} (h : Enters s p) (hocc : p.fifo.occ = 0) (hq : p.ch.qwc ≠ 0)
    (hd : directSource p = true) (hr : segmentReads p = true) :
    exec .handlerEntry s = .next (rescheduled
      (delay p (accumulated (segmentMoved p).eng p - accumulated p.eng p)) (passed (segmentMoved p))) := by
  have hmoved := segmentTransfer_eq_segmentMoved hr
  have hcfg : (segmentMoved p).cfg = p.cfg := (BlockFrame.segmentTransfer _ hmoved).cfg
  rw [exec_handlerEntry_go h.1 (pathCheck_of_enters h), variantEntry_segment hocc hq ((directSource_iff p).1 hd), hmoved]
  simp only [Except.map, endEntry_transferred, acc_variantAcc, delay, hcfg]

/-- An entry of either variant with nothing held, nothing left and the packet done finalizes. -/
theorem variantEntry_finished {s : State} (hocc : s.fifo.occ = 0) (hq : s.ch.qwc = 0) (hdone : s.eng.done = true) :
    variantEntry s = .ok (finalize s, .complete) := by
  have hdue : s.tagDue = false := by simp [State.tagDue, hdone]
  unfold variantEntry
  split
  · simp [mfifoEntry, mfifoMove, hocc, hdue, hq, hdone]
  · simp [directEntry, hocc, hq, hdone]

theorem exec_handlerEntry_finished {s p : State} (h : Enters s p) (hocc : p.fifo.occ = 0) (hq : p.ch.qwc = 0)
    (hdone : p.eng.done = true) : exec .handlerEntry s = .next (finalized p) := by
  rw [exec_handlerEntry_go h.1 (pathCheck_of_enters h), variantEntry_finished hocc hq hdone]
  rfl

/-! The gated entry. -/

/-- Path 3 is idle with no completed transfer shown, and the VIF waits for it: the pass comes to the gate with nothing to
kick and nothing to demote. -/
structure Gated (s : State) : Prop where
  str : s.ch.chcr.str = true
  gate : s.vifGated = true
  coordinated : coordinated s = s

namespace Gated

variable {s : State}

theorem of_idle (hstr : s.ch.chcr.str = true) (hapath : s.gif.apath ≠ 3) (hidle : s.gif.p3 = .idle)
    (hvgw : s.vif.vgw = true) : Gated s where
  str := hstr
  gate := by simp [State.vifGated, hidle, hvgw]
  coordinated := coordinated_of_settled hapath (by simp [hidle])

theorem passed (h : Gated s) : passed s = nudged s := by
  rw [Claims.passed, h.coordinated, gate_eq, if_pos h.gate]

theorem suppressed (h : Gated s) {o : EntryOutcome} (hd : s.vgwDecision = .suppress o) :
    exec .handlerEntry s = .next (endEntry (nudged s, o)) := by
  rw [← h.passed]
  exact exec_handlerEntry_suppressed h.str (by rwa [h.coordinated])

theorem enters (h : Gated s) (hd : s.vgwDecision = .go) : Enters s (nudged s) :=
  ⟨h.str, (goesOn_iff s).2 (by rwa [h.coordinated]), h.passed.symm⟩

end Gated

/-- Settles O38: a gated entry is what the gate decides, ended where it is suppressed and its variant's, from the nudged
state, where it goes on. -/
theorem vifGate : Obligations.VifGate := by
  intro s hstr hapath hidle hvgw
  have h := Gated.of_idle hstr hapath hidle hvgw
  refine ⟨?masked, ?finished, ?lifted, ?yields, ?yieldsMasked⟩
  case masked =>
    intro hdoc hmasked hq
    exact h.suppressed (by rw [vgwDecision_doc h.gate hdoc, if_pos ⟨hmasked, hq⟩])
  case finished =>
    intro hdoc hocc hq hdone
    have hgo : s.vgwDecision = .go := by rw [vgwDecision_doc h.gate hdoc, if_neg (fun k => k.2 hq)]
    exact exec_handlerEntry_finished (h.enters hgo) (by simpa) (by simpa) (by simpa)
  case lifted =>
    rintro hdoc hmasked hocc hq hd hr m rfl
    have hgo : s.vgwDecision = .go := by rw [vgwDecision_doc h.gate hdoc, if_neg (by simp [hmasked])]
    have hentry := exec_handlerEntry_segmentMoved (h.enters hgo) (by simpa) (by simpa) (by simpa) hr
    simpa only [delay_nudged, accumulated_nudged, nudged_eng] using hentry
  case yields =>
    intro hyield hor
    rw [h.suppressed (by rw [vgwDecision_yield h.gate hyield, if_pos hor]), ← channel_nudged, endEntry_reschedule]
  case yieldsMasked =>
    intro hyield hmasked hq
    have hnor : ¬ (s.gif.masked = false ∨ s.ch.qwc = 0) := not_or.2 ⟨by simp [hmasked], hq⟩
    exact h.suppressed (by rw [vgwDecision_yield h.gate hyield, if_neg hnor])

end Sys2Proof.Claims

/-! PROOFS. The start of a DMA and the end of an entry (45_handler.md R119, R121, R126 to R129): what a fetch outputs and
leaves alone, the ways an entry may end, each with its outcome; the launch, Cancel, and the entry that finalizes. -/

namespace Sys2Proof.Machine

open Claims

/-! The fetch of tags (41_chain_tags.md R79, R92). -/

/-- The lines a fetch raises, by its result (41_chain_tags.md R92). -/
def fetchLines : FetchResult → List Output
  | .ok => []
  | .stalled => [.line .stall]
  | .fail => []

/-- `t` may follow `s` by fetching tags, the last of them with result `r`: nothing is output but that result's line, and
the Packet FIFO, the scheduler and the value returned stay. -/
structure FetchFrame (r : FetchResult) (s t : State) : Prop where
  out   : t.out = s.out ++ fetchLines r
  fifo  : t.fifo = s.fifo
  sched : t.sched = s.sched
  ret   : t.ret = s.ret

namespace FetchFrame

variable {s t u : State} {r : FetchResult}

theorem of_eq (hout : t.out = s.out) (hfifo : t.fifo = s.fifo) (hsched : t.sched = s.sched) (hret : t.ret = s.ret) :
    FetchFrame .ok s t := ⟨by rw [hout, fetchLines, List.append_nil], hfifo, hsched, hret⟩

theorem refl (s : State) : FetchFrame .ok s s := of_eq rfl rfl rfl rfl

theorem trans (h : FetchFrame .ok s t) (k : FetchFrame r t u) : FetchFrame r s u :=
  ⟨by rw [k.out, h.out, fetchLines, List.append_nil], k.fifo.trans h.fifo, k.sched.trans h.sched, k.ret.trans h.ret⟩

/-- A fetch that does not stall is silent. -/
theorem silent (h : FetchFrame r s t) (hr : r ≠ .stalled) : Silent s t := by
  have hlines : fetchLines r = [] := by
    cases r with
    | stalled => exact absurd rfl hr
    | ok | fail => rfl
  exact .of_eq (by rw [h.out, hlines, List.append_nil]) h.sched

theorem loadTag (a : Acc) (t : TagType) (f : TagFields) (s : State) : FetchFrame .ok s (loadTag a t f s) := by
  cases a <;> exact of_eq rfl rfl rfl rfl

theorem tagStep (t : TagType) (s : State) : FetchFrame .ok s (tagStep t s).1 := by
  cases t with
  | call => simp only [Machine.tagStep, stepCall]; split_ifs <;> exact of_eq rfl rfl rfl rfl
  | ret => simp only [Machine.tagStep, stepRet]; split_ifs <;> exact of_eq rfl rfl rfl rfl
  | refe | cnt | next | ref | refs | endTag => exact of_eq rfl rfl rfl rfl

theorem verdictTag (t : TagType) (x : State × Bool) : FetchFrame .ok x.1 (verdictTag t x) := by
  unfold Machine.verdictTag
  split <;> exact of_eq rfl rfl rfl rfl

theorem tagIrq (f : TagFields) (s : State) : FetchFrame .ok s (tagIrq f s) := by
  unfold Machine.tagIrq
  split <;> exact of_eq rfl rfl rfl rfl

theorem settleTag (a : Acc) (t : TagType) (f : TagFields) (x : State × Bool) :
    FetchFrame (settleTag a t f x).2 x.1 (settleTag a t f x).1 := by
  unfold Machine.settleTag
  split
  · exact (verdictTag t x).trans ⟨rfl, rfl, rfl, rfl⟩
  · exact ((verdictTag t x).trans (tagIrq f _)).trans (of_eq rfl rfl rfl rfl)

theorem walkTag {a : Acc} {t : TagType} {f : TagFields} (h : walkTag a t f s = .ok (u, r)) : FetchFrame r s u := by
  rw [walkTag_eq, walkWith] at h
  split at h
  · have hsettle := settleTag a t f (Machine.tagStep t (Machine.loadTag a t f s))
    injection h with h
    rw [h] at hsettle
    exact ((loadTag a t f s).trans (tagStep t _)).trans hsettle
  · cases h

theorem tagFetch {a : Acc} (h : tagFetch a s = .ok (u, r)) : FetchFrame r s u := by
  simp only [Machine.tagFetch] at h
  split at h
  · cases h; exact ⟨(List.append_nil _).symm, rfl, rfl, rfl⟩
  · split at h
    · cases h
    · split at h
      · exact walkTag h
      · cases h

theorem chainLoop {a : Acc} (n : Nat) : ∀ {s : State}, chainLoop a n s = .ok (u, r) → FetchFrame r s u := by
  induction n with
  | zero =>
    intro s h
    simp only [Machine.chainLoop] at h
    split at h
    · cases h
    · cases h; exact refl _
  | succ n ih =>
    intro s h
    simp only [Machine.chainLoop] at h
    split at h
    · split at h
      · cases h
      · rename_i hf; exact (tagFetch hf).trans (ih h)
      · rename_i hf; cases h; exact tagFetch hf
      · rename_i hf; cases h; exact tagFetch hf
    · cases h; exact refl _

end FetchFrame

/-! The requests (45_handler.md R119). -/

/-- `t` may follow `s` by work that requests no entry. -/
structure Requestless (s t : State) : Prop where
  out   : ∃ new, t.out = s.out ++ new ∧ new.filter isRequest = []
  entry : t.sched.entry = s.sched.entry

namespace Requestless

variable {s t u : State}

theorem of_silent (h : Silent s t) : Requestless s t := by
  obtain ⟨new, hout, hcall⟩ := h.out
  refine ⟨⟨new, hout, List.filter_eq_nil_iff.2 fun x hx => ?_⟩, h.entry⟩
  have hx := hcall x hx
  cases x with
  | reschedule => cases hx
  | line | vifNudge | transfer | execute => exact Bool.false_ne_true

/-- A line is no request. -/
theorem line (h : Requestless s t) {l : IntLine} (hout : u.out = t.out ++ [.line l]) (hsched : u.sched = t.sched) :
    Requestless s u := by
  obtain ⟨⟨new, hnew, hfilter⟩, hentry⟩ := h
  refine ⟨⟨new ++ [.line l], by rw [hout, hnew, List.append_assoc], ?_⟩, by rw [hsched, hentry]⟩
  rw [List.filter_append, hfilter]
  rfl

end Requestless

/-! The ways an entry may end (45_handler.md R119, R129). -/

/-- The ways in which an entry that starts in `s` may end, with the state it leaves before its end is recorded and the
outcome. Until then it only calls the consumer and nudges the VIF, but for the line that the way of its end raises. -/
inductive EntryEnd (s : State) : State → EntryOutcome → Prop
  /-- `Finalize`: nothing is held, nothing remains, and the chain is done (45_handler.md R126). -/
  | completes {t : State} (h : Silent s t) (hocc : t.fifo.occ = 0) (hq : t.ch.qwc = 0) (hdone : t.eng.done = true) :
      EntryEnd s (finalize t) .complete
  /-- A reschedule after work, or where the pre-pass yields (45_handler.md R120; 44_path_coordinator.md R115). -/
  | reschedules {t : State} {d : Nat} (h : Silent s t) (hd : 1 ≤ d) : EntryEnd s t (.reschedule d t.chan)
  /-- A tag that stalls (41_chain_tags.md R92). -/
  | stalls {t u : State} {d : Nat} (h : Silent s t) (hstall : FetchFrame .stalled t u) (hd : 1 ≤ d) :
      EntryEnd s u (.reschedule d u.chan)
  /-- A channel that does not run, or that the pre-pass suppresses (45_handler.md R122; 44_path_coordinator.md R115). -/
  | idles {t : State} (h : Silent s t) : EntryEnd s t .idle
  /-- An empty ring (43_mfifo.md R105). -/
  | empties {t : State} (h : Silent s t) : EntryEnd s (t.raise .mfifoEmpty) .idle
  /-- A tag that cannot be read (41_chain_tags.md R95). -/
  | aborts {t : State} (h : Silent s t) : EntryEnd s t (.abort .unmappedTag)

/-- `Resched` asks for at least one cycle: the work done, or MIN_DELAY (45_handler.md R119, R120). -/
theorem State.resched_delay (s : State) (a : Acc) (n : Nat) :
    ∃ d, 1 ≤ d ∧ s.resched a n = .reschedule d s.chan := by
  refine ⟨_, ?_, rfl⟩
  split
  · exact s.cfg.minDelay.property
  · omega

namespace EntryEnd

variable {s t u : State} {o : EntryOutcome}

/-- What went before an entry's last part and was silent leaves the way it ends. -/
theorem after (h : Silent s t) (k : EntryEnd t u o) : EntryEnd s u o := by
  cases k with
  | completes k hocc hq hdone => exact .completes (h.trans k) hocc hq hdone
  | reschedules k hd => exact .reschedules (h.trans k) hd
  | stalls k hstall hd => exact .stalls (h.trans k) hstall hd
  | idles k => exact .idles (h.trans k)
  | empties k => exact .empties (h.trans k)
  | aborts k => exact .aborts (h.trans k)

theorem resched (h : Silent s t) (a : Acc) (n : Nat) : EntryEnd s t (t.resched a n) := by
  obtain ⟨d, hd, hr⟩ := t.resched_delay a n
  exact hr ▸ .reschedules h hd

theorem stalled (h : Silent s t) (hstall : FetchFrame .stalled t u) (a : Acc) (n : Nat) :
    EntryEnd s u (u.resched a n) := by
  obtain ⟨d, hd, hr⟩ := u.resched_delay a n
  exact hr ▸ .stalls h hstall hd

/-- A transfer attempt ends with the post-pass and a reschedule (45_handler.md R123, R125). -/
theorem transferred (h : Silent s t) (a : Acc) (n : Nat) :
    EntryEnd s (afterTransfer a n t).1 (afterTransfer a n t).2 := resched (h.trans (.pathCheck .post t)) a n

theorem directEntry (h : directEntry s = .ok (u, o)) : EntryEnd s u o := by
  simp only [Machine.directEntry] at h
  split at h
  · cases h; exact transferred (.fifoDrain _ s) _ _
  · rename_i hocc
    split at h
    · split at h
      · cases h
      · rename_i hf; cases h; exact .aborts ((FetchFrame.chainLoop _ hf).silent (by decide))
      · rename_i hf; cases h; exact stalled (.refl s) (.chainLoop _ hf) _ _
      · rename_i hf
        have hloop := (FetchFrame.chainLoop _ hf).silent (by decide)
        split at h
        · split at h
          · cases h
          · rename_i ht; cases h; exact transferred (hloop.trans (.segmentTransfer _ ht)) _ _
        · cases h; exact transferred hloop _ _
    · rename_i hrest
      cases h
      simp only [Bool.or_eq_true, bne_iff_ne, Bool.not_eq_true', not_or, not_not, Bool.not_eq_false] at hrest
      exact .completes (.refl s) (Nat.eq_zero_of_not_pos hocc) hrest.1 hrest.2

theorem mfifoMove {n : Nat} (hocc : s.fifo.occ = 0) (h : mfifoMove n s = .ok (u, o)) : EntryEnd s u o := by
  simp only [Machine.mfifoMove] at h
  split at h
  · split at h
    · split at h
      · cases h
      · rename_i hr; cases h; exact .empties (.ringTransfer _ hr)
      · rename_i hr; cases h; exact transferred (.ringTransfer _ hr) _ _
    · split at h
      · cases h
      · rename_i ht; cases h; exact transferred (.segmentTransfer _ ht) _ _
  · rename_i hq
    split at h
    · rename_i hdone; cases h; exact .completes (.refl s) hocc (by simpa using hq) hdone
    · cases h; exact resched (.refl s) _ _

theorem mfifoEntry (h : mfifoEntry s = .ok (u, o)) : EntryEnd s u o := by
  have havail : Silent s (available s.ch.tadr s).1 := .of_eq rfl rfl
  simp only [Machine.mfifoEntry] at h
  split at h
  · cases h; exact transferred (.fifoDrain _ s) _ _
  · rename_i hocc
    split at h
    · split at h
      · cases h; exact .empties havail
      · split at h
        · cases h
        · rename_i hf; cases h; exact .aborts (havail.trans ((FetchFrame.tagFetch hf).silent (by decide)))
        · rename_i hf; cases h; exact stalled havail (.tagFetch hf) _ _
        · rename_i hf
          have hfetch := FetchFrame.tagFetch hf
          have hocc' : _ = 0 := (congrArg PacketFifo.occ hfetch.fifo).trans (Nat.eq_zero_of_not_pos hocc)
          exact (mfifoMove hocc' h).after (havail.trans (hfetch.silent (by decide)))
    · exact mfifoMove (Nat.eq_zero_of_not_pos hocc) h

theorem variantEntry (h : variantEntry s = .ok (u, o)) : EntryEnd s u o := by
  simp only [Machine.variantEntry] at h
  split at h
  · exact mfifoEntry h
  · exact directEntry h

/-- The gate suppresses an entry as Idle, or yields for VGW_DELAY (44_path_coordinator.md R115). -/
theorem suppressed (h : s.vgwDecision = .suppress o) : EntryEnd s s o := by
  simp only [State.vgwDecision] at h
  split at h
  · split at h
    · split at h <;> cases h
      exact .idles (.refl s)
    · split at h <;> cases h
      · exact .reschedules (.refl s) s.cfg.vgwDelay.property
      · exact .idles (.refl s)
  · cases h

/-- Every entry that answers a next state ends in one of these ways. -/
theorem handlerEntry (h : exec .handlerEntry s = .next u) : ∃ t o, EntryEnd s t o ∧ u = endEntry (t, o) := by
  have hpre : Silent s (pathCheck .pre s).1 := .pathCheck .pre s
  have hdecision : (pathCheck .pre s).1.vgwDecision = (pathCheck .pre s).2 := rfl
  simp only [exec, execHandlerEntry] at h
  split at h
  · cases h; exact ⟨s, .idle, .idles (.refl s), rfl⟩
  · split at h
    · rename_i hp
      rw [hp] at hpre hdecision
      cases h
      exact ⟨_, _, (suppressed hdecision).after hpre, rfl⟩
    · rename_i hp
      rw [hp] at hpre
      split at h
      · cases h
      · rename_i r hr
        cases h
        exact ⟨r.1, r.2, (variantEntry hr).after hpre, rfl⟩

/-- Until its end is recorded an entry has requested nothing. -/
theorem requestless (h : EntryEnd s t o) : Requestless s t := by
  cases h with
  | completes h => exact (Requestless.of_silent h).line (l := .complete) rfl rfl
  | reschedules h => exact .of_silent h
  | stalls h hstall => exact (Requestless.of_silent h).line hstall.out hstall.sched
  | idles h => exact .of_silent h
  | empties h => exact (Requestless.of_silent h).line (l := .mfifoEmpty) rfl rfl
  | aborts h => exact .of_silent h

theorem of_reschedule {d : Nat} {c : SchedChan} (h : EntryEnd s t (.reschedule d c)) : 1 ≤ d ∧ c = t.chan := by
  cases h with
  | reschedules _ hd => exact ⟨hd, rfl⟩
  | stalls _ _ hd => exact ⟨hd, rfl⟩

theorem of_complete (h : EntryEnd s t .complete) :
    ∃ v, t = finalize v ∧ v.fifo.occ = 0 ∧ v.ch.qwc = 0 ∧ v.eng.done = true := by
  cases h with
  | completes _ hocc hq hdone => exact ⟨_, rfl, hocc, hq, hdone⟩

end EntryEnd

end Sys2Proof.Machine

namespace Sys2Proof.Claims

open Sys2Proof.Machine

/-! The launch (45_handler.md R127; 70_reset_and_hazards.md R150). -/

theorem stallable_iff (t : TagType) : stallable t = true ↔ t = .ref ∨ t = .refs ∨ t = .refe := by
  cases t <;> decide

/-- `DmaStart` finds no broken premise exactly where each of its checks passes. -/
theorem brokenPremise_eq_none_iff (s : State) : s.brokenPremise = none ↔
    s.launchAligned = true ∧ s.cfg.stallIds.all stallable = true ∧
      s.cfg.chunks.all (fun c => decide (1 ≤ c.2 ∧ c.2 ≤ c.1)) = true ∧ s.cfg.stackDepth = 2 ∧ s.cfg.asWritten = true := by
  unfold State.brokenPremise
  generalize s.cfg.chunks.all _ = chunks
  split_ifs <;> simp_all

/-- The checks of `DmaStart` are the launch premises. -/
theorem launchable_iff (s : State) : launchable s ↔ s.brokenPremise = none := by
  simp only [launchable, brokenPremise_eq_none_iff, State.launchAligned, aligned_iff, Bool.and_eq_true, List.all_eq_true,
    stallable_iff, decide_eq_true_eq, Config.asWritten, Config.capacity, beq_iff_eq, and_assoc]

/-- Settles O23: under the launch premises none is broken, and the verdict is the statement's where every type has one
number. -/
theorem dmaStartEffect : Obligations.DmaStartEffect := by
  intro s hl hm
  simp only [exec, execDmaStart, (launchable_iff s).1 hl, State.launchEngine, ← startsDone_eq s hm]
  rfl

/-! The ends of an entry (45_handler.md R119, R126, R128, R129). -/

/-- Settles O25: an entry asks STR first. -/
theorem cancelThenIdle : Obligations.CancelThenIdle := fun _ => ⟨rfl, rfl⟩

/-- Settles O26: neither variant has a tag to fetch or data to move, so both come to `Finalize`. -/
theorem finalizeEntry : Obligations.FinalizeEntry := fun _ _ => exec_handlerEntry_finished

/-- Settles O35: what goes before an entry's end requests nothing, and its end requests where it is a reschedule. -/
theorem outcomeRequests : Obligations.OutcomeRequests := by
  intro s u h
  obtain ⟨t, o, hend, rfl⟩ := EntryEnd.handlerEntry h
  obtain ⟨⟨new, hout, hnew⟩, hentry⟩ := hend.requestless
  cases o with
  | reschedule d c =>
    obtain ⟨hd, rfl⟩ := hend.of_reschedule
    have hdmac : t.dmac = s.dmac := (BlockFrame.handlerEntry h).dmac
    have hchan : t.chan = channel s := by rw [channel, routed, ← hdmac]; rfl
    exact ⟨_, new ++ [.reschedule d t.chan], rfl, by rw [← List.append_assoc, ← hout]; rfl, hd, hchan, rfl,
      by rw [List.filter_append, hnew]; rfl, List.getLast?_concat⟩
  | complete | idle | abort => exact ⟨_, new, rfl, hout, hentry, hnew⟩

/-- Settles O37: an entry completes in `Finalize` alone, which raises COMPLETE last. -/
theorem completeMeansFinished : Obligations.CompleteMeansFinished := by
  intro s u h hret
  obtain ⟨t, o, hend, rfl⟩ := EntryEnd.handlerEntry h
  obtain rfl : o = .complete := by simpa using hret
  obtain ⟨v, rfl, hocc, hq, hdone⟩ := hend.of_complete
  refine ⟨?finished, rfl, List.getLast?_concat⟩
  simp [State.completed, endEntry, finalize, hocc, hq, hdone]

end Sys2Proof.Claims

/-! PROOFS. The entry with a tag due (45_handler.md R123 to R125): the fetch that `exec` runs is the one the variants make,
so the walk is the chain loop; then what an entry does with the state its tags leave. -/

namespace Sys2Proof.Claims

open Sys2Proof.Machine

theorem variantAcc_direct {s : State} (h : routed s = false) : s.variantAcc = .cyc :=
  if_neg (Bool.eq_false_iff.1 h)

theorem variantAcc_routed {s : State} (h : routed s = true) : s.variantAcc = .mcyc := if_pos h

/-! The tags an entry runs (41_chain_tags.md R79; 45_handler.md R124). -/

/-- The tag at TADR is read where the sixteen bytes there resolve to memory and decode. -/
theorem tagAt_eq_some {s : State} {i : Instr} (h : tagAt s = some i) :
    s.runMapped s.ch.tadr 1 = true ∧ ∃ rest, decode s.cfg.tagIds (s.runBytes s.ch.tadr 1) = .ok (i, rest) := by
  simp only [tagAt] at h
  split at h
  · rename_i hr
    refine ⟨hr, ?_⟩
    split at h
    · rename_i rest hd
      cases h
      exact ⟨rest, hd⟩
    · cases h
  · cases h

/-- A fetch as a step of its own is the fetch an entry makes, but for the value returned (log 19). -/
theorem fetchOutcome_eq_next {a : Acc} {s v : State} (h : fetchOutcome (tagFetch a s) = .next v) :
    ∃ r, v.ret = .fetch r ∧ tagFetch a s = .ok ({ v with ret := s.ret }, r) := by
  obtain ⟨u, r, hfetch, rfl⟩ := fetchOutcome_next h
  refine ⟨r, rfl, ?_⟩
  rw [hfetch, ← (FetchFrame.tagFetch hfetch).ret]
  rfl

/-- One fetch as `exec` runs it is the fetch an entry makes. -/
theorem tagFetch_of_fetchOne {s u : State} {r : FetchResult} (h : fetchOne s = some (u, r)) :
    tagFetch s.variantAcc s = .ok (u, r) := by
  cases hm : s.mapped s.ch.tadr with
  | false =>
    simp only [fetchOne, hm, Bool.false_eq_true, if_false, Option.some.injEq] at h
    rw [tagFetch_unmapped _ hm, h]
  | true =>
    simp only [fetchOne, hm, if_true] at h
    split at h
    · rename_i i hi
      obtain ⟨hr, rest, hd⟩ := tagAt_eq_some hi
      have hexec : exec i s = fetchOutcome (tagFetch s.variantAcc s) := by
        rw [← decodeAtTadr_run, decodeAtTadr_instr hm hr hd]
        rfl
      split at h
      · rename_i v hv
        obtain ⟨r', hret, hfetch⟩ := fetchOutcome_eq_next (v := v) (hexec ▸ hv)
        rw [hret] at h
        cases h
        exact hfetch
      · cases h
    · cases h

/-- The walk is the chain loop of the direct variant, which may have fetches to spare (45_handler.md R124). -/
theorem chainLoop_of_walked {t : State} {r : FetchResult} (n : Nat) :
    ∀ {s : State} {m : Nat}, n ≤ m → routed s = false → walked n s = some (t, r) → chainLoop .cyc m s = .ok (t, r) := by
  induction n with
  | zero =>
    intro s m _ _ h
    simp only [walked] at h
    split at h
    · cases h
    · rename_i hw
      cases h
      exact chainLoop_not_due _ m (Bool.eq_false_of_not_eq_true hw)
  | succ n ih =>
    intro s m hm hr h
    obtain ⟨m, rfl⟩ : ∃ k, m = k + 1 := ⟨m - 1, by omega⟩
    have hacc : s.variantAcc = .cyc := variantAcc_direct hr
    simp only [walked] at h
    split at h
    · rename_i hw
      rw [tagWanted_eq] at hw
      split at h
      · rename_i u hu
        have hfetch := tagFetch_of_fetchOne hu
        have hru : routed u = false := by rw [routed, (BlockFrame.tagFetch _ hfetch).dmac]; exact hr
        rw [hacc] at hfetch
        simp only [chainLoop, hw, if_true, hfetch]
        exact ih (by omega) hru h
      · rename_i hok
        have hfetch := tagFetch_of_fetchOne h
        rw [hacc] at hfetch
        simp only [chainLoop, hw, if_true, hfetch]
        cases r with
        | ok => exact absurd h (hok t)
        | stalled | fail => rfl
    · rename_i hw
      cases h
      exact chainLoop_not_due _ _ (Bool.eq_false_of_not_eq_true hw)

/-- A fetch as a step that returns Ok is the chain loop's next one. -/
theorem chainLoop_of_walk {s u : State} {n : Nat} (hr : routed s = false) (hw : tagWanted s = true)
    (h : walk s = .next u) (hret : u.ret = .fetch .ok) :
    chainLoop .cyc (n + 1) s = chainLoop .cyc n { u with ret := s.ret } := by
  have hacc := variantAcc_direct hr
  rw [routed_eq] at hr
  rw [tagWanted_eq] at hw
  have hfetched : fetchOutcome (tagFetch .cyc s) = .next u := by
    rw [← h, walk_eq s hw, hacc]
    simp [State.tagMissing, State.atFetch, hr]
  obtain ⟨r, hret', hfetch⟩ := fetchOutcome_eq_next (v := u) hfetched
  obtain rfl : r = .ok := by rw [hret] at hret'; cases hret'; rfl
  simp only [chainLoop, hw, if_true, hfetch]

/-- A configured bound leaves at least its fetches, and no bound leaves 2^98 (70_reset_and_hazards.md R151). -/
theorem le_loopFuel {cfg : Config} {n : Nat} (hk : ∀ k, cfg.loopFuel = some k → n ≤ k) (hn : n ≤ 2 ^ 98) :
    n ≤ loopFuel cfg := by
  unfold loopFuel
  cases h : cfg.loopFuel with
  | none => exact hn
  | some k => exact hk k h

/-- Asking the ring for the tag changes nothing but the engine's coarse state (43_mfifo.md R104, R108). -/
theorem frame_atTag {s : State} (h : tagThere s = true) : BlockFrame s (atTag s) :=
  atTag_eq s h ▸ BlockFrame.atFetch s

/-! What an entry does after its tags (45_handler.md R123, R125). -/

/-- What either variant makes of its tags' result, in the state they leave: it aborts, it reschedules for the work since
`n` cycles, or it goes on to `move`. -/
def afterTags (a : Acc) (n : Nat) (move : Except Refusal (State × EntryOutcome)) (t : State) :
    FetchResult → Except Refusal (State × EntryOutcome)
  | .ok => move
  | .stalled => .ok (t, t.resched a n)
  | .fail => .ok (t, .abort .unmappedTag)

/-- What the direct variant does after its tags: it moves the segment that is set up, if any (45_handler.md R123). -/
def directMove (n : Nat) (t : State) : Except Refusal (State × EntryOutcome) :=
  if t.ch.qwc = 0 then .ok (afterTransfer .cyc n t) else (segmentTransfer .cyc t).map (afterTransfer .cyc n)

/-- A direct entry with something to do is its chain loop and what follows the loop's result (45_handler.md R123). -/
theorem variantEntry_walked {s t : State} {r : FetchResult} (hr : routed s = false) (hocc : s.fifo.occ = 0)
    (hdue : s.ch.qwc ≠ 0 ∨ s.eng.done = false) (hloop : chainLoop .cyc (loopFuel s.cfg) s = .ok (t, r)) :
    variantEntry s = afterTags .cyc s.eng.cyc (directMove s.eng.cyc t) t r := by
  have hdue' : (s.ch.qwc != 0 || !s.eng.done) = true := by simpa using hdue
  rw [routed_eq] at hr
  simp only [variantEntry, hr, directEntry, hocc, hdue', hloop]
  cases r with
  | ok => cases hmove : segmentTransfer .cyc t <;> simp [afterTags, directMove, hmove, Except.map]
  | stalled | fail => simp [afterTags]

/-- A routed entry with a tag due that the ring has is the fetch and what follows its result (45_handler.md R125). -/
theorem variantEntry_fetched {s t : State} {r : FetchResult} (hr : routed s = true) (hocc : s.fifo.occ = 0)
    (hw : tagWanted s = true) (ht : tagThere s = true) (hfetch : tagFetch .mcyc (atTag s) = .ok (t, r)) :
    variantEntry s = afterTags .mcyc s.eng.mcyc (mfifoMove s.eng.mcyc t) t r := by
  have hthere : (available s.ch.tadr s).2 ≠ 0 := by simpa [tagThere, hr, availableAt_eq, available] using ht
  rw [routed_eq] at hr
  rw [atTag_eq s ht, State.atFetch, if_pos hr] at hfetch
  rw [tagWanted_eq] at hw
  simp only [variantEntry, hr, mfifoEntry, hocc, hw, hthere, hfetch]
  cases r <;> simp [afterTags]

/-- With nothing to move a routed entry finalizes or reschedules (45_handler.md R125). -/
theorem mfifoMove_nothing {s : State} (n : Nat) (hq : s.ch.qwc = 0) :
    mfifoMove n s = if s.eng.done then .ok (finalize s, .complete) else .ok (s, s.resched .mcyc n) := by
  simp [mfifoMove, hq]

/-- What a segment moved leaves alone, in its closed form. -/
theorem frame_segmentMoved {s : State} (h : segmentReads s = true) : BlockFrame s (segmentMoved s) :=
  .segmentTransfer _ (segmentTransfer_eq_segmentMoved h)

/-- What a ring transfer leaves alone, in its closed form. -/
theorem frame_ringMoved {s : State} (hq : s.ch.qwc ≠ 0) (hav : availableAt s s.ch.madr ≠ 0) (h : ringReads s = true) :
    BlockFrame s (ringMoved s) := .ringTransfer _ (ringTransfer_eq_ringMoved hq hav h)

/-- A direct entry moves the segment that is set up (45_handler.md R123). -/
theorem directMove_segment {s : State} (n : Nat) (hr : routed s = false) (hq : s.ch.qwc ≠ 0)
    (h : segmentReads s = true) : directMove n s = .ok (afterTransfer .cyc n (segmentMoved s)) := by
  have hmoved := segmentTransfer_eq_segmentMoved h
  rw [variantAcc_direct hr] at hmoved
  rw [directMove, if_neg hq, hmoved]
  rfl

/-- Data out of the window are moved as in the direct variant (43_mfifo.md R107). -/
theorem mfifoMove_outside {s : State} (n : Nat) (hr : routed s = true) (hq : s.ch.qwc ≠ 0)
    (hin : inRing s s.ch.madr = false) (h : segmentReads s = true) :
    mfifoMove n s = .ok (afterTransfer .mcyc n (segmentMoved s)) := by
  have hz : s.ch.qwc ≠ 0#16 := hq
  have hmoved := segmentTransfer_eq_segmentMoved h
  rw [variantAcc_routed hr] at hmoved
  rw [inRing_eq] at hin
  simp [mfifoMove, hz, hin, hmoved]

/-- Data in the window wait for the ring where it has nothing (43_mfifo.md R105). -/
theorem mfifoMove_empty {s : State} (n : Nat) (hq : s.ch.qwc ≠ 0) (hin : inRing s s.ch.madr = true)
    (hnone : availableAt s s.ch.madr = 0) :
    mfifoMove n s = .ok ((s.setEng { s.eng with state := .empty }).raise .mfifoEmpty, .idle) := by
  have hz : s.ch.qwc ≠ 0#16 := hq
  rw [inRing_eq] at hin
  simp [mfifoMove, hz, hin, ringTransfer_empty .mcyc hnone]

/-- Data in the window are the ring's to move (43_mfifo.md R106). -/
theorem mfifoMove_inside {s : State} (n : Nat) (hr : routed s = true) (hq : s.ch.qwc ≠ 0)
    (hin : inRing s s.ch.madr = true) (hav : availableAt s s.ch.madr ≠ 0) (h : ringReads s = true) :
    mfifoMove n s = .ok (afterTransfer .mcyc n (ringMoved s)) := by
  have hz : s.ch.qwc ≠ 0#16 := hq
  have hmoved := ringTransfer_eq_ringMoved hq hav h
  rw [variantAcc_routed hr] at hmoved
  rw [inRing_eq] at hin
  simp [mfifoMove, hz, hin, hmoved]

/-! The ends of such an entry (45_handler.md R119, R120). -/

section

variable {s p t : State} (hp : Enters s p)

include hp

theorem exec_handlerEntry_ended {x : State × EntryOutcome} (hx : variantEntry p = .ok x) :
    exec .handlerEntry s = .next (endEntry x) := by
  rw [exec_handlerEntry_go hp.1 (pathCheck_of_enters hp), hx]

/-- An entry that only reschedules, for the work since its start. -/
theorem exec_handlerEntry_resched (a : Acc) (hcfg : t.cfg = p.cfg)
    (ht : variantEntry p = .ok (t, t.resched a (p.acc a))) :
    exec .handlerEntry s = .next (rescheduled (delay p (t.acc a - p.acc a)) t) := by
  have hdelay : (if t.acc a - p.acc a = 0 then t.cfg.minDelay.val else t.acc a - p.acc a) =
      delay p (t.acc a - p.acc a) := by
    rw [hcfg, delay]
    split <;> split <;> omega
  rw [exec_handlerEntry_ended hp ht, State.resched, hdelay]
  rfl

/-- An entry that has transferred runs the post-pass, and reschedules for the work since its start. -/
theorem exec_handlerEntry_transferred (a : Acc) (hcfg : t.cfg = p.cfg)
    (ht : variantEntry p = .ok (afterTransfer a (p.acc a) t)) :
    exec .handlerEntry s = .next (rescheduled (delay p (t.acc a - p.acc a)) (passed t)) := by
  have hdelay : delay t (t.acc a - p.acc a) = delay p (t.acc a - p.acc a) := by rw [delay, hcfg]; rfl
  rw [exec_handlerEntry_ended hp ht, endEntry_transferred, hdelay]

/-- In normal mode a routed entry with nothing to move and not done waits for MIN_DELAY (45_handler.md R125). -/
theorem exec_handlerEntry_nothing (hr : routed p = true) (hocc : p.fifo.occ = 0) (hmod : p.ch.chcr.mod ≠ 1)
    (hq : p.ch.qwc = 0) (hdone : p.eng.done = false) :
    exec .handlerEntry s = .next (rescheduled p.cfg.minDelay.val p) := by
  have hmode : p.chainMode = false := beq_false_of_ne hmod
  have hdue : p.tagDue = false := by simp [State.tagDue, hmode]
  have hentry : variantEntry p = .ok (p, p.resched .mcyc p.eng.mcyc) := by
    rw [routed_eq] at hr
    simp [variantEntry, hr, mfifoEntry, hocc, hdue, mfifoMove_nothing _ hq, hdone]
  have hdelay : delay p (p.acc .mcyc - p.acc .mcyc) = p.cfg.minDelay.val := by rw [Nat.sub_self]; rfl
  rw [exec_handlerEntry_resched hp .mcyc rfl hentry, hdelay]

end

/-- Settles O60: the tags that `exec` runs are the fetches of the variant, which goes on from the state they leave by the
closed forms of the transfers. -/
theorem handlerRunsTags : Obligations.HandlerRunsTags := by
  refine ⟨?direct, ?ring, fun s p => exec_handlerEntry_nothing, fun s u n => chainLoop_of_walk⟩
  case direct =>
    intro s p t n r hp hr hocc hdue hk hn hwalked
    have hloop := chainLoop_of_walked n (le_loopFuel hk hn) hr hwalked
    have hframe := BlockFrame.chainLoop _ _ hloop
    have hrt : routed t = false := by rw [routed, hframe.dmac]; exact hr
    have hentry := variantEntry_walked hr hocc hdue hloop
    refine ⟨?stalled, ?fail, ?bare, ?segment⟩
    case stalled =>
      rintro rfl
      exact ⟨(FetchFrame.chainLoop _ hloop).out, exec_handlerEntry_resched hp .cyc hframe.cfg hentry⟩
    case fail =>
      rintro rfl
      exact exec_handlerEntry_ended hp hentry
    case bare =>
      rintro rfl hq
      rw [afterTags, directMove, if_pos hq] at hentry
      exact exec_handlerEntry_transferred hp .cyc hframe.cfg hentry
    case segment =>
      rintro rfl hq hreads m rfl
      rw [afterTags, directMove_segment _ hrt hq hreads] at hentry
      exact exec_handlerEntry_transferred hp .cyc (hframe.trans (frame_segmentMoved hreads)).cfg hentry
  case ring =>
    intro s p t r hp hr hocc hw hthere hone
    have hfetch := tagFetch_of_fetchOne hone
    rw [variantAcc_of_dmac (frame_atTag hthere).dmac, variantAcc_routed hr] at hfetch
    have hframe := (frame_atTag hthere).trans (.tagFetch _ hfetch)
    have hrt : routed t = true := by rw [routed, hframe.dmac]; exact hr
    have hentry := variantEntry_fetched hr hocc hw hthere hfetch
    refine ⟨?stalled, ?fail, ?bare, ?finished, ?outside, ?empty, ?inside⟩
    case stalled =>
      rintro rfl
      have hout : (atTag p).out = p.out := by rw [atTag, if_pos hr]
      exact ⟨hout ▸ (FetchFrame.tagFetch hfetch).out, exec_handlerEntry_resched hp .mcyc hframe.cfg hentry⟩
    case fail =>
      rintro rfl
      exact exec_handlerEntry_ended hp hentry
    case bare =>
      rintro rfl hq hdone
      rw [afterTags, mfifoMove_nothing _ hq, hdone] at hentry
      exact exec_handlerEntry_resched hp .mcyc hframe.cfg hentry
    case finished =>
      rintro rfl hq hdone
      rw [afterTags, mfifoMove_nothing _ hq, hdone] at hentry
      exact exec_handlerEntry_ended hp hentry
    case outside =>
      rintro rfl hq hin hreads m rfl
      rw [afterTags, mfifoMove_outside _ hrt hq hin hreads] at hentry
      exact exec_handlerEntry_transferred hp .mcyc (hframe.trans (frame_segmentMoved hreads)).cfg hentry
    case empty =>
      rintro rfl hq hin hnone
      rw [afterTags, mfifoMove_empty _ hq hin hnone] at hentry
      exact exec_handlerEntry_ended hp hentry
    case inside =>
      rintro rfl hq hin hav hreads m rfl
      rw [afterTags, mfifoMove_inside _ hrt hq hin hav hreads] at hentry
      exact exec_handlerEntry_transferred hp .mcyc (hframe.trans (frame_ringMoved hq hav hreads)).cfg hentry

end Sys2Proof.Claims

/-! PROOFS. What an entry raises and what a snapshot holds (60_exceptions.md R134, R141). -/

namespace Sys2Proof.Machine

open Claims

/-! The lines of an entry (60_exceptions.md R134). -/

/-- `t` may follow `s` by work that outputs the lines `lines` in their order, and no other line. -/
def Raises (s t : State) (lines : List Output) : Prop := ∃ new, t.out = s.out ++ new ∧ new.filter isLine = lines

namespace Raises

variable {s t u : State} {lines : List Output}

theorem of_silent (h : Silent s t) : Raises s t [] := by
  obtain ⟨new, hout, hcall⟩ := h.out
  refine ⟨new, hout, List.filter_eq_nil_iff.2 fun x hx => ?_⟩
  have hx := hcall x hx
  cases x with
  | line => cases hx
  | reschedule | vifNudge | transfer | execute => exact Bool.false_ne_true

/-- One more output counts where it is a line. -/
theorem concat (h : Raises s t lines) {x : Output} (hout : u.out = t.out ++ [x]) :
    Raises s u (lines ++ [x].filter isLine) := by
  obtain ⟨new, hnew, hfilter⟩ := h
  exact ⟨new ++ [x], by rw [hout, hnew, List.append_assoc], by rw [List.filter_append, hfilter]⟩

/-- Recording an entry's outcome raises no line: a reschedule's request is none. -/
theorem endEntry (h : Raises s t lines) (o : EntryOutcome) : Raises s (endEntry (t, o)) lines := by
  cases o with
  | reschedule d c =>
    rw [← List.append_nil lines]
    exact h.concat (x := .reschedule d c) rfl
  | complete | idle | abort => exact h

end Raises

/-- The lines that an entry may raise, by its outcome (60_exceptions.md R134). -/
def EntryOutcome.MayRaise : EntryOutcome → List Output → Prop
  | .complete, lines => lines = [.line .complete]
  | .reschedule _ _, lines => lines = [] ∨ lines = [.line .stall]
  | .idle, lines => lines = [] ∨ lines = [.line .mfifoEmpty]
  | .abort _, lines => lines = []

/-- Each way of ending an entry raises its own line or none. -/
theorem EntryEnd.raises {s t : State} {o : EntryOutcome} (h : EntryEnd s t o) :
    ∃ lines, o.MayRaise lines ∧ Raises s t lines := by
  cases h with
  | completes h => exact ⟨_, rfl, (Raises.of_silent h).concat (x := .line .complete) rfl⟩
  | reschedules h => exact ⟨_, .inl rfl, .of_silent h⟩
  | stalls h hstall => exact ⟨_, .inr rfl, (Raises.of_silent h).concat (x := .line .stall) hstall.out⟩
  | idles h => exact ⟨_, .inl rfl, .of_silent h⟩
  | empties h => exact ⟨_, .inr rfl, (Raises.of_silent h).concat (x := .line .mfifoEmpty) rfl⟩
  | aborts h => exact ⟨_, rfl, .of_silent h⟩

end Sys2Proof.Machine

namespace Sys2Proof.Claims

open Sys2Proof.Machine

/-- Settles O36: the way an entry ends fixes its lines, and recording its outcome adds none. -/
theorem oneLinePerEntry : Obligations.OneLinePerEntry := by
  intro s u h
  obtain ⟨t, o, hend, rfl⟩ := EntryEnd.handlerEntry h
  obtain ⟨lines, hmay, hraises⟩ := hend.raises
  obtain ⟨new, hout, rfl⟩ := hraises.endEntry o
  refine ⟨o, new, endEntry_ret t o, hout, ?_⟩
  cases o with
  | complete | reschedule | idle | abort => exact hmay

/-! Persistence (60_exceptions.md R141). -/

/-- A restore of the block that the state itself holds changes only the value returned. -/
theorem exec_restore_savedBlock (s : State) (r : Returned) :
    exec (.restore s.savedBlock) (s.returning r) = .next (s.returning .unit) := rfl

/-- Settles O45: what a snapshot returns is the block's state, and a restore puts back what it is given. -/
theorem snapshotRestore : Obligations.SnapshotRestore :=
  fun s _ => ⟨rfl, rfl, exec_restore_savedBlock s (.saved s.savedBlock)⟩

end Sys2Proof.Claims

/-! PROOFS. What a launch checks, and the spec's own encodings (70_reset_and_hazards.md R150; 95_test_vectors.md). -/

namespace Sys2Proof.Claims

open Sys2Proof.Machine

/-! The checks of a launch (70_reset_and_hazards.md R150). -/

/-- Settles O24: `DmaStart` asks for a broken premise, and the checks are the launch premises. -/
theorem dmaStartChecksPremises : Obligations.DmaStartChecksPremises := by
  intro s
  constructor
  · intro hl
    simp only [exec, execDmaStart, (launchable_iff s).1 hl]
    exact ⟨_, rfl⟩
  · intro hl
    obtain ⟨p, hp⟩ := Option.ne_none_iff_exists'.1 (mt (launchable_iff s).2 hl)
    exact ⟨p, by simp only [exec, execDmaStart, hp]⟩

/-! The spec's table of encodings (95_test_vectors.md section 2). -/

/-- Settles O57: each of the five words is run through the decoder. -/
theorem tableWordsDecode : Obligations.TableWordsDecode := by
  unfold Obligations.TableWordsDecode
  decide

end Sys2Proof.Claims

/-! PROOFS. The bound on a chain loop's fetches (70_reset_and_hazards.md R151; log 11). Within one entry TADR, ASR0, ASR1 and
ASP alone decide where the loop goes, so the sets of their values from which it comes to an end within `n` fetches grow with
`n`, and stay once two of them in a row are the same. -/

namespace Sys2Proof.Machine

open Claims

/-! What steers the loop (41_chain_tags.md R79, R92). -/

/-- The part of a state that a tag which has been loaded works on, as far as later fetches go. -/
def State.walkView (s : State) : State :=
  { State.reset with
    ch := { s.ch with chcr := { s.ch.chcr with dir := false, tte := false, str := false, tag := 0 } }
    eng := { zeroEngine with done := s.eng.done }
    dmac := s.dmac
    mem := s.mem
    cfg := s.cfg }

/-- The part of a state that the fetches to come depend on: a tag's load replaces MADR. -/
def State.loopView (s : State) : State := s.walkView.setCh { s.walkView.ch with madr := 0 }

/-- The verdict or the result with `walkView` of its state. -/
def viewed {α : Type} (x : State × α) : State × α := (x.1.walkView, x.2)

theorem loadTag_walkView (a : Acc) (k : TagType) (f : TagFields) (s : State) :
    (loadTag a k f s.loopView).walkView = (loadTag a k f s).walkView := by
  cases a <;> rfl

theorem tagStep_walkView (k : TagType) (s : State) : viewed (tagStep k s.walkView) = viewed (tagStep k s) := by
  cases k with
  | call => simp only [tagStep, stepCall, apply_ite viewed]; rfl
  | ret => simp only [tagStep, stepRet, apply_ite viewed]; rfl
  | refe | cnt | next | ref | refs | endTag => rfl

theorem verdictTag_walkView (k : TagType) (x : State × Bool) :
    (verdictTag k (viewed x)).walkView = (verdictTag k x).walkView := by
  simp only [verdictTag, apply_ite State.walkView]
  rfl

theorem tagIrq_walkView (f : TagFields) (s : State) : (tagIrq f s.walkView).walkView = (tagIrq f s).walkView := by
  simp only [tagIrq, apply_ite State.walkView]
  rfl

variable {a : Acc} {s t u : State} {n : Nat}

theorem settleTag_viewed (k : TagType) (f : TagFields) {x y : State × Bool} (h : viewed x = viewed y) :
    viewed (settleTag a k f x) = viewed (settleTag a k f y) := by
  have hview : (verdictTag k x).walkView = (verdictTag k y).walkView := by
    rw [← verdictTag_walkView, h, verdictTag_walkView]
  have hdue : (verdictTag k x).stallDue k = (verdictTag k y).stallDue k := congrArg (·.stallDue k) hview
  unfold settleTag
  rw [hdue]
  split
  · exact (congrArg (fun s => ((stall a s).walkView, FetchResult.stalled)) hview :)
  · have hirq : (tagIrq f (verdictTag k x)).walkView = (tagIrq f (verdictTag k y)).walkView := by
      rw [← tagIrq_walkView, hview, tagIrq_walkView]
    exact congrArg (fun s => (s, FetchResult.ok)) hirq

/-- A tag does the same to states of which the loop sees the same. -/
theorem walkTag_loopView {k : TagType} {f : TagFields} {r : FetchResult} (h : s.loopView = t.loopView)
    (hs : walkTag a k f s = .ok (u, r)) : ∃ v, walkTag a k f t = .ok (v, r) ∧ u.loopView = v.loopView := by
  have hload : (loadTag a k f s).walkView = (loadTag a k f t).walkView := by
    rw [← loadTag_walkView, h, loadTag_walkView]
  have hstep : viewed (tagStep k (loadTag a k f s)) = viewed (tagStep k (loadTag a k f t)) := by
    rw [← tagStep_walkView, hload, tagStep_walkView]
  have hsettle := settleTag_viewed (a := a) k f hstep
  rw [walkTag_eq, walkWith] at hs ⊢
  split at hs
  next halign =>
    injection hs with hs
    rw [hs] at hsettle
    obtain ⟨hview, hresult⟩ := Prod.mk.inj hsettle
    refine ⟨_, by rw [if_pos halign]; exact congrArg Except.ok (Prod.ext rfl hresult.symm), ?_⟩
    exact congrArg (fun s => s.setCh { s.ch with madr := 0 }) hview
  next => cases hs

/-- A fetch finds the same, and leaves the same, in states of which the loop sees the same. -/
theorem tagFetch_loopView {r : FetchResult} (h : s.loopView = t.loopView) (hs : tagFetch a s = .ok (u, r)) :
    ∃ v, tagFetch a t = .ok (v, r) ∧ u.loopView = v.loopView := by
  have hmapped : s.mapped s.ch.tadr = t.mapped t.ch.tadr := congrArg (fun s => s.mapped s.ch.tadr) h
  have hrun : s.runMapped s.ch.tadr 1 = t.runMapped t.ch.tadr 1 := congrArg (fun s => s.runMapped s.ch.tadr 1) h
  have hbytes : s.runBytes s.ch.tadr 1 = t.runBytes t.ch.tadr 1 := congrArg (fun s => s.runBytes s.ch.tadr 1) h
  have hcfg : s.cfg = t.cfg := (congrArg State.cfg h :)
  simp only [tagFetch, State.run, hmapped, hrun, hbytes, hcfg] at hs ⊢
  split at hs
  next hm =>
    cases hs
    exact ⟨tagFail t, if_pos hm, (congrArg (fun s => (tagFail s).loopView) h :)⟩
  next hm =>
    rw [if_neg hm]
    cases hr : t.runMapped t.ch.tadr 1 with
    | false => simp [hr] at hs
    | true =>
      simp only [hr, if_true] at hs ⊢
      cases hk : tagOfQuad t.cfg.tagIds (quadOfBytes (t.runBytes t.ch.tadr 1)) with
      | none => simp [hk] at hs
      | some kf =>
        rw [hk] at hs
        exact walkTag_loopView h hs

/-- No fetch by itself is divergence. -/
theorem tagFetch_ne_diverged (a : Acc) (s l : State) : tagFetch a s ≠ .error (.diverged l) := by
  intro h
  simp only [tagFetch, State.run] at h
  split at h
  · cases h
  · split at h
    · rename_i hr
      split at hr <;> cases hr
      cases h
    · split at h
      · rw [walkTag_eq, walkWith] at h
        split at h <;> cases h
      · cases h

/-! The loop that does not end within `n` fetches (45_handler.md R124). -/

/-- The chain loop calls `n` fetches from `s` divergence. -/
def Diverges (a : Acc) (n : Nat) (s : State) : Prop := ∃ l, chainLoop a n s = .error (.diverged l)

theorem diverges_zero : Diverges a 0 s ↔ s.tagDue = true := by
  cases hdue : s.tagDue <;> simp [Diverges, chainLoop, hdue]

theorem diverges_succ : Diverges a (n + 1) s ↔
    s.tagDue = true ∧ ∃ u, tagFetch a s = .ok (u, .ok) ∧ Diverges a n u := by
  cases hdue : s.tagDue with
  | false => simp [Diverges, chainLoop, hdue]
  | true =>
    cases hfetch : tagFetch a s with
    | error r =>
      have hr : ∀ l, r ≠ .diverged l := fun l hl => tagFetch_ne_diverged a s l (hl ▸ hfetch)
      simp [Diverges, chainLoop, hdue, hfetch, hr]
    | ok x =>
      obtain ⟨u, r⟩ := x
      cases r <;> simp [Diverges, chainLoop, hdue, hfetch]

theorem Diverges.tagDue (h : Diverges a n s) : s.tagDue = true := by
  cases n with
  | zero => exact diverges_zero.1 h
  | succ n => exact (diverges_succ.1 h).1

theorem Diverges.of_succ : ∀ {n : Nat} {s : State}, Diverges a (n + 1) s → Diverges a n s
  | 0, _, h => diverges_zero.2 h.tagDue
  | n + 1, _, h => by
    obtain ⟨hdue, u, hfetch, hu⟩ := diverges_succ.1 h
    exact diverges_succ.2 ⟨hdue, u, hfetch, hu.of_succ⟩

theorem Diverges.of_loopView : ∀ {n : Nat} {s t : State}, s.loopView = t.loopView → Diverges a n s → Diverges a n t
  | 0, s, t, h, hs => diverges_zero.2 ((congrArg State.tagDue h :).symm.trans hs.tagDue)
  | n + 1, s, t, h, hs => by
    obtain ⟨hdue, u, hfetch, hu⟩ := diverges_succ.1 hs
    obtain ⟨v, hfetch', hview⟩ := tagFetch_loopView h hfetch
    exact diverges_succ.2 ⟨(congrArg State.tagDue h :).symm.trans hdue, v, hfetch', hu.of_loopView hview⟩

/-! Where the loop is (41_chain_tags.md R79). -/

/-- The registers that a chain's tags move about in, TADR, ASR0, ASR1 and ASP: 2^98 values. -/
abbrev WalkPoint := Addr × Addr × Addr × BitVec 2

def State.walkPoint (s : State) : WalkPoint := (s.ch.tadr, s.ch.asr0, s.ch.asr1, s.ch.chcr.asp)

/-- The state with the chain at `p`. -/
def State.atPoint (s : State) : WalkPoint → State
  | (tadr, asr0, asr1, asp) =>
    s.setCh { s.ch with tadr := tadr, asr0 := asr0, asr1 := asr1, chcr := { s.ch.chcr with asp := asp } }

theorem frame_atPoint (s : State) (p : WalkPoint) : BlockFrame s (s.atPoint p) := BlockFrame.setCh _ _ rfl rfl rfl rfl id

theorem card_bitVec (w : Nat) : Nat.card (BitVec w) = 2 ^ w :=
  (Nat.card_congr BitVec.equivFin.toEquiv).trans (Nat.card_fin _)

theorem card_walkPoint : Nat.card WalkPoint = 2 ^ 98 := by
  simp only [WalkPoint, Nat.card_prod, card_bitVec, ← Nat.pow_add]

/-- Between two states of one entry in which a tag is due, the point is all that the loop can see a difference in. -/
theorem loopView_atPoint (h : BlockFrame s u) (hs : s.tagDue = true) (hu : u.tagDue = true) :
    (s.atPoint u.walkPoint).loopView = u.loopView := by
  simp only [State.tagDue, Bool.and_eq_true, beq_iff_eq, Bool.not_eq_true'] at hs hu
  simp [State.loopView, State.walkView, State.atPoint, State.walkPoint, h.mem, h.cfg, h.dmac, h.mod, h.tie, hs, hu,
    State.setCh]

/-- The points from which `n` fetches are not divergence, with the rest of the state as in `s`. -/
def endingPoints (a : Acc) (s : State) (n : Nat) : Set WalkPoint := {p | ¬ Diverges a n (s.atPoint p)}

theorem endingPoints_mono (a : Acc) (s : State) : Monotone (endingPoints a s) :=
  monotone_nat_of_le_succ fun _ _ => mt Diverges.of_succ

/-- Later in the entry, divergence is to have a tag due at a point that is not an ending one. -/
theorem diverges_iff_walkPoint (h : BlockFrame s u) (hs : s.tagDue = true) :
    Diverges a n u ↔ u.tagDue = true ∧ u.walkPoint ∉ endingPoints a s n := by
  simp only [endingPoints, Set.mem_ofPred_eq, not_not]
  constructor
  · exact fun hu => ⟨hu.tagDue, hu.of_loopView (loopView_atPoint h hs hu.tagDue).symm⟩
  · exact fun ⟨hdue, hp⟩ => hp.of_loopView (loopView_atPoint h hs hdue)

/-- The ending points for one fetch more depend on the ending points alone, by what each point's fetch leads to. -/
theorem endingPoints_succ_congr {m : Nat} (hs : s.tagDue = true) (h : endingPoints a s m = endingPoints a s n) :
    endingPoints a s (m + 1) = endingPoints a s (n + 1) := by
  have hfetch : ∀ p u, tagFetch a (s.atPoint p) = .ok (u, .ok) → (Diverges a m u ↔ Diverges a n u) := by
    intro p u hu
    have hframe := (frame_atPoint s p).trans (.tagFetch a hu)
    rw [diverges_iff_walkPoint hframe hs, h, diverges_iff_walkPoint hframe hs]
  ext p
  simp only [endingPoints, Set.mem_ofPred_eq, diverges_succ]
  exact not_congr (and_congr_right fun _ => exists_congr fun u => and_congr_right (hfetch p u))

/-- The sets grow until two in a row are the same, which happens within as many fetches as there are points. -/
theorem endingPoints_stay (hs : s.tagDue = true) (hn : 2 ^ 98 ≤ n) : endingPoints a s n = endingPoints a s (2 ^ 98) := by
  have hmono := endingPoints_mono a s
  have hsame {i j : Nat} (hij : i ≤ j) (h : (endingPoints a s i).ncard = (endingPoints a s j).ncard) :
      endingPoints a s i = endingPoints a s j := Set.eq_of_subset_of_ncard_le (hmono hij) h.ge
  refine (hsame hn (.symm ?_)).symm
  refine Nat.stabilises_of_monotone (f := fun n => (endingPoints a s n).ncard) ?mono ?bound ?stays hn
  case mono => exact fun i j hij => Set.ncard_le_ncard (hmono hij)
  case bound => exact fun m => (Set.ncard_le_card _).trans_eq card_walkPoint
  case stays => exact fun m h => congrArg Set.ncard (endingPoints_succ_congr hs (hsame m.le_succ h))

/-- What 2^98 fetches do not end, no number of fetches ends. -/
theorem Diverges.forever (h : Diverges a (2 ^ 98) s) (n : Nat) : Diverges a n s := by
  have hs := h.tagDue
  rw [diverges_iff_walkPoint (.refl s) hs] at h ⊢
  obtain ⟨-, hpoint⟩ := h
  refine ⟨hs, fun hn => hpoint ?_⟩
  rcases le_total n (2 ^ 98) with hle | hle
  · exact endingPoints_mono a s hle hn
  · rwa [← endingPoints_stay hs hle]

end Sys2Proof.Machine

namespace Sys2Proof.Claims

open Sys2Proof.Machine

/-- Settles O33: without a configured bound the loop has 2^98 fetches, one for each point. -/
theorem divergenceIsExact : Obligations.DivergenceIsExact := by
  intro a s l hfuel h n
  rw [loopFuel, hfuel, Option.getD_none] at h
  exact Diverges.forever ⟨l, h⟩ n

end Sys2Proof.Claims
